-- ==== Sys2Proof/Word.lean ====
section
/-! DEFINITION. The two machine words of the block: 32-bit CSR words (00_scope.md R5) and LMEM bytes
(10_state.md R53). Offsets, lengths and element values of a running command are plain `Nat` or `Int`,
because 00_scope.md R9 computes them in unbounded integers. -/

namespace Sys2Proof

/-- A CSR, a command word or a bus value: 32 bits. -/
abbrev Word := BitVec 32

/-- One byte of LMEM, or one entry of the MTF seed. -/
abbrev Byte := BitVec 8

end Sys2Proof
end

