-- ==== Sys2Proof/Config.lean ====
section
/-! DEFINITION. What an implementation fixes (00_scope.md R5), the error codes of 60_exceptions.md R321,
and the free values of the model: constants with no body, so that no proof can lean on what they are. -/

namespace Sys2Proof

/-- The implementation parameters of 00_scope.md R5. A state carries them (they are what the read-only
`CFG_*` registers of 10_state.md R24 to R26 hold), so a statement about every state covers every value. -/
structure Params where
  lmemBytes : Nat
  maxN : Nat
  maxAlpha : Nat
deriving DecidableEq, Repr

/-- The values 00_scope.md R5 recommends. DESIGN CHOICE (log 1, unsafe): they are what `State.reset` carries. -/
def Params.recommended : Params :=
  { lmemBytes := 2 ^ 20, maxN := 2 ^ 18, maxAlpha := 2 ^ 16 }

/-- The error codes of 60_exceptions.md R321, without the code `0x00` of success. -/
inductive ErrCode where
  | badOp | limit | badLen | align | range | overlap | capacity | badSeed
  | badSym | badPad | badSa | badSent | badBwt | badBit | badHdr | trunc | badCode | overflow
  | aborted
deriving DecidableEq, Repr

/-- FREE VALUE (log 5): a byte of `DST` that R323, R330, R363, R366 or R367 leaves unspecified, and a byte
the host reads from `DST` while a command runs (R367). Indexed by the draw counter of the state. -/
opaque Config.freeByte : Nat → Byte

/-- FREE VALUE (log 5): `ERR_INFO`, `RESULT0` and `RESULT1` after a host write to a running command's
source (70_reset_and_hazards.md R366). -/
opaque Config.freeWord : Nat → Word

/-- FREE VALUE (log 5, log 7): the error code after such a write; `none` is success. Any of the codes
60_exceptions.md R321 lists, and no other, since R321 says that no other value is ever reported. -/
opaque Config.freeErr : Nat → Option ErrCode

end Sys2Proof
end

