-- ==== Sys2Proof/Syntax.lean ====
section
/-! DEFINITION. What the host can say to the block: the commands (one constructor per row of
spec/opcode_table.json), the command word's two fields, bus transactions, the events the environment
may schedule, and the host script statements of 30_encoding.md section 3. -/

namespace Sys2Proof

/-- The commands of 30_encoding.md R101. A command word has no operand field (R100): the operands are the
latched argument registers (R104), so no constructor takes an argument. -/
inductive Instr where
  | nop
  | saBuild
  | saBuildB
  | bwtFwd
  | bwtInv
  | mtfFwd
  | mtfInv
  | hufEnc
  | hufDec
  | pack
  | unpack
deriving DecidableEq, Repr

/-- The fields of a command word, format `C` (30_encoding.md R100): `OPCODE` in bits 7:0, `RSVD` in 31:8. -/
structure CommandWord where
  opcode : BitVec 8
  rsvd : BitVec 24
deriving DecidableEq, Repr

/-- The access sizes of 20_memory.md R70: 1, 2 or 4 bytes. -/
inductive AccessSize where
  | byte | half | word
deriving DecidableEq, Repr

/-- A host bus transaction (20_memory.md R70). A write uses the low `8n` bits of its value (R77). -/
inductive Transaction where
  | read (a : Word) (n : AccessSize)
  | write (a : Word) (n : AccessSize) (v : Word)
deriving DecidableEq, Repr

/-- What the environment can make happen in one atomic step (00_scope.md R11): a host transaction, a slot in
which the command engine may take its completion step (40_command.md R143), or a hard reset (R360) after
which LMEM holds the listed cells (70_reset_and_hazards.md R364: any contents; an unlisted byte as in `Memory`). -/
inductive Event where
  | access (t : Transaction)
  | complete
  | hardReset (lmem : List (Nat × Byte))
deriving DecidableEq, Repr

/-- The keys of the `run` pseudo-instruction (30_encoding.md R113), in its fixed order; `none` is a key not
given. -/
structure RunKeys where
  src0 : Option Word := none
  len0 : Option Word := none
  src1 : Option Word := none
  len1 : Option Word := none
  dst : Option Word := none
  cap : Option Word := none
  arg0 : Option Word := none
  arg1 : Option Word := none
deriving DecidableEq, Repr

/-- A host script statement (30_encoding.md R112, R113). `wr` and `rd` name the register by its offset
`offset(REG)`. How many reads of a `wait` still find the block busy is open (R114), so `wait` carries that
number. -/
inductive Stmt where
  | wr (reg : Word) (v : Word)
  | rd (reg : Word)
  | wrMem (n : AccessSize) (off : Word) (vs : List Word)
  | rdMem (n : AccessSize) (off : Word) (count : Nat)
  | cmd (i : Instr)
  | cmdRaw (w : Word)
  | wait (busyReads : Nat)
  | run (i : Instr) (keys : RunKeys) (busyReads : Nat)
  | clrirq
deriving DecidableEq, Repr

end Sys2Proof
end

