-- ==== Sys2Proof/WellFormed.lean ====
section
/-! DEFINITION. The checks on terms that types alone do not make: a command word's two fields
(30_encoding.md R102) and the constraints on the parameters (00_scope.md R5). A command itself has no fields (30_encoding.md R100), so every `Instr` is well-formed. -/

namespace Sys2Proof

/-- The opcode is one of the map's eleven (30_encoding.md R101, R102). -/
def CommandWord.opcodeOk (w : CommandWord) : Bool := w.opcode ≤ 0x0A#8

/-- The reserved field is zero (30_encoding.md R100). -/
def CommandWord.rsvdOk (w : CommandWord) : Bool := w.rsvd == 0#24

/-- A legal command word (30_encoding.md R102). -/
def CommandWord.wellFormed (w : CommandWord) : Bool := w.opcodeOk && w.rsvdOk

/-- Every command is well-formed: it carries no operand that could be out of range (30_encoding.md R100). -/
def Instr.wellFormed (i : Instr) : Bool :=
  match i with
  | .nop | .saBuild | .saBuildB | .bwtFwd | .bwtInv | .mtfFwd | .mtfInv | .hufEnc | .hufDec | .pack | .unpack => true

/-- `LMEM_BYTES` is a power of two in `[4096, 2^24]` (00_scope.md R5). -/
def Params.lmemBytesOk (p : Params) : Bool :=
  2 ^ p.lmemBytes.log2 == p.lmemBytes && (4096 ≤ p.lmemBytes && p.lmemBytes ≤ 2 ^ 24)

/-- `MAX_N` is in `[1, 2^28]` (00_scope.md R5). -/
def Params.maxNOk (p : Params) : Bool := 1 ≤ p.maxN && p.maxN ≤ 2 ^ 28

/-- `MAX_ALPHA` is in `[258, 2^24]` (00_scope.md R5). -/
def Params.maxAlphaOk (p : Params) : Bool := 258 ≤ p.maxAlpha && p.maxAlpha ≤ 2 ^ 24

/-- The parameters an implementation may choose (00_scope.md R5). -/
def Params.wellFormed (p : Params) : Bool := p.lmemBytesOk && p.maxNOk && p.maxAlphaOk

end Sys2Proof
end

