-- ==== Sys2Proof/Decode.lean ====
section
/-! DEFINITION. The command decoder and encoder of 30_encoding.md R100 to R103. The decoder reads
`OPCODE = w[7:0]`, checks `w[31:8] = 0` and looks the opcode up (R103); it is total on words and on byte
sequences, and a word it refuses is refused by name. What the block does with a refused word is R102. -/

namespace Sys2Proof

/-- Why a word is no command (30_encoding.md R102). -/
inductive DecodeError where
  /-- A bit of `RSVD` is set. -/
  | reservedBits (w : Word)
  /-- `OPCODE` is in `0x0B..0xFF`. -/
  | badOpcode (w : Word)
  /-- The bytes are not the four of a command word (there is one length, 30_encoding.md R100). -/
  | badLength
deriving DecidableEq, Repr

/-- The fields of a word (30_encoding.md R100). -/
def commandFields (w : Word) : CommandWord :=
  { opcode := w.extractLsb' 0 8, rsvd := w.extractLsb' 8 24 }

/-- The opcode map of 30_encoding.md R101. -/
def opcodeMap (op : BitVec 8) : Option Instr :=
  match op.toNat with
  | 0x00 => some .nop
  | 0x01 => some .saBuild
  | 0x02 => some .saBuildB
  | 0x03 => some .bwtFwd
  | 0x04 => some .bwtInv
  | 0x05 => some .mtfFwd
  | 0x06 => some .mtfInv
  | 0x07 => some .hufEnc
  | 0x08 => some .hufDec
  | 0x09 => some .pack
  | 0x0A => some .unpack
  | _ => none

/-- The decoder of 30_encoding.md R103. -/
def decode (w : Word) : Except DecodeError Instr :=
  if (commandFields w).rsvdOk then
    match opcodeMap (commandFields w).opcode with
    | some i => .ok i
    | none => .error (.badOpcode w)
  else .error (.reservedBits w)

/-- A command word from the bytes the bus carries it in, the first the least significant (20_memory.md R75). -/
def decodeBytes (bs : List Byte) : Except DecodeError Instr :=
  match bs with
  | [b0, b1, b2, b3] => decode (b3 ++ b2 ++ b1 ++ b0)
  | _ => .error .badLength

/-- The opcode of a command (30_encoding.md R101). -/
def Instr.opcode (i : Instr) : BitVec 8 :=
  match i with
  | .nop => 0x00#8
  | .saBuild => 0x01#8
  | .saBuildB => 0x02#8
  | .bwtFwd => 0x03#8
  | .bwtInv => 0x04#8
  | .mtfFwd => 0x05#8
  | .mtfInv => 0x06#8
  | .hufEnc => 0x07#8
  | .hufDec => 0x08#8
  | .pack => 0x09#8
  | .unpack => 0x0A#8

/-- The word of a command (30_encoding.md R100, R101): the opcode in bits 7:0, zeros in `RSVD`. -/
def encode (i : Instr) : Word := 0#24 ++ i.opcode

/-- The command that the decoder reads from the bits `w` of an opcode-table row: they are laid out as the four
bytes of a command word, the least significant first, and given to the decoder. -/
def decodeTableWord (nbits w : Nat) : Option Instr :=
  let bits := w % 2 ^ nbits
  let bytes := [BitVec.ofNat 8 bits, BitVec.ofNat 8 (bits / 2 ^ 8), BitVec.ofNat 8 (bits / 2 ^ 16), BitVec.ofNat 8 (bits / 2 ^ 24)]
  match if bits < 2 ^ 32 then decodeBytes bytes else .error .badLength with
  | .ok i => some i
  | .error _ => none

end Sys2Proof
end

