-- ==== Sys2Proof/Machine/State.lean ====
section
/-! DEFINITION. The state of the block as plain data (10_state.md R20), the two ways a step could stop
(the block has neither), and the state after reset (70_reset_and_hazards.md R361). -/

namespace Sys2Proof.Machine

/-- LMEM (20_memory.md R76) in one canonical form: addresses strictly rising, and no entry equal to what an
unlisted address reads as (`Memory.unlisted`, Machine/Ops.lean). -/
abbrev Memory := List Host.Cell

/-- The eight argument registers (10_state.md R35 to R42), live or latched. -/
structure Args where
  src0Addr : Word
  src0Len : Word
  src1Addr : Word
  src1Len : Word
  dstAddr : Word
  dstCap : Word
  arg0 : Word
  arg1 : Word
deriving DecidableEq, Repr

/-- Every argument register is 0 after reset (70_reset_and_hazards.md R361). -/
def Args.zero : Args := ⟨0, 0, 0, 0, 0, 0, 0, 0⟩

/-- `LATCH` (10_state.md R45): the record captured at acceptance. `seed` is the copy of `seed[0..255]`, made
only for the MTF opcodes (40_command.md R141); for any other word there is no copy and the list is empty. -/
structure Latch where
  cmd : Word
  args : Args
  seed : List Byte
deriving DecidableEq, Repr

/-- A running command: its `LATCH`, and what the hazard rules must remember of the host's writes since
acceptance (model's own fields, log 6): whether a byte of a source was written (R366), and which bytes of
`DST` were (R367). -/
structure Running where
  latch : Latch
  srcTouched : Bool
  dstTouched : List Nat
deriving DecidableEq, Repr

/-- The sequencer (10_state.md R22). `LATCH` exists only while a command runs (R45). -/
inductive Seq where
  | idle
  | busy (r : Running)
deriving DecidableEq, Repr

/-- The architectural state (10_state.md R20), then three fields of the model's own: `agenda`, what the
environment does next (log 3); `rdata`, the value the last `HostRead` returned (log 4); `draws`, how many
free values have been used (log 5). `STATUS.BUSY` is `seq`, and `irq` is computed (R52): neither is stored twice. -/
structure State where
  params : Params
  cmd : Word
  done : Bool
  err : Bool
  drop : Bool
  errCode : Byte
  doneIE : Bool
  doneIP : Bool
  errInfo : Word
  result0 : Word
  result1 : Word
  args : Args
  mtfSeed : Vector Word 64
  seq : Seq
  lmem : Memory
  agenda : List Event
  rdata : Word
  draws : Nat
deriving DecidableEq, Repr

/-- Why the machine could stop with a fault. The block never raises a bus error and never hangs: every error is
a completion code (60_exceptions.md R320, R327), so there is no fault, and the type is closed and empty. -/
inductive Fault
deriving DecidableEq, Repr

/-- Why the model could give a command no meaning. -/
inductive Refusal where
  /-- Raised by an arm of `exec` whose command has no meaning yet (safe); no arm raises it. -/
  | notModelled (mnemonic : String)
deriving DecidableEq, Repr

/-- The reset value of `MTF_SEED<w>` (10_state.md R43): `(4w) | (4w+1) << 8 | (4w+2) << 16 | (4w+3) << 24`. -/
def identitySeedWord (w : Nat) : Word :=
  BitVec.ofNat 32 (4 * w + (4 * w + 1) * 2 ^ 8 + (4 * w + 2) * 2 ^ 16 + (4 * w + 3) * 2 ^ 24)

/-- The identity seed table (10_state.md R43). -/
def identitySeed : Vector Word 64 := Vector.ofFn fun w => identitySeedWord w.val

/-- The state right after a hard reset of a block with parameters `p`, when LMEM powers up with the contents
`init` (70_reset_and_hazards.md R361, R364). -/
def State.hardReset (p : Params) (init : Memory) : State where
  params := p
  cmd := 0
  done := false
  err := false
  drop := false
  errCode := 0
  doneIE := false
  doneIP := false
  errInfo := 0
  result0 := 0
  result1 := 0
  args := Args.zero
  mtfSeed := identitySeed
  seq := .idle
  lmem := init
  agenda := []
  rdata := 0
  draws := 0

/-- The machine right after reset (70_reset_and_hazards.md R361), with the recommended parameters (log 1) and
nothing listed in LMEM (log 2). -/
def State.reset : State := State.hardReset Params.recommended []

end Sys2Proof.Machine
end

