-- ==== Sys2Proof/Machine/Ops.lean ====
section
/-! DEFINITION. The named operations over LMEM and registers: reading and writing bytes and little-endian
values (20_memory.md R75 to R77), the seed table's bytes (10_state.md R43), the error codes (60_exceptions.md
R321), unspecified bytes (R323), and the two ways a command completes (40_command.md R145, R146). -/

namespace Sys2Proof.Machine

/-! ## LMEM -/

/-- What an unlisted address reads as. DESIGN CHOICE (log 2, unsafe): 70_reset_and_hazards.md R364 leaves the
contents after a hard reset open; statements take LMEM as arbitrary. -/
def Memory.unlisted (_a : Nat) : Byte := 0x00#8

/-- The byte of LMEM at an offset. -/
def Memory.read : Memory → Nat → Byte
  | [], a => Memory.unlisted a
  | (b, v) :: m, a => if b = a then v else Memory.read m a

/-- LMEM with one byte replaced; the canonical form is kept. -/
def Memory.write : Memory → Nat → Byte → Memory
  | [], a, v => if v = Memory.unlisted a then [] else [(a, v)]
  | (b, w) :: m, a, v =>
    if a < b then
      if v = Memory.unlisted a then (b, w) :: m else (a, v) :: (b, w) :: m
    else if a = b then
      if v = Memory.unlisted a then m else (a, v) :: m
    else (b, w) :: Memory.write m a v

/-- The canonical form of a list of cells whose addresses are all at least `lo`. -/
def Memory.wfFrom : Nat → Memory → Bool
  | _, [] => true
  | lo, (a, v) :: m => lo ≤ a && v != Memory.unlisted a && Memory.wfFrom (a + 1) m

/-- The canonical form: addresses strictly rising, no entry equal to what an unlisted address reads as. -/
def Memory.wf (m : Memory) : Bool := Memory.wfFrom 0 m

/-- Every listed address lies in LMEM (20_memory.md R76). -/
def Memory.within (size : Nat) (m : Memory) : Bool := m.all fun c => c.1 < size

/-- The memory that holds the given cells, those outside LMEM dropped, in canonical form. -/
def Memory.ofCells (size : Nat) (cells : List Host.Cell) : Memory :=
  cells.foldl (fun m c => if c.1 < size then m.write c.1 c.2 else m) []

/-- `MemRead(o, n)` (20_memory.md R77): `n` bytes from offset `o`, little-endian, unsigned. -/
def memRead (m : Memory) (o : Nat) : Nat → Nat
  | 0 => 0
  | n + 1 => (m.read o).toNat + 256 * memRead m (o + 1) n

/-- `MemWrite(o, n, v)` (20_memory.md R77): the low `8n` bits of `v` from offset `o`, little-endian. -/
def memWrite (m : Memory) (o : Nat) (n : Nat) (v : Nat) : Memory :=
  match n with
  | 0 => m
  | n + 1 => memWrite (m.write o (BitVec.ofNat 8 v)) (o + 1) n (v / 256)

/-- The size of a host access in bytes (20_memory.md R70). -/
def accessBytes : AccessSize → Nat
  | .byte => 1
  | .half => 2
  | .word => 4

/-! ## The MTF seed table -/

/-- The four entries that `MTF_SEED<w>` holds (10_state.md R43): entry `4w + b` in bits `8b+7 : 8b`. -/
def seedEntries (w : Word) : List Byte :=
  [w.extractLsb' 0 8, w.extractLsb' 8 8, w.extractLsb' 16 8, w.extractLsb' 24 8]

/-- `seed[0..255]` (10_state.md R43). -/
def seedTable (t : Vector Word 64) : List Byte := t.toList.flatMap seedEntries

/-! ## Error codes -/

/-- The value `STATUS.ERRCODE` takes for an error (60_exceptions.md R321). -/
def errCodeByte : ErrCode → Byte
  | .badOp => 0x01#8
  | .limit => 0x02#8
  | .badLen => 0x03#8
  | .align => 0x04#8
  | .range => 0x05#8
  | .overlap => 0x06#8
  | .capacity => 0x07#8
  | .badSeed => 0x08#8
  | .badSym => 0x10#8
  | .badPad => 0x11#8
  | .badSa => 0x12#8
  | .badSent => 0x13#8
  | .badBwt => 0x14#8
  | .badBit => 0x15#8
  | .badHdr => 0x16#8
  | .trunc => 0x17#8
  | .badCode => 0x18#8
  | .overflow => 0x19#8
  | .aborted => 0x1F#8

/-- Class W of 60_exceptions.md R321, R323: the error leaves `DST` unspecified. Class P, the others, leaves
LMEM unchanged. -/
def errIsW : ErrCode → Bool
  | .badOp | .limit | .badLen | .align | .range | .overlap | .capacity | .badSeed => false
  | .badSym | .badPad | .badSa | .badSent | .badBwt | .badBit | .badHdr | .trunc | .badCode | .overflow | .aborted => true

/-! ## Unspecified bytes -/

/-- LMEM after `n` bytes from offset `o` became unspecified: each is a free value of its own, drawn from
number `d` on (60_exceptions.md R323; 93_implementation_defined.md U10). -/
def scramble (m : Memory) (d : Nat) (o : Nat) : Nat → Memory
  | 0 => m
  | n + 1 => scramble (m.write o (Config.freeByte d)) (d + 1) (o + 1) n

/-- LMEM after the listed bytes became unspecified (70_reset_and_hazards.md R367). -/
def scrambleAt (m : Memory) (d : Nat) : List Nat → Memory
  | [] => m
  | o :: os => scrambleAt (m.write o (Config.freeByte d)) (d + 1) os

/-! ## Completion -/

/-- `complete_ok(r0, r1)` (40_command.md R145). `DROP` keeps its value; `LATCH` is discarded with `SEQ`. -/
def completeOk (r0 r1 : Nat) (s : State) : State :=
  { s with
    result0 := BitVec.ofNat 32 r0
    result1 := BitVec.ofNat 32 r1
    errInfo := 0
    errCode := 0
    err := false
    done := true
    doneIP := true
    seq := .idle }

/-- `complete_err(code, info)` (40_command.md R146): the block's way of taking an error (60_exceptions.md
R320, R325). `DROP` keeps its value; `LATCH` is discarded with `SEQ`. -/
def completeErr (e : ErrCode) (info : Nat) (s : State) : State :=
  { s with
    result0 := 0
    result1 := 0
    errInfo := BitVec.ofNat 32 info
    errCode := errCodeByte e
    err := true
    done := true
    doneIP := true
    seq := .idle }

end Sys2Proof.Machine
end

