-- ==== Sys2Proof/Machine/Flags.lean ====
section
/-! DEFINITION. The block's condition flags (10_state.md R50): the `STATUS` word assembled from its fields
(R29), the interrupt bits (R30, R31), the `irq` level (R52), and what acceptance, a dropped command and host
writes do to them. -/

namespace Sys2Proof.Machine

/-- `SEQ = BUSY`, which is `STATUS.BUSY` (10_state.md R22, R29). -/
def State.busy (s : State) : Bool :=
  match s.seq with
  | .idle => false
  | .busy _ => true

/-- `STATUS` as the host reads it (10_state.md R29): bits 31:16 zero, `ERRCODE` in 15:8, bits 7:4 zero, then
`DROP`, `ERR`, `DONE`, `BUSY` in bits 3 to 0. -/
def State.status (s : State) : Word :=
  0#16 ++ s.errCode ++ 0#4 ++ BitVec.ofBool s.drop ++ BitVec.ofBool s.err ++ BitVec.ofBool s.done ++ BitVec.ofBool s.busy

/-- The interrupt output (10_state.md R52, 60_exceptions.md R329): a level, `DONE_IP AND DONE_IE`. -/
def State.irq (s : State) : Bool := s.doneIP && s.doneIE

/-- `IRQ_EN` as the host reads it: `DONE_IE` in bit 0, the rest reserved (10_state.md R30). -/
def State.irqEnWord (s : State) : Word := 0#31 ++ BitVec.ofBool s.doneIE

/-- `IRQ_STATUS` as the host reads it: `DONE_IP` in bit 0, the rest reserved (10_state.md R31). -/
def State.irqStatusWord (s : State) : Word := 0#31 ++ BitVec.ofBool s.doneIP

/-- A host write to `IRQ_EN`: bit 0 is stored, the rest ignored (10_state.md R30). -/
def writeIrqEn (v : Word) (s : State) : State := { s with doneIE := v.getLsbD 0 }

/-- A host write to `IRQ_STATUS`: a 1 in bit 0 clears `DONE_IP`, a 0 leaves it (10_state.md R31). -/
def writeIrqStatus (v : Word) (s : State) : State := { s with doneIP := s.doneIP && !v.getLsbD 0 }

/-- What acceptance does to the flags and the result registers (40_command.md R141); `DONE_IP` is not changed.
`BUSY` is `SEQ`, which `accept` sets. -/
def clearForAcceptance (s : State) : State :=
  { s with
    done := false
    err := false
    drop := false
    errCode := 0
    result0 := 0
    result1 := 0
    errInfo := 0 }

/-- A `CMD` write while busy sets `STATUS.DROP` and changes nothing else (40_command.md R142). -/
def dropCommand (s : State) : State := { s with drop := true }

end Sys2Proof.Machine
end

