-- ==== Sys2Proof/Machine/Operands.lean ====
section
/-! DEFINITION. The operand forms: the element formats and their access (20_memory.md R78 to R82), the regions
of each command and their checks (R83 to R87), and `PreCheck` with the operand table it reads
(40_command.md R147, R148). Every quantity is an unbounded `Nat` (00_scope.md R9). -/

namespace Sys2Proof.Machine

/-! ## Element formats -/

/-- The element formats of 20_memory.md R78. -/
inductive Fmt where
  | u8 | bit8 | sym16 | idx32 | i32
deriving DecidableEq, Repr

/-- The size of an element in bytes (20_memory.md R78). -/
def fmtSize : Fmt → Nat
  | .u8 => 1
  | .bit8 => 1
  | .sym16 => 2
  | .idx32 => 4
  | .i32 => 4

/-- `Elem(fmt, base, i)` for the unsigned formats (20_memory.md R79): the raw value, no bit masked (R80). -/
def elem (f : Fmt) (m : Memory) (base i : Nat) : Nat := memRead m (base + fmtSize f * i) (fmtSize f)

/-- `s32(w)` (00_scope.md R7): a 32-bit word read as a two's-complement integer. -/
def s32 (w : Nat) : Int := if w < 2 ^ 31 then (w : Int) else (w : Int) - 2 ^ 32

/-- `Elem(I32, base, i)` (20_memory.md R79). -/
def elemI32 (m : Memory) (base i : Nat) : Int := s32 (elem .i32 m base i)

/-- `PutElem(fmt, base, i, v)` (20_memory.md R79). -/
def putElem (f : Fmt) (base i v : Nat) (m : Memory) : Memory := memWrite m (base + fmtSize f * i) (fmtSize f) v

/-- Elements `0 .. n-1` of a sequence. -/
def elems (f : Fmt) (m : Memory) (base n : Nat) : List Nat := (List.range n).map (elem f m base)

/-- The `PutElem` calls of a command, one for each value, for elements `i, i+1, ...` (40_command.md R143, R149). -/
def putElems (f : Fmt) (base : Nat) : Nat → List Nat → Memory → Memory
  | _, [], m => m
  | i, v :: vs, m => putElems f base (i + 1) vs (putElem f base i v m)

/-! ## Regions -/

/-- A region of LMEM that a command uses (20_memory.md R83). -/
structure Region where
  fmt : Fmt
  addr : Nat
  bytes : Nat
deriving DecidableEq, Repr

/-- An LMEM offset lies in a region. -/
def Region.covers (g : Region) (o : Nat) : Bool := g.addr ≤ o && o < g.addr + g.bytes

/-- The overlap test of 20_memory.md R86. A region of size 0 overlaps nothing (R87). -/
def Region.overlaps (g h : Region) : Bool :=
  g.bytes != 0 && h.bytes != 0 && (g.addr < h.addr + h.bytes && h.addr < g.addr + g.bytes)

/-- `SRC0` of each command (40_command.md R148). -/
def src0Region (i : Instr) (a : Args) : Option Region :=
  let n := a.src0Len.toNat
  let at0 := a.src0Addr.toNat
  match i with
  | .nop => none
  | .saBuild => some ⟨.i32, at0, 4 * (n + 3)⟩
  | .saBuildB => some ⟨.u8, at0, n⟩
  | .bwtFwd => some ⟨.u8, at0, n⟩
  | .bwtInv => some ⟨.sym16, at0, 2 * n⟩
  | .mtfFwd => some ⟨.sym16, at0, 2 * n⟩
  | .mtfInv => some ⟨.sym16, at0, 2 * n⟩
  | .hufEnc => some ⟨.sym16, at0, 2 * n⟩
  | .hufDec => some ⟨.bit8, at0, n⟩
  | .pack => some ⟨.bit8, at0, n⟩
  | .unpack => some ⟨.u8, at0, n⟩

/-- `SRC1`, which only `BWT_FWD` uses (40_command.md R148). -/
def src1Region (i : Instr) (a : Args) : Option Region :=
  match i with
  | .bwtFwd => some ⟨.idx32, a.src1Addr.toNat, 4 * a.src1Len.toNat⟩
  | .nop | .saBuild | .saBuildB | .bwtInv | .mtfFwd | .mtfInv | .hufEnc | .hufDec | .pack | .unpack => none

/-- The destination format of each command (40_command.md R148). -/
def dstFmt (i : Instr) : Option Fmt :=
  match i with
  | .nop => none
  | .saBuild => some .idx32
  | .saBuildB => some .idx32
  | .bwtFwd => some .sym16
  | .bwtInv => some .u8
  | .mtfFwd => some .sym16
  | .mtfInv => some .sym16
  | .hufEnc => some .bit8
  | .hufDec => some .sym16
  | .pack => some .u8
  | .unpack => some .bit8

/-- `DST`: its size is the declared capacity (20_memory.md R83). -/
def dstRegion (i : Instr) (a : Args) : Option Region :=
  (dstFmt i).map fun f => ⟨f, a.dstAddr.toNat, a.dstCap.toNat * fmtSize f⟩

/-! ## PreCheck -/

/-- One check of `PreCheck`: whether it fails, and the error it then raises (40_command.md R147). -/
structure Check where
  fails : Bool
  code : ErrCode
  info : Nat
deriving DecidableEq, Repr

/-- Step 1: the word is one of the opcode map's (40_command.md R147). -/
def checkOp (w : Word) : Check :=
  { fails := !(commandFields w).wellFormed, code := .badOp, info := w.toNat }

/-- Step 2: the limits of each command in the order 40_command.md R148 lists them. -/
def checkLimits (p : Params) (i : Instr) (a : Args) : List Check :=
  match i with
  | .saBuild =>
    [ { fails := p.maxN < a.src0Len.toNat, code := .limit, info := 0 },
      { fails := p.maxAlpha < a.arg0.toNat + a.arg1.toNat + 1, code := .limit, info := 1 } ]
  | .saBuildB => [ { fails := p.maxN < a.src0Len.toNat + 1, code := .limit, info := 0 } ]
  | .bwtFwd => [ { fails := p.maxN < a.src1Len.toNat, code := .limit, info := 0 } ]
  | .bwtInv => [ { fails := p.maxN < a.src0Len.toNat, code := .limit, info := 0 } ]
  | .nop | .mtfFwd | .mtfInv | .hufEnc | .hufDec | .pack | .unpack => []

/-- Step 3: the length relation of `BWT_FWD`, `N = n + 1` (40_command.md R148). -/
def checkLength (i : Instr) (a : Args) : List Check :=
  match i with
  | .bwtFwd => [ { fails := a.src1Len.toNat != a.src0Len.toNat + 1, code := .badLen, info := a.src1Len.toNat } ]
  | .nop | .saBuild | .saBuildB | .bwtInv | .mtfFwd | .mtfInv | .hufEnc | .hufDec | .pack | .unpack => []

/-- Step 4 for one region with its id: alignment, then range; a region of size 0 is exempt
(20_memory.md R84, R85, R87). -/
def checkRegion (p : Params) (id : Nat) (g : Option Region) : List Check :=
  match g with
  | none => []
  | some g =>
    [ { fails := g.bytes != 0 && g.addr % fmtSize g.fmt != 0, code := .align, info := id },
      { fails := g.bytes != 0 && p.lmemBytes < g.addr + g.bytes, code := .range, info := id } ]

/-- Step 5 for one source with its id: `DST` does not overlap it (20_memory.md R86). -/
def checkOverlap (id : Nat) (dst src : Option Region) : List Check :=
  match dst, src with
  | some d, some g => [ { fails := d.overlaps g, code := .overlap, info := id } ]
  | none, _ => []
  | some _, none => []

/-- The static required capacity of each command (40_command.md R148). -/
def requiredCap (i : Instr) (a : Args) : Option Nat :=
  let n := a.src0Len.toNat
  match i with
  | .nop => none
  | .saBuild => some n
  | .saBuildB => some (n + 1)
  | .bwtFwd => some a.src1Len.toNat
  | .bwtInv => some (n - 1)
  | .mtfFwd => some n
  | .mtfInv => some n
  | .hufEnc => none
  | .hufDec => none
  | .pack => some ((n + 7) / 8)
  | .unpack => some (8 * n)

/-- Step 6: `dst_cap` is at least the static required capacity (40_command.md R147). -/
def checkCapacity (i : Instr) (a : Args) : List Check :=
  match requiredCap i a with
  | none => []
  | some req => [ { fails := a.dstCap.toNat < req, code := .capacity, info := req } ]

/-- The first index from `i` on whose element is bad, given the elements seen before it. -/
def firstBad {α : Type} (bad : List α → α → Bool) (seen : List α) (i : Nat) : List α → Option Nat
  | [] => none
  | x :: xs => if bad seen x then some i else firstBad bad (x :: seen) (i + 1) xs

/-- The first element above `top`, if there is one: what `BADSYM` and `BADBIT` report (20_memory.md R80, R82). -/
def firstAbove (top : Nat) (xs : List Nat) : Option Nat := firstBad (fun _ x => decide (top < x)) [] 0 xs

/-- `SeedCheck` (43_mtf.md R241): the first index whose byte equals that of an earlier index. -/
def seedRepeat (seed : List Byte) : Option Nat := firstBad (fun seen x => seen.contains x) [] 0 seed

/-- Step 7: the MTF commands check the latched seed (40_command.md R147). -/
def checkSeed (i : Instr) (l : Latch) : List Check :=
  match i with
  | .mtfFwd => [ { fails := (seedRepeat l.seed).isSome, code := .badSeed, info := (seedRepeat l.seed).getD 0 } ]
  | .mtfInv => [ { fails := (seedRepeat l.seed).isSome, code := .badSeed, info := (seedRepeat l.seed).getD 0 } ]
  | .nop | .saBuild | .saBuildB | .bwtFwd | .bwtInv | .hufEnc | .hufDec | .pack | .unpack => []

/-- The checks of `PreCheck(op)` in their order (40_command.md R147). -/
def preChecks (p : Params) (i : Instr) (l : Latch) : List Check :=
  [checkOp l.cmd]
    ++ checkLimits p i l.args
    ++ checkLength i l.args
    ++ checkRegion p 0 (src0Region i l.args)
    ++ checkRegion p 1 (src1Region i l.args)
    ++ checkRegion p 2 (dstRegion i l.args)
    ++ checkOverlap 0 (dstRegion i l.args) (src0Region i l.args)
    ++ checkOverlap 1 (dstRegion i l.args) (src1Region i l.args)
    ++ checkCapacity i l.args
    ++ checkSeed i l

/-- The first check that fails, if one does (40_command.md R147, 60_exceptions.md R324). -/
def firstFailing (cs : List Check) : Option (ErrCode × Nat) :=
  (cs.find? fun c => c.fails).map fun c => (c.code, c.info)

/-- `PreCheck(op)` (40_command.md R147): `none` when it passes. -/
def preCheck (p : Params) (i : Instr) (l : Latch) : Option (ErrCode × Nat) := firstFailing (preChecks p i l)

/-- The command a latched word names, if it is legal (40_command.md R144). -/
def latchedOp (l : Latch) : Option Instr := (decode l.cmd).toOption

/-- `PreCheck` of the latched word, legal or not; only step 1 applies to an illegal one (40_command.md R147). -/
def preCheckLatched (p : Params) (l : Latch) : Option (ErrCode × Nat) :=
  match latchedOp l with
  | some i => preCheck p i l
  | none => firstFailing [checkOp l.cmd]

/-- The `DST` region of the latched command, if it has one. -/
def latchedDst (l : Latch) : Option Region := (latchedOp l).bind fun i => dstRegion i l.args

/-- An LMEM offset lies in a source region of the latched command (70_reset_and_hazards.md R366). -/
def inLatchedSrc (l : Latch) (o : Nat) : Bool :=
  match latchedOp l with
  | none => false
  | some i => (src0Region i l.args).any (fun g => g.covers o) || (src1Region i l.args).any (fun g => g.covers o)

/-- An LMEM offset lies in the `DST` region of the latched command (70_reset_and_hazards.md R367). -/
def inLatchedDst (l : Latch) (o : Nat) : Bool := (latchedDst l).any fun g => g.covers o

/-- LMEM after every byte of a region became unspecified, and how many bytes that is. A byte past the end of
LMEM does not exist (20_memory.md R76): a region that `PreCheck` would reject is cut off there. -/
def scrambleRegion (p : Params) (d : Nat) (g : Option Region) (m : Memory) : Memory × Nat :=
  match g with
  | none => (m, 0)
  | some g =>
    let n := min g.bytes (p.lmemBytes - g.addr)
    (scramble m d g.addr n, n)

end Sys2Proof.Machine
end

