-- ==== Sys2Proof/Machine/Command.lean ====
section
/-! DEFINITION. The life of a command (40_command.md section 1): acceptance, the one completion step with its
outcome applied to the state, the completion of a command whose source the host wrote while it ran, abort,
and soft reset. The rules of the eleven commands (the other Machine files) only compute an outcome. -/

namespace Sys2Proof.Machine

/-- What `finish(r0, r1)` returns (40_command.md R144): the values of the `PutElem` calls, for elements
`0, 1, ...` in order, and the two results. -/
structure Output where
  values : List Nat
  r0 : Nat
  r1 : Nat
deriving DecidableEq, Repr

/-- The outcome of a command's rule (40_command.md R144): an output, or the error and `ERR_INFO` raised. Its
class decides between `ErrP` and `ErrW`. -/
abbrev Result := Except (ErrCode × Nat) Output

/-- The copy of the seed that acceptance makes, only when `w[7:0]` is `0x05` or `0x06` (40_command.md R141). -/
def latchedSeed (w : Word) (t : Vector Word 64) : List Byte :=
  if w.extractLsb' 0 8 = 0x05#8 ∨ w.extractLsb' 0 8 = 0x06#8 then seedTable t else []

/-- Acceptance of the command word `w` (40_command.md R141). -/
def accept (w : Word) (s : State) : State :=
  { clearForAcceptance s with
    cmd := w
    seq := .busy
      { latch := { cmd := w, args := s.args, seed := latchedSeed w s.mtfSeed }
        srcTouched := false
        dstTouched := [] } }

/-- A state whose `LMEM` is replaced and whose draw counter has moved on by `n`. -/
def withMem (m : Memory) (n : Nat) (s : State) : State := { s with lmem := m, draws := s.draws + n }

/-- The bytes of `DST` that the host wrote while the command ran are unspecified after completion, whatever the
outcome (70_reset_and_hazards.md R367). -/
def settleTouched (r : Running) (s : State) : State :=
  withMem (scrambleAt s.lmem s.draws r.dstTouched) r.dstTouched.length s

/-- Every byte of the latched command's `DST` becomes unspecified (60_exceptions.md R323, R330). -/
def scrambleDst (l : Latch) (s : State) : State :=
  let (m, n) := scrambleRegion s.params s.draws (latchedDst l) s.lmem
  withMem m n s

/-- The `PutElem` calls of a successful command into its `DST` (40_command.md R143, R149). A command with no
destination makes none. -/
def writeOutput (i : Instr) (a : Args) (values : List Nat) (s : State) : State :=
  match dstFmt i with
  | none => s
  | some f => withMem (putElems f a.dstAddr.toNat 0 values s.lmem) 0 s

/-- The effect of an outcome on the state (40_command.md R143). -/
def applyResult (i : Instr) (l : Latch) (res : Result) (s : State) : State :=
  match res with
  | .ok out => completeOk out.r0 out.r1 (writeOutput i l.args out.values s)
  | .error (e, info) => completeErr e info (if errIsW e then scrambleDst l s else s)

/-- Completion after a host write to a source of the running command (70_reset_and_hazards.md R366): the error
code, `ERR_INFO`, `RESULT0`, `RESULT1` and every byte of `DST` are unspecified, and nothing else is. -/
def completeHazard (l : Latch) (s : State) : State :=
  let t := scrambleDst l { s with draws := s.draws + 3 }
  let code := Config.freeErr s.draws
  { t with
    result0 := Config.freeWord (s.draws + 1)
    result1 := Config.freeWord (s.draws + 2)
    errInfo := Config.freeWord s.draws
    errCode := match code with
      | none => 0
      | some e => errCodeByte e
    err := code.isSome
    done := true
    doneIP := true
    seq := .idle }

/-- The completion step of a running command whose rule has the outcome `res` (40_command.md R143), with the
hazard rules of 70_reset_and_hazards.md R366 and R367 applied. -/
def completion (i : Instr) (r : Running) (res : Result) (s : State) : State :=
  if r.srcTouched then completeHazard r.latch s
  else settleTouched r (applyResult i r.latch res s)

/-- `Exec` of a command (40_command.md R144): `PreCheck` first, then the rule's own body, which reads only the
latched record and LMEM. LMEM now holds in the source regions what it held at acceptance, unless the host
wrote there, which `completion` treats as R366 says (20_memory.md R90; DEDUCED, log 8). -/
def execResult (i : Instr) (body : Latch → Memory → Result) (p : Params) (l : Latch) (m : Memory) : Result :=
  match preCheck p i l with
  | some e => .error e
  | none => body l m

/-- A command's completion step as a step of the machine. With no command running there is nothing to complete,
and the block does nothing (60_exceptions.md R336). -/
def runCommand (i : Instr) (body : Latch → Memory → Result) (s : State) : Host.Outcome State Fault Refusal :=
  match s.seq with
  | .idle => .next s
  | .busy r => .next (completion i r (execResult i body s.params r.latch s.lmem) s)

/-- The completion step of an illegal word (30_encoding.md R102, 40_command.md R147): `BADOP` with the word. It
has no regions, so no host write is a hazard for it. -/
def completeIllegal (r : Running) (s : State) : State := completeErr .badOp r.latch.cmd.toNat s

/-- What an abort (60_exceptions.md R330) and a soft reset (70_reset_and_hazards.md R363) do to LMEM: a running
command's `DST` is unspecified if its `PreCheck` would pass; otherwise LMEM is unchanged, also where the host wrote. -/
def discardRunning (s : State) : State :=
  match s.seq with
  | .idle => s
  | .busy r => if (preCheckLatched s.params r.latch).isNone then scrambleDst r.latch s else s

/-- The running command ends in the step of a `CTRL` write with `ABORT` (60_exceptions.md R330). With no command
running, nothing happens. DEDUCED (log 6): R366 and R367 of 70_reset_and_hazards.md speak of a command that completes,
so host writes to the regions of the command do not change what R330 says of an abort. -/
def abort (s : State) : State :=
  match s.seq with
  | .idle => s
  | .busy _ => completeErr .aborted 0 (discardRunning s)

/-- The soft reset of a `CTRL` write (70_reset_and_hazards.md R362): every CSR, `SEQ` and `LATCH` take their
reset values; LMEM is kept, except as R363 says (R366 and R367 add nothing: log 6, DEDUCED). The environment's fields
are not the block's. -/
def softReset (s : State) : State :=
  let t := discardRunning s
  { State.hardReset s.params t.lmem with agenda := s.agenda, rdata := s.rdata, draws := t.draws }

/-- The reset input (70_reset_and_hazards.md R360): every item takes its reset value and LMEM holds whatever the
event says. A running command is lost. -/
def hardResetTo (cells : List Host.Cell) (s : State) : State :=
  { State.hardReset s.params (Memory.ofCells s.params.lmemBytes cells) with agenda := s.agenda, rdata := s.rdata, draws := s.draws }

end Sys2Proof.Machine
end

