-- ==== Sys2Proof/Machine/Bitstream.lean ====
section
/-! DEFINITION. Bitstream packing (45_bitstream.md): `PACK` and `UNPACK`, over the packed format of
30_encoding.md R108. -/

namespace Sys2Proof.Machine

/-- A byte from eight bits, the first one bit 7 (30_encoding.md R108). Absent bits are 0. -/
def byteOfBits (bits : List Nat) : Nat :=
  (List.range 8).foldl (fun acc j => acc + bits.getD j 0 * 2 ^ (7 - j)) 0

/-- The packed form of a logical bit sequence (30_encoding.md R108): `m` bytes, byte `k` from bits `8k .. 8k+7`,
right-padded with zero bits. -/
def packBits (bits : List Nat) (m : Nat) : List Nat :=
  (List.range m).map fun k => byteOfBits ((bits.drop (8 * k)).take 8)

/-- The eight bits of a byte, most significant first (45_bitstream.md R301). -/
def bitsOfByte (y : Nat) : List Nat := (List.range 8).map fun q => y / 2 ^ (7 - q) % 2

/-- The bits of a byte sequence (45_bitstream.md R301). -/
def unpackBytes (ys : List Nat) : List Nat := ys.flatMap bitsOfByte

/-- The body of `PACK` (45_bitstream.md R300). -/
def packBody (l : Latch) (m : Memory) : Result :=
  let n := l.args.src0Len.toNat
  let bits := elems .bit8 m l.args.src0Addr.toNat n
  match firstAbove 1 bits with
  | some j => .error (.badBit, j)
  | none =>
    let count := (n + 7) / 8
    .ok { values := packBits bits count, r0 := count, r1 := 8 * count - n }

/-- `PACK` (45_bitstream.md R300). -/
def execPack (s : State) : Host.Outcome State Fault Refusal := runCommand .pack packBody s

/-- The body of `UNPACK` (45_bitstream.md R301). -/
def unpackBody (l : Latch) (m : Memory) : Result :=
  let n := l.args.src0Len.toNat
  .ok { values := unpackBytes (elems .u8 m l.args.src0Addr.toNat n), r0 := 8 * n, r1 := 0 }

/-- `UNPACK` (45_bitstream.md R301). -/
def execUnpack (s : State) : Host.Outcome State Fault Refusal := runCommand .unpack unpackBody s

end Sys2Proof.Machine
end

