-- ==== Sys2Proof/Machine/Mtf.lean ====
section
/-! DEFINITION. The move-to-front transform (43_mtf.md): `MTF_FWD` and `MTF_INV`. The recency list is working
state (10_state.md R46): a list of byte values that starts as the latched seed. -/

namespace Sys2Proof.Machine

/-- `SENT`, the BWT sentinel and out-of-band rank (00_scope.md R12). -/
def sent : Nat := 256

/-- `MoveToFront(Lst, r)` (43_mtf.md R240): entry `r` moves to the front, the entries before it shift down by
one, the entries after it stay. -/
def moveToFront (lst : List Nat) (r : Nat) : List Nat := lst.getD r 0 :: lst.eraseIdx r

/-- The ranks of a symbol sequence (43_mtf.md R241). `SENT` passes through and leaves the list alone. -/
def mtfForward : List Nat → List Nat → List Nat
  | _, [] => []
  | lst, v :: vs =>
    if v = sent then sent :: mtfForward lst vs
    else lst.idxOf v :: mtfForward (moveToFront lst (lst.idxOf v)) vs

/-- The symbols of a rank sequence (43_mtf.md R242). Rank 256 passes through and leaves the list alone. -/
def mtfInverse : List Nat → List Nat → List Nat
  | _, [] => []
  | lst, r :: rs =>
    if r = sent then sent :: mtfInverse lst rs
    else lst.getD r 0 :: mtfInverse (moveToFront lst r) rs

/-- What both directions share: read the source, reject the first value above 256, write `L` elements. -/
def mtfBody (transform : List Nat → List Nat → List Nat) (l : Latch) (m : Memory) : Result :=
  let n := l.args.src0Len.toNat
  let xs := elems .sym16 m l.args.src0Addr.toNat n
  match firstAbove sent xs with
  | some i => .error (.badSym, i)
  | none => .ok { values := transform (l.seed.map fun b => b.toNat) xs, r0 := n, r1 := 0 }

/-- `MTF_FWD` (43_mtf.md R241). -/
def execMtfFwd (s : State) : Host.Outcome State Fault Refusal := runCommand .mtfFwd (mtfBody mtfForward) s

/-- `MTF_INV` (43_mtf.md R242). -/
def execMtfInv (s : State) : Host.Outcome State Fault Refusal := runCommand .mtfInv (mtfBody mtfInverse) s

end Sys2Proof.Machine
end

