-- ==== Sys2Proof/Machine/Bwt.lean ====
section
/-! DEFINITION. The Burrows-Wheeler transform (42_bwt.md): `BWT_FWD` and `BWT_INV`. -/

namespace Sys2Proof.Machine

/-- The first index whose entry is out of range or repeats an earlier one (42_bwt.md R221). -/
def badSaIndex (n : Nat) (sa : List Nat) : Option Nat :=
  firstBad (fun seen x => decide (n ≤ x) || seen.contains x) [] 0 sa

/-- The BWT string of a byte string and its suffix array (42_bwt.md R220, R221). -/
def bwtString (str sa : List Nat) : List Nat := sa.map fun k => if k = 0 then sent else str.getD (k - 1) 0

/-- The body of `BWT_FWD` (42_bwt.md R221). -/
def bwtFwdBody (l : Latch) (m : Memory) : Result :=
  let n := l.args.src0Len.toNat
  let count := l.args.src1Len.toNat
  let sa := elems .idx32 m l.args.src1Addr.toNat count
  match badSaIndex count sa with
  | some i => .error (.badSa, i)
  | none =>
    .ok { values := bwtString (elems .u8 m l.args.src0Addr.toNat n) sa, r0 := count, r1 := sa.idxOf 0 }

/-- `BWT_FWD` (42_bwt.md R221). -/
def execBwtFwd (s : State) : Host.Outcome State Fault Refusal := runCommand .bwtFwd bwtFwdBody s

/-- `P[c]` (42_bwt.md R222): how many elements are below `c`. `SENT` is above every byte, so it is not counted. -/
def bwtBase (t : List Nat) (c : Nat) : Nat := ((List.range c).map fun c' => t.count c').sum

/-- `rank[i]` (42_bwt.md R222): how many earlier elements equal element `i`. -/
def bwtRank (t : List Nat) (i : Nat) : Nat := (t.take i).count (t.getD i 0)

/-- The walk of 42_bwt.md R223 from position `at_`: what it emits, in order, until it meets the sentinel. It
makes at most `len(T) - 1` steps (R223), so `len(T)` is fuel enough. -/
def bwtWalk (t : List Nat) : Nat → Nat → List Nat
  | 0, _ => []
  | fuel + 1, pos =>
    if t.getD pos sent = sent then []
    else t.getD pos sent :: bwtWalk t fuel (1 + bwtBase t (t.getD pos sent) + bwtRank t pos)

/-- The body of `BWT_INV` (42_bwt.md R224). -/
def bwtInvBody (l : Latch) (m : Memory) : Result :=
  let n := l.args.src0Len.toNat
  let t := elems .sym16 m l.args.src0Addr.toNat n
  match firstAbove sent t with
  | some i => .error (.badSym, i)
  | none =>
    if t.count sent ≠ 1 then .error (.badSent, t.count sent)
    else
      let out := bwtWalk t n 0
      if out.length ≠ n - 1 then .error (.badBwt, out.length)
      else .ok { values := out.reverse, r0 := n - 1, r1 := t.idxOf sent }

/-- `BWT_INV` (42_bwt.md R224). -/
def execBwtInv (s : State) : Host.Outcome State Fault Refusal := runCommand .bwtInv bwtInvBody s

end Sys2Proof.Machine
end

