-- ==== Sys2Proof/Machine/Control.lean ====
section
/-! DEFINITION. `NOP` (40_command.md R150), and the completion of a word that is no command
(30_encoding.md R102). -/

namespace Sys2Proof.Machine

/-- The body of `NOP` (40_command.md R150): `finish(0, 0)`. -/
def nopBody (_l : Latch) (_m : Memory) : Result := .ok { values := [], r0 := 0, r1 := 0 }

/-- `NOP` (40_command.md R150). -/
def execNop (s : State) : Host.Outcome State Fault Refusal := runCommand .nop nopBody s

/-- An illegal word runs to `BADOP` (30_encoding.md R102). -/
def execIllegal (s : State) : Host.Outcome State Fault Refusal :=
  match s.seq with
  | .idle => .next s
  | .busy r => .next (completeIllegal r s)

end Sys2Proof.Machine
end

