-- ==== Sys2Proof/Machine/Huffman.lean ====
section
/-! DEFINITION. Huffman coding (44_huffman.md): `HUF_ENC` and `HUF_DEC`. Logical bits are `Bool`; in LMEM a bit
is a `BIT8` byte (20_memory.md R82). The tree, the frequency table and the codes are working state
(10_state.md R47). -/

namespace Sys2Proof.Machine

/-- `EOS`, the end-of-stream symbol (00_scope.md R12). -/
def eos : Nat := 257

/-- A Huffman tree (10_state.md R47). -/
inductive Tree where
  | leaf (sym : Nat)
  | node (left right : Tree)
deriving DecidableEq, Repr

/-- A `BIT8` byte (20_memory.md R82). -/
def bitByte (b : Bool) : Nat := if b then 1 else 0

/-! ## Encoder -/

/-- The frequency table (44_huffman.md R260). -/
def freq (s : List Nat) (v : Nat) : Nat := if v = eos then 1 else s.count v

/-- A node of the queue with its frequency and sequence number (44_huffman.md R261). -/
structure QNode where
  fr : Nat
  seq : Nat
  tree : Tree
deriving DecidableEq, Repr

/-- `(fr, seq)` compared lexicographically (44_huffman.md R261). -/
def qBefore (a b : QNode) : Bool := a.fr < b.fr || (a.fr == b.fr && a.seq < b.seq)

/-- `Q.insert` (44_huffman.md R261). The queue is kept in rising `(fr, seq)` order, so `popmin` takes its head. -/
def qInsert (x : QNode) : List QNode → List QNode
  | [] => [x]
  | y :: ys => if qBefore x y then x :: y :: ys else y :: qInsert x ys

/-- The leaves, one for each symbol with a non-zero frequency, numbered from `k` in ascending symbol order
(44_huffman.md R261). -/
def qLeaves (s : List Nat) (k : Nat) : List Nat → List QNode
  | [] => []
  | v :: vs =>
    if freq s v = 0 then qLeaves s k vs
    else { fr := freq s v, seq := k, tree := .leaf v } :: qLeaves s (k + 1) vs

/-- The merge loop of 44_huffman.md R261, `k` the next sequence number: the first node popped is the left child.
Each round removes one node, so the length of the queue is fuel enough. -/
def qMerge : Nat → Nat → List QNode → Tree
  | fuel + 1, k, a :: b :: rest => qMerge fuel (k + 1) (qInsert { fr := a.fr + b.fr, seq := k, tree := .node a.tree b.tree } rest)
  | _, _, a :: _ => a.tree
  | _, _, [] => .leaf eos

/-- `BuildTree` (44_huffman.md R261) on the frequencies of `s`. -/
def buildTree (s : List Nat) : Tree :=
  let leaves := qLeaves s 0 (List.range 258)
  qMerge leaves.length leaves.length (leaves.foldl (fun q x => qInsert x q) [])

/-- `Assign(node, path)` (44_huffman.md R262): the codes of the leaves below a node. -/
def assignCodes : Tree → List Bool → List (Nat × List Bool)
  | .leaf v, path => [(v, path)]
  | .node left right, path => assignCodes left (path ++ [false]) ++ assignCodes right (path ++ [true])

/-- `Codes(root)` (44_huffman.md R262): the lone leaf of a degenerate tree has the code `'0'`. -/
def codes (root : Tree) : List (Nat × List Bool) :=
  match root with
  | .leaf v => [(v, [false])]
  | .node left right => assignCodes (.node left right) []

/-- The code of a symbol (44_huffman.md R262). -/
def codeOf (root : Tree) (v : Nat) : List Bool := ((codes root).lookup v).getD []

/-- `bin9(v)` (44_huffman.md R263): 9 bits, the most significant first. -/
def bin9 (v : Nat) : List Bool := (List.range 9).map fun q => v / 2 ^ (8 - q) % 2 == 1

/-- `Ser(node)` (44_huffman.md R263). -/
def serialize : Tree → List Bool
  | .leaf v => true :: bin9 v
  | .node left right => false :: (serialize left ++ serialize right)

/-- The encoded bitstream (30_encoding.md R110). -/
def hufStream (s : List Nat) : List Bool :=
  let root := buildTree s
  serialize root ++ s.flatMap (codeOf root) ++ codeOf root eos

/-- The body of `HUF_ENC` (44_huffman.md R264). -/
def hufEncBody (l : Latch) (m : Memory) : Result :=
  let s := elems .sym16 m l.args.src0Addr.toNat l.args.src0Len.toNat
  match firstAbove sent s with
  | some i => .error (.badSym, i)
  | none =>
    let bits := hufStream s
    if l.args.dstCap.toNat < bits.length then .error (.capacity, bits.length)
    else .ok { values := bits.map bitByte, r0 := bits.length, r1 := (serialize (buildTree s)).length }

/-- `HUF_ENC` (44_huffman.md R264). -/
def execHufEnc (s : State) : Host.Outcome State Fault Refusal := runCommand .hufEnc hufEncBody s

/-! ## Decoder -/

/-- `Bit(j)` (44_huffman.md R265) on the bytes of the source region. -/
def bitAt (src : List Nat) (j : Nat) : Except (ErrCode × Nat) Bool :=
  match src[j]? with
  | none => .error (.trunc, j)
  | some 0 => .ok false
  | some 1 => .ok true
  | some _ => .error (.badBit, j)

/-- A leaf value: `count` bits from `pos`, the most significant first, after the value `v` read so far
(44_huffman.md R265). -/
def readValue (src : List Nat) : Nat → Nat → Nat → Except (ErrCode × Nat) Nat
  | 0, _, v => .ok v
  | count + 1, pos, v =>
    match bitAt src pos with
    | .error e => .error e
    | .ok b => readValue src count (pos + 1) (2 * v + bitByte b)

/-- What `Parse` carries through the header: the internal nodes and the leaf symbols met so far
(44_huffman.md R265). -/
structure ParseState where
  internals : Nat
  leaves : List Nat
deriving DecidableEq, Repr

/-- `Parse(pos)` (44_huffman.md R265): the node, the next position and what was met. A path holds at most 257
internal nodes before `BADHDR` ends the parse, so 258 nested calls are fuel enough; one more is the 258th
internal node, and `BADHDR`. -/
def parseTree (src : List Nat) : Nat → Nat → ParseState → Except (ErrCode × Nat) (Tree × Nat × ParseState)
  | 0, pos, _ => .error (.badHdr, pos)
  | fuel + 1, pos, st =>
    match bitAt src pos with
    | .error e => .error e
    | .ok false =>
      if 257 < st.internals + 1 then .error (.badHdr, pos)
      else
        match parseTree src fuel (pos + 1) { st with internals := st.internals + 1 } with
        | .error e => .error e
        | .ok (left, pos1, st1) =>
          match parseTree src fuel pos1 st1 with
          | .error e => .error e
          | .ok (right, pos2, st2) => .ok (.node left right, pos2, st2)
    | .ok true =>
      match readValue src 9 (pos + 1) 0 with
      | .error e => .error e
      | .ok v =>
        if eos < v ∨ v ∈ st.leaves then .error (.badHdr, pos)
        else .ok (.leaf v, pos + 10, { st with leaves := v :: st.leaves })

/-- The walk from a node to a leaf (44_huffman.md R266): the leaf's symbol and the next position. -/
def walkTree (src : List Nat) : Tree → Nat → Except (ErrCode × Nat) (Nat × Nat)
  | .leaf v, pos => .ok (v, pos)
  | .node left right, pos =>
    match bitAt src pos with
    | .error e => .error e
    | .ok false => walkTree src left (pos + 1)
    | .ok true => walkTree src right (pos + 1)

/-- One symbol of the payload (44_huffman.md R266). In a degenerate tree every code is the one bit `'0'`. -/
def decodeSymbol (src : List Nat) (root : Tree) (pos : Nat) : Except (ErrCode × Nat) (Nat × Nat) :=
  match root with
  | .leaf v =>
    match bitAt src pos with
    | .error e => .error e
    | .ok true => .error (.badCode, pos)
    | .ok false => .ok (v, pos + 1)
  | .node left right => walkTree src (.node left right) pos

/-- `Decode(root, pos)` (44_huffman.md R266), with `n` symbols emitted so far. Every symbol takes at least one
bit, so one more call than there are bits is fuel enough; after that a read is past the end. -/
def decodePayload (src : List Nat) (root : Tree) (cap : Nat) : Nat → Nat → Nat → Except (ErrCode × Nat) (List Nat × Nat)
  | 0, _, _ => .error (.trunc, src.length)
  | fuel + 1, pos, n =>
    match decodeSymbol src root pos with
    | .error e => .error e
    | .ok (v, pos1) =>
      if v = eos then .ok ([], pos1)
      else if n = cap then .error (.overflow, cap)
      else
        match decodePayload src root cap fuel pos1 (n + 1) with
        | .error e => .error e
        | .ok (vs, pos2) => .ok (v :: vs, pos2)

/-- The decoder on the bytes of the source region (44_huffman.md R267): the symbols and the bits consumed. -/
def hufDecode (src : List Nat) (cap : Nat) : Except (ErrCode × Nat) (List Nat × Nat) :=
  match parseTree src 258 0 { internals := 0, leaves := [] } with
  | .error e => .error e
  | .ok (root, pos, _) => decodePayload src root cap (src.length + 1) pos 0

/-- The body of `HUF_DEC` (44_huffman.md R267). -/
def hufDecBody (l : Latch) (m : Memory) : Result :=
  match hufDecode (elems .bit8 m l.args.src0Addr.toNat l.args.src0Len.toNat) l.args.dstCap.toNat with
  | .error e => .error e
  | .ok (out, pos) => .ok { values := out, r0 := out.length, r1 := pos }

/-- `HUF_DEC` (44_huffman.md R267). -/
def execHufDec (s : State) : Host.Outcome State Fault Refusal := runCommand .hufDec hufDecBody s

end Sys2Proof.Machine
end

