-- ==== Sys2Proof/Machine/SuffixArray.lean ====
section
/-! DEFINITION. Suffix array construction (41_suffix_array.md): the radix pass, the DC3 algorithm step by step,
and the commands `SA_BUILD` and `SA_BUILD_B`. Sequences are lists; every index read is inside its list when
R174 holds (R182), and a read past the end would give 0. -/

namespace Sys2Proof.Machine

/-! ## The radix pass -/

/-- The counter that the key `r[a + d]` selects (41_suffix_array.md R171). -/
def radixKey (r : List Int) (d : Nat) (off : Nat) (a : Nat) : Nat := (r.getD (a + d) 0 + off).toNat

/-- The tally of the keys (41_suffix_array.md R171, first loop). -/
def radixTally (key : Nat → Nat) : List Nat → List Nat → List Nat
  | c, [] => c
  | c, a :: as => radixTally key (c.modify (key a) (· + 1)) as

/-- Exclusive prefix sums (41_suffix_array.md R171, second loop). -/
def exclusiveSums (sum : Nat) : List Nat → List Nat
  | [] => []
  | c :: cs => sum :: exclusiveSums (sum + c) cs

/-- The scatter in the original order (41_suffix_array.md R171, third loop). -/
def radixScatter (key : Nat → Nat) : List Nat → List Nat → List Nat → List Nat
  | _, b, [] => b
  | c, b, a :: as => radixScatter key (c.modify (key a) (· + 1)) (b.set (c.getD (key a) 0) a) as

/-- `RadixPass(a, r, d, K, OFF)` (41_suffix_array.md R171). -/
def radixPass (a : List Nat) (r : List Int) (d k off : Nat) : List Nat :=
  let key := radixKey r d off
  let starts := exclusiveSums 0 (radixTally key (List.replicate (k + off + 1) 0) a)
  radixScatter key starts (List.replicate a.length 0) a

/-! ## DC3 -/

/-- The class-12 sample (41_suffix_array.md R176). -/
def sample12 (n n0 n1 : Nat) : List Nat := (List.range (n + (n0 - n1))).filter fun i => i % 3 != 0

/-- `TripleSort` (41_suffix_array.md R177): digit 2, then 1, then 0. -/
def tripleSort (s12 : List Nat) (x : List Int) (k off : Nat) : List Nat :=
  radixPass (radixPass (radixPass s12 x 2 k off) x 1 k off) x 0 k off

/-- The triple at a position (41_suffix_array.md R177). -/
def tripleAt (x : List Int) (i : Nat) : Int × Int × Int := (x.getD i 0, x.getD (i + 1) 0, x.getD (i + 2) 0)

/-- The slot of `R` that stands for a class-12 position (41_suffix_array.md R178). -/
def slotOf (n0 i : Nat) : Nat := if i % 3 = 1 then i / 3 else i / 3 + n0

/-- The loop of `Name` (41_suffix_array.md R178), `prev` the position before in the sorted sample. -/
def nameLoop (x : List Int) (n0 : Nat) : Option Nat → Nat → List Nat → List Nat → List Nat × Nat
  | _, name, r, [] => (r, name)
  | prev, name, r, i :: is =>
    let fresh := match prev with
      | none => true
      | some j => tripleAt x i != tripleAt x j
    let name' := if fresh then name + 1 else name
    nameLoop x n0 (some i) name' (r.set (slotOf n0 i) name') is

/-- `Name(SA12, x, n0, n02)` (41_suffix_array.md R178): the reduced sequence with its three zero pads, and how many
names there are. -/
def nameTriples (sa12 : List Nat) (x : List Int) (n0 n02 : Nat) : List Nat × Nat :=
  nameLoop x n0 none 0 (List.replicate (n02 + 3) 0) sa12

/-- Ranks from the suffix array of the reduced sequence: `R[SA12[t]] <- t + 1` (41_suffix_array.md R179). -/
def ranksFrom : Nat → List Nat → List Nat → List Nat
  | _, r, [] => r
  | t, r, k :: ks => ranksFrom (t + 1) (r.set k (t + 1)) ks

/-- The inverse of unique names: `SA12[R[t] - 1] <- t` (41_suffix_array.md R179). -/
def invertNames : Nat → List Nat → List Nat → List Nat
  | _, sa, [] => sa
  | t, sa, v :: vs => invertNames (t + 1) (sa.set (v - 1) t) vs

/-- `ClassZero` (41_suffix_array.md R180). -/
def classZero (slots : List Nat) (x : List Int) (n0 k off : Nat) : List Nat :=
  radixPass ((slots.filter fun c => c < n0).map fun c => 3 * c) x 0 k off

/-- `Pos(t)` of a slot (41_suffix_array.md R181). -/
def posOf (n0 c : Nat) : Nat := if c < n0 then 3 * c + 1 else 3 * (c - n0) + 2

/-- `<=_lex` on pairs. -/
def lePair (a b : Int × Nat) : Bool := a.1 < b.1 || (a.1 == b.1 && a.2 ≤ b.2)

/-- `<=_lex` on triples. -/
def leTriple (a b : Int × Int × Nat) : Bool := a.1 < b.1 || (a.1 == b.1 && lePair a.2 b.2)

/-- The merge comparison of the class-12 suffix at slot `c` with the class-0 suffix `j` (41_suffix_array.md R181). -/
def mergeLe (x : List Int) (r : List Nat) (n0 c j : Nat) : Bool :=
  let i := posOf n0 c
  if c < n0 then lePair (x.getD i 0, r.getD (c + n0) 0) (x.getD j 0, r.getD (j / 3) 0)
  else
    leTriple (x.getD i 0, x.getD (i + 1) 0, r.getD (c - n0 + 1) 0)
      (x.getD j 0, x.getD (j + 1) 0, r.getD (j / 3 + n0) 0)

/-- The loops of `Merge` (41_suffix_array.md R181): the class-12 slots left, the class-0 positions left. Every
round consumes one of the two, so their joint length is fuel enough. -/
def mergeLoop (x : List Int) (r : List Nat) (n0 : Nat) : Nat → List Nat → List Nat → List Nat
  | fuel + 1, c :: cs, j :: js =>
    if mergeLe x r n0 c j then posOf n0 c :: mergeLoop x r n0 fuel cs (j :: js)
    else j :: mergeLoop x r n0 fuel (c :: cs) js
  | _, cs, [] => cs.map (posOf n0)
  | _, [], js => js
  | 0, _ :: _, _ :: _ => []

/-- `Merge` (41_suffix_array.md R181): it starts past the dummy when there is one. -/
def mergeSuffixes (slots sa0 : List Nat) (r : List Nat) (x : List Int) (n0 n1 : Nat) : List Nat :=
  mergeLoop x r n0 (slots.length + sa0.length) (slots.drop (n0 - n1)) sa0

/-- `dc3(x, n, K, OFF)` (41_suffix_array.md R172), with the `Rank` step of R179 in its body. Every recursive
call is on fewer symbols (R183), so `n` is fuel enough. -/
def dc3 : Nat → List Int → Nat → Nat → Nat → List Nat
  | 0, _, _, _, _ => []
  | fuel + 1, x, n, k, off =>
    if n = 0 then []
    else if n = 1 then [0]
    else
      let n0 := (n + 2) / 3
      let n1 := (n + 1) / 3
      let n02 := n0 + n / 3
      let sorted := tripleSort (sample12 n n0 n1) x k off
      let (names, count) := nameTriples sorted x n0 n02
      let slots :=
        if count < n02 then dc3 fuel (names.map Int.ofNat) n02 count 0
        else invertNames 0 (List.replicate n02 0) (names.take n02)
      let ranks := if count < n02 then ranksFrom 0 names slots else names
      mergeSuffixes slots (classZero slots x n0 k off) ranks x n0 n1

/-! ## Commands -/

/-- The first index in `[-OFFSET, K]`'s complement (41_suffix_array.md R184). -/
def badKeyIndex (x : List Int) (k off : Nat) : Option Nat :=
  firstBad (fun _ v => decide (v < -(off : Int)) || decide ((k : Int) < v)) [] 0 x

/-- The pad checks of `SA_BUILD` in their order (41_suffix_array.md R184): the second and third pad slot equal the
first, then every real symbol is above the pad. -/
def badPadIndex (x : List Int) (n : Nat) : Option Nat :=
  let p := x.getD n 0
  if x.getD (n + 1) 0 ≠ p then some (n + 1)
  else if x.getD (n + 2) 0 ≠ p then some (n + 2)
  else firstBad (fun _ v => decide (v ≤ p)) [] 0 (x.take n)

/-- The `PutElem` values of a suffix array: entries `0 .. n-1` (41_suffix_array.md R184, R185). -/
def saValues (sa : List Nat) (n : Nat) : List Nat := (List.range n).map fun t => sa.getD t 0

/-- The body of `SA_BUILD` (41_suffix_array.md R184). -/
def saBuildBody (l : Latch) (m : Memory) : Result :=
  let n := l.args.src0Len.toNat
  let k := l.args.arg0.toNat
  let off := l.args.arg1.toNat
  let x := (List.range (n + 3)).map (elemI32 m l.args.src0Addr.toNat)
  match badKeyIndex x k off with
  | some i => .error (.badSym, i)
  | none =>
    match badPadIndex x n with
    | some i => .error (.badPad, i)
    | none => .ok { values := saValues (dc3 n x n k off) n, r0 := n, r1 := 0 }

/-- `SA_BUILD` (41_suffix_array.md R184). -/
def execSaBuild (s : State) : Host.Outcome State Fault Refusal := runCommand .saBuild saBuildBody s

/-- The sequence that `SA_BUILD_B` sorts (41_suffix_array.md R185): the bytes, the BWT sentinel, three pads. -/
def sentinelFramed (str : List Nat) : List Int := str.map Int.ofNat ++ [-1, -2, -2, -2]

/-- The suffix array of a byte string with its BWT sentinel (41_suffix_array.md R185). -/
def byteSuffixArray (str : List Nat) : List Nat :=
  dc3 (str.length + 1) (sentinelFramed str) (str.length + 1) 255 2

/-- The body of `SA_BUILD_B` (41_suffix_array.md R185). -/
def saBuildBBody (l : Latch) (m : Memory) : Result :=
  let n := l.args.src0Len.toNat
  let str := elems .u8 m l.args.src0Addr.toNat n
  .ok { values := saValues (byteSuffixArray str) (n + 1), r0 := n + 1, r1 := 0 }

/-- `SA_BUILD_B` (41_suffix_array.md R185). -/
def execSaBuildB (s : State) : Host.Outcome State Fault Refusal := runCommand .saBuildB saBuildBBody s

end Sys2Proof.Machine
end

