-- ==== Sys2Proof/Machine/HostPort.lean ====
section
/-! DEFINITION. The host port (20_memory.md section 1): the address map, the CSR file of 10_state.md R21 to R44,
the LMEM aperture, and host accesses to a running command's regions (70_reset_and_hazards.md R366 to R369). -/

namespace Sys2Proof.Machine

/-- The CSRs by name (10_state.md R21). -/
inductive Csr where
  | id | cfgLmemBytes | cfgMaxN | cfgMaxAlpha | ctrl | cmd | status | irqEn | irqStatus | errInfo | result0 | result1
  | src0Addr | src0Len | src1Addr | src1Len | dstAddr | dstCap | arg0 | arg1
  | mtfSeed (w : Fin 64)
deriving DecidableEq, Repr

/-- The CSR at an aligned offset of the window; `none` is a reserved offset (10_state.md R21, R44). -/
def csrAt (o : Nat) : Option Csr :=
  match o with
  | 0x000 => some .id
  | 0x004 => some .cfgLmemBytes
  | 0x008 => some .cfgMaxN
  | 0x00C => some .cfgMaxAlpha
  | 0x010 => some .ctrl
  | 0x014 => some .cmd
  | 0x018 => some .status
  | 0x01C => some .irqEn
  | 0x020 => some .irqStatus
  | 0x024 => some .errInfo
  | 0x028 => some .result0
  | 0x02C => some .result1
  | 0x030 => some .src0Addr
  | 0x034 => some .src0Len
  | 0x038 => some .src1Addr
  | 0x03C => some .src1Len
  | 0x040 => some .dstAddr
  | 0x044 => some .dstCap
  | 0x048 => some .arg0
  | 0x04C => some .arg1
  | _ => if 0x100 ≤ o ∧ o < 0x200 then some (.mtfSeed (Fin.ofNat 64 ((o - 0x100) / 4))) else none

/-- The value of `ID` (10_state.md R23). -/
def idValue : Word := 0x5A500100#32

/-- What a host read of a CSR returns (10_state.md R23 to R43). No read has a side effect (92_eei_decisions.md D5). -/
def readCsr (s : State) (c : Csr) : Word :=
  match c with
  | .id => idValue
  | .cfgLmemBytes => BitVec.ofNat 32 s.params.lmemBytes
  | .cfgMaxN => BitVec.ofNat 32 s.params.maxN
  | .cfgMaxAlpha => BitVec.ofNat 32 s.params.maxAlpha
  | .ctrl => 0
  | .cmd => s.cmd
  | .status => s.status
  | .irqEn => s.irqEnWord
  | .irqStatus => s.irqStatusWord
  | .errInfo => s.errInfo
  | .result0 => s.result0
  | .result1 => s.result1
  | .src0Addr => s.args.src0Addr
  | .src0Len => s.args.src0Len
  | .src1Addr => s.args.src1Addr
  | .src1Len => s.args.src1Len
  | .dstAddr => s.args.dstAddr
  | .dstCap => s.args.dstCap
  | .arg0 => s.args.arg0
  | .arg1 => s.args.arg1
  | .mtfSeed w => s.mtfSeed[w.val]

/-- A write to `CMD` (10_state.md R28): accepted when idle (40_command.md R141), dropped when busy (R142). -/
def writeCmd (v : Word) (s : State) : State :=
  match s.seq with
  | .idle => accept v s
  | .busy _ => dropCommand s

/-- A write to `CTRL` (10_state.md R27): `SOFT_RESET` in bit 0 wins over `ABORT` in bit 1. -/
def writeCtrl (v : Word) (s : State) : State :=
  if v.getLsbD 0 then softReset s else if v.getLsbD 1 then abort s else s

/-- A write to an argument register (10_state.md R35 to R42): all 32 bits are stored. -/
def writeArgs (f : Args → Args) (s : State) : State := { s with args := f s.args }

/-- A write to `MTF_SEED<w>` (10_state.md R43). -/
def writeSeed (w : Fin 64) (v : Word) (s : State) : State := { s with mtfSeed := s.mtfSeed.set w.val v }

/-- What a host write to a CSR does (10_state.md R23 to R43, R51). -/
def writeCsr (c : Csr) (v : Word) (s : State) : State :=
  match c with
  | .id => s
  | .cfgLmemBytes => s
  | .cfgMaxN => s
  | .cfgMaxAlpha => s
  | .ctrl => writeCtrl v s
  | .cmd => writeCmd v s
  | .status => s
  | .irqEn => writeIrqEn v s
  | .irqStatus => writeIrqStatus v s
  | .errInfo => s
  | .result0 => s
  | .result1 => s
  | .src0Addr => writeArgs (fun a => { a with src0Addr := v }) s
  | .src0Len => writeArgs (fun a => { a with src0Len := v }) s
  | .src1Addr => writeArgs (fun a => { a with src1Addr := v }) s
  | .src1Len => writeArgs (fun a => { a with src1Len := v }) s
  | .dstAddr => writeArgs (fun a => { a with dstAddr := v }) s
  | .dstCap => writeArgs (fun a => { a with dstCap := v }) s
  | .arg0 => writeArgs (fun a => { a with arg0 := v }) s
  | .arg1 => writeArgs (fun a => { a with arg1 := v }) s
  | .mtfSeed w => writeSeed w v s

/-- The host address of LMEM offset 0 (20_memory.md R71). -/
def apertureBase : Nat := 0x01000000

/-- What an access reaches (20_memory.md R71 to R74). -/
inductive Target where
  /-- An aligned word access to a CSR. -/
  | csr (c : Csr)
  /-- A naturally aligned access to LMEM at an offset. -/
  | lmem (o : Nat)
  /-- Unmapped, straddling, misaligned, of a wrong width, or reserved: reads 0, writes are ignored. -/
  | nothing
deriving DecidableEq, Repr

/-- The address map (20_memory.md R71 to R74), computed without wrap-around. -/
def target (p : Params) (a : Word) (n : AccessSize) : Target :=
  let lo := a.toNat
  let hi := lo + accessBytes n
  if hi ≤ 0x1000 then
    if n = .word ∧ lo % 4 = 0 then
      match csrAt lo with
      | some c => .csr c
      | none => .nothing
    else .nothing
  else if apertureBase ≤ lo ∧ hi ≤ apertureBase + p.lmemBytes then
    if lo % accessBytes n = 0 then .lmem (lo - apertureBase) else .nothing
  else .nothing

/-- The offsets of `n` bytes from `o`. -/
def byteOffsets (o n : Nat) : List Nat := (List.range n).map (o + ·)

/-- The value of `n` LMEM bytes from `o` as the host reads it while the command of `l` runs: a byte of its `DST`
is a free value of its own, drawn from number `d` on (70_reset_and_hazards.md R367). -/
def readWhileBusy (l : Latch) (m : Memory) (d : Nat) (o : Nat) : Nat → Nat
  | 0 => 0
  | n + 1 =>
    (if inLatchedDst l o then Config.freeByte d else m.read o).toNat + 256 * readWhileBusy l m (d + 1) (o + 1) n

/-- A host read of LMEM (20_memory.md R74, 70_reset_and_hazards.md R367). -/
def hostReadLmem (o n : Nat) (s : State) : State :=
  match s.seq with
  | .idle => { s with rdata := BitVec.ofNat 32 (memRead s.lmem o n) }
  | .busy r => { s with rdata := BitVec.ofNat 32 (readWhileBusy r.latch s.lmem s.draws o n), draws := s.draws + n }

/-- What a running command remembers of a host write to the listed offsets (70_reset_and_hazards.md R366, R367). -/
def noteHostWrite (os : List Nat) (r : Running) : Running :=
  { r with
    srcTouched := r.srcTouched || os.any (inLatchedSrc r.latch)
    dstTouched := (os.filter (inLatchedDst r.latch)).foldl (fun t o => if o ∈ t then t else o :: t) r.dstTouched }

/-- A host write to LMEM (20_memory.md R74). It takes effect at once, also while a command runs, whose hazard
record then notes it (70_reset_and_hazards.md R366 to R368). -/
def hostWriteLmem (o n : Nat) (v : Word) (s : State) : State :=
  { s with
    lmem := memWrite s.lmem o n v.toNat
    seq := match s.seq with
      | .idle => .idle
      | .busy r => .busy (noteHostWrite (byteOffsets o n) r) }

/-- `HostRead(a, n)` (20_memory.md R70): the value returned is left in `rdata`. -/
def hostRead (a : Word) (n : AccessSize) (s : State) : State :=
  match target s.params a n with
  | .csr c => { s with rdata := readCsr s c }
  | .lmem o => hostReadLmem o (accessBytes n) s
  | .nothing => { s with rdata := 0 }

/-- `HostWrite(a, n, v)` (20_memory.md R70). -/
def hostWrite (a : Word) (n : AccessSize) (v : Word) (s : State) : State :=
  match target s.params a n with
  | .csr c => writeCsr c v s
  | .lmem o => hostWriteLmem o (accessBytes n) v s
  | .nothing => s

/-- One host transaction (20_memory.md R70, R89). -/
def hostAccess (t : Transaction) (s : State) : State :=
  match t with
  | .read a n => hostRead a n s
  | .write a n v => hostWrite a n v s

end Sys2Proof.Machine
end

