-- ==== Sys2Proof/Machine/Step.lean ====
section
/-! DEFINITION. One atomic step of the machine (00_scope.md R11). The agenda says which agent moves next (log 3):
the host, the reset input, or the command engine. With an empty agenda the engine moves: a running command
completes (70_reset_and_hazards.md R371, fairness) and an idle block does nothing (60_exceptions.md R336). -/

namespace Sys2Proof.Machine

/-- The completion step of the running command (40_command.md R143): the latched word is decoded and its rule
runs. With no command running the block does nothing (60_exceptions.md R336). -/
def engineStep (s : State) : Host.Outcome State Fault Refusal :=
  match s.seq with
  | .idle => .next s
  | .busy r =>
    match decode r.latch.cmd with
    | .ok i => exec i s
    | .error _ => execIllegal s

/-- The event that comes next, taken off the agenda. -/
def stepEvent (e : Event) (s : State) : Host.Outcome State Fault Refusal :=
  match e with
  | .access t => .next (hostAccess t s)
  | .complete => engineStep s
  | .hardReset cells => .next (hardResetTo cells s)

/-- One step. -/
def step (s : State) : Host.Outcome State Fault Refusal :=
  match s.agenda with
  | [] => engineStep s
  | e :: rest => stepEvent e { s with agenda := rest }

/-- The state in which the command of the word `w` has been accepted from the live argument registers
(40_command.md R141) and the engine moves next, so that the next step is that command's completion (log 9). -/
def State.withFetchWord (s : State) (nbits w : Nat) : State :=
  { accept (BitVec.ofNat 32 (w % 2 ^ nbits)) s with agenda := .complete :: s.agenda }

end Sys2Proof.Machine
end

