-- ==== Sys2Proof/Machine/Script.lean ====
section
/-! DEFINITION. Host scripts (30_encoding.md R112 to R114): each statement is a sequence of bus transactions,
put on the agenda in order. A `wait` reads `STATUS` until it finds the block idle: some reads find it busy (how
many is open, R114), then the engine completes the command, and one read finds `BUSY = 0`. -/

namespace Sys2Proof.Machine

/-- `HostWrite(reg, 4, v)` (30_encoding.md R112, `wr`). -/
def wrEvent (reg v : Word) : Event := .access (.write reg .word v)

/-- The offsets of `CMD`, `STATUS` and `IRQ_STATUS` (10_state.md R21). -/
def cmdOffset : Word := 0x014#32
def statusOffset : Word := 0x018#32
def irqStatusOffset : Word := 0x020#32

/-- The writes of `wrb`, `wrh` and `wrw` (30_encoding.md R112). -/
def wrMemEvents (n : AccessSize) : Nat → List Word → List Event
  | _, [] => []
  | a, v :: vs => .access (.write (BitVec.ofNat 32 a) n v) :: wrMemEvents n (a + accessBytes n) vs

/-- The reads of `rdb`, `rdh` and `rdw` (30_encoding.md R112). -/
def rdMemEvents (n : AccessSize) (a : Nat) : Nat → List Event
  | 0 => []
  | count + 1 => .access (.read (BitVec.ofNat 32 a) n) :: rdMemEvents n (a + accessBytes n) count

/-- A `wait` (30_encoding.md R112, R114). -/
def waitEvents (busyReads : Nat) : List Event :=
  List.replicate busyReads (.access (.read statusOffset .word)) ++ [.complete, .access (.read statusOffset .word)]

/-- The register writes of a `run`, in the fixed key order (30_encoding.md R113); a key not given writes nothing. -/
def runKeyEvents (k : RunKeys) : List Event :=
  ([ (0x030#32, k.src0), (0x034#32, k.len0), (0x038#32, k.src1), (0x03C#32, k.len1),
     (0x040#32, k.dst), (0x044#32, k.cap), (0x048#32, k.arg0), (0x04C#32, k.arg1) ] : List (Word × Option Word)).filterMap
    fun e => e.2.map (wrEvent e.1)

/-- The expansion of a statement (30_encoding.md R112, R113). DESIGN CHOICE (log 13): the engine has a slot only inside a
`wait`. A command that completes between two other transactions, which 40_command.md R143 allows as well, is an agenda
with a `.complete` there. -/
def expandStmt (st : Stmt) : List Event :=
  match st with
  | .wr reg v => [wrEvent reg v]
  | .rd reg => [.access (.read reg .word)]
  | .wrMem n off vs => wrMemEvents n (apertureBase + off.toNat) vs
  | .rdMem n off count => rdMemEvents n (apertureBase + off.toNat) count
  | .cmd i => [wrEvent cmdOffset (encode i)]
  | .cmdRaw w => [wrEvent cmdOffset w]
  | .wait busyReads => waitEvents busyReads
  | .run i keys busyReads => runKeyEvents keys ++ [wrEvent cmdOffset (encode i)] ++ waitEvents busyReads
  | .clrirq => [wrEvent irqStatusOffset 1]

/-- The encoding of a host script: its sequence of bus transactions (30_encoding.md R114). -/
def expandScript (sts : List Stmt) : List Event := sts.flatMap expandStmt

/-- A state in which the host is about to run a script, after whatever it was about to do. -/
def withScript (sts : List Stmt) (s : State) : State := { s with agenda := s.agenda ++ expandScript sts }

end Sys2Proof.Machine
end

