-- ==== Sys2Proof/Safety.lean ====
section
/-! DEFINITION. The words the claims use: the invariant of the block, when a command runs undisturbed, what a
successful and a failed completion leave, where a command's regions lie, and what a suffix array is. -/

namespace Sys2Proof.Machine

/-! ## The invariant -/

/-- What every state the block can be in satisfies: the parameters are legal (00_scope.md R5); LMEM is in its
canonical form inside its size (20_memory.md R76); `ERR = 1` iff `ERRCODE != 0`, and `BUSY = 1` implies that
`DONE`, `ERR` and `ERRCODE` are 0 (10_state.md R29), as are the results (70_reset_and_hazards.md R369); an
error code is one of those of 60_exceptions.md R321; while busy, `CMD` is the latched word (10_state.md R28),
the seed copy is there just for the MTF opcodes (10_state.md R45), and the host writes that are remembered lie
in `DST` and in LMEM. -/
structure State.Inv (s : State) : Prop where
  paramsOk : s.params.wellFormed = true
  lmemCanonical : s.lmem.wf = true
  lmemWithin : s.lmem.within s.params.lmemBytes = true
  errIffCode : s.err = true ↔ s.errCode ≠ 0
  codeListed : s.errCode = 0 ∨ ∃ e : ErrCode, s.errCode = errCodeByte e
  errDone : s.err = true → s.done = true
  busyClear : ∀ r, s.seq = .busy r →
    s.done = false ∧ s.err = false ∧ s.result0 = 0 ∧ s.result1 = 0 ∧ s.errInfo = 0
  busyCmd : ∀ r, s.seq = .busy r → s.cmd = r.latch.cmd
  busySeed : ∀ r, s.seq = .busy r →
    r.latch.seed.length = if r.latch.cmd.extractLsb' 0 8 = 5 ∨ r.latch.cmd.extractLsb' 0 8 = 6 then 256 else 0
  busyTouched : ∀ r, s.seq = .busy r → ∀ o ∈ r.dstTouched, inLatchedDst r.latch o = true ∧ o < s.params.lmemBytes

/-! ## Commands that run undisturbed -/

/-- The rule of each command without its `PreCheck` (40_command.md R144): what its meaning runs. -/
def commandBody (i : Instr) : Latch → Memory → Result :=
  match i with
  | .nop => nopBody
  | .saBuild => saBuildBody
  | .saBuildB => saBuildBBody
  | .bwtFwd => bwtFwdBody
  | .bwtInv => bwtInvBody
  | .mtfFwd => mtfBody mtfForward
  | .mtfInv => mtfBody mtfInverse
  | .hufEnc => hufEncBody
  | .hufDec => hufDecBody
  | .pack => packBody
  | .unpack => unpackBody

/-- The command `i` is running as `r`, and the host has written none of its source or `DST` bytes since
acceptance (no hazard of 70_reset_and_hazards.md R366, R367). -/
abbrev Undisturbed (i : Instr) (s : State) (r : Running) : Prop :=
  s.seq = .busy r ∧ r.latch.cmd = encode i ∧ r.srcTouched = false ∧ r.dstTouched = []

/-- The alignment and range conditions on a region (20_memory.md R84, R85, R87). -/
abbrev RegionFits (p : Params) (g : Region) : Prop :=
  g.bytes = 0 ∨ (g.addr % fmtSize g.fmt = 0 ∧ g.addr + g.bytes ≤ p.lmemBytes)

/-- Two regions do not overlap (20_memory.md R86, R87). -/
abbrev RegionsApart (g h : Region) : Prop :=
  g.bytes = 0 ∨ h.bytes = 0 ∨ g.addr + g.bytes ≤ h.addr ∨ h.addr + h.bytes ≤ g.addr

/-- The `DST` region in the format `f` (20_memory.md R83). -/
abbrev dstIn (f : Fmt) (a : Args) : Region := ⟨f, a.dstAddr.toNat, a.dstCap.toNat * fmtSize f⟩

/-- The conditions of 40_command.md R147 steps 4 and 5 on a command with the one source `src`. -/
abbrev RegionsOk (p : Params) (src dst : Region) : Prop :=
  RegionFits p src ∧ RegionFits p dst ∧ RegionsApart dst src

/-- The conditions of 40_command.md R147 steps 4 and 5 on `BWT_FWD`, which has two sources. -/
abbrev RegionsOk2 (p : Params) (src0 src1 dst : Region) : Prop :=
  RegionFits p src0 ∧ RegionFits p src1 ∧ RegionFits p dst ∧ RegionsApart dst src0 ∧ RegionsApart dst src1

/-- `t` is `s` after a successful completion with the results `r0` and `r1` (40_command.md R145); only LMEM is
left to be said. -/
def Succeeded (s t : State) (r0 r1 : Nat) : Prop :=
  t = { s with
    result0 := BitVec.ofNat 32 r0, result1 := BitVec.ofNat 32 r1, errInfo := 0, errCode := 0, err := false,
    done := true, doneIP := true, seq := .idle, lmem := t.lmem }

/-- `t` is `s` after an error completion (40_command.md R146); LMEM, and the count of free values used for it,
are left to be said. -/
def Failed (s t : State) (code : Byte) (info : Nat) : Prop :=
  t = { s with
    result0 := 0, result1 := 0, errInfo := BitVec.ofNat 32 info, errCode := code, err := true,
    done := true, doneIP := true, seq := .idle, lmem := t.lmem, draws := t.draws }

/-- LMEM outside the bytes `[base, base + n)` reads the same in both. -/
def SameOutside (m m' : Memory) (base n : Nat) : Prop :=
  ∀ o, (o < base ∨ base + n ≤ o) → m'.read o = m.read o

/-- The elements `0 .. values.length - 1` of a destination hold the values, each in the low bytes that its format
has (20_memory.md R77), and no other byte changed (40_command.md R149). -/
def Wrote (m m' : Memory) (f : Fmt) (base : Nat) (values : List Nat) : Prop :=
  (∀ i, i < values.length → elem f m' base i = values.getD i 0 % 256 ^ fmtSize f) ∧
    SameOutside m m' base (fmtSize f * values.length)

/-! ## Sequences -/

/-- `sa` is the suffix array of `x` (41_suffix_array.md R170): a permutation of `[0, n)` that lists the suffixes
in strictly ascending lexicographic order, a proper prefix being smaller. -/
def IsSuffixArray (x : List Int) (sa : List Nat) : Prop :=
  sa.Perm (List.range x.length) ∧ sa.Pairwise fun i j => x.drop i < x.drop j

/-- The precondition of `dc3(x, n, K, OFF)` (41_suffix_array.md R174). -/
abbrev Dc3Pre (x : List Int) (n k off : Nat) : Prop :=
  x.length = n + 3 ∧ (∀ v ∈ x, -(off : Int) ≤ v ∧ v ≤ k) ∧
    x.getD (n + 1) 0 = x.getD n 0 ∧ x.getD (n + 2) 0 = x.getD n 0 ∧ ∀ i < n, x.getD n 0 < x.getD i 0

/-- A recency list (43_mtf.md R240): a permutation of the byte values. -/
abbrev IsRecencyList (lst : List Nat) : Prop := lst.Perm (List.range 256)

/-- The leaf symbols of a tree, left to right. -/
def treeSymbols : Tree → List Nat
  | .leaf v => [v]
  | .node left right => treeSymbols left ++ treeSymbols right

/-- Each leaf's symbol with the path that leads to it, left to right: `false` to the left child, `true` to the right
(44_huffman.md R262). -/
def leafPaths : Tree → List (Nat × List Bool)
  | .leaf v => [(v, [])]
  | .node left right =>
    (leafPaths left).map (fun c => (c.1, false :: c.2)) ++ (leafPaths right).map fun c => (c.1, true :: c.2)

/-- `x` leaves the queue before `y` (44_huffman.md R261): its pair `(fr, seq)` is less. -/
def QNode.PopsBefore (x y : QNode) : Prop := x.fr < y.fr ∨ x.fr = y.fr ∧ x.seq < y.seq

/-- `MergesTo k q t`: the merge loop of 44_huffman.md R261 on a queue that holds the nodes `q`, in any order, with `k`
the next sequence number, ends with the tree `t`. -/
inductive MergesTo : Nat → List QNode → Tree → Prop where
  /-- One node is left: it is the root. -/
  | root (k : Nat) (x : QNode) : MergesTo k [x] x.tree
  /-- `a` is popped first and `b` second; they become the left and the right child of a new node. -/
  | merge (k : Nat) (q : List QNode) (a b : QNode) (rest : List QNode) (t : Tree) (holds : q.Perm (a :: b :: rest))
      (first : ∀ x ∈ b :: rest, a.PopsBefore x) (second : ∀ x ∈ rest, b.PopsBefore x)
      (next : MergesTo (k + 1) (⟨a.fr + b.fr, k, .node a.tree b.tree⟩ :: rest) t) : MergesTo k q t

end Sys2Proof.Machine
end

