-- ==== Sys2Proof/Certificates/Slice0/Obligations.lean ====
section
/-! DEFINITION. The statements for the provers: what the spec's numbered rules say the block does. `Undisturbed`,
`RegionsOk`, `Succeeded`, `Failed`, `Wrote` and `SameOutside` are in Sys2Proof/Safety.lean. -/

open Sys2Proof Sys2Proof.Machine

/-! ## Encoding, acceptance and the step -/

/-- 30_encoding.md R103: the decoder reads every command's own word back, with no bit of it dropped. -/
def Obligations.DecodeReadsEveryCommandBack : Prop := ∀ i : Instr, i.wellFormed = true ∧ decode (encode i) = .ok i

/-- 30_encoding.md R100 to R103: no other word is a command, and the words refused are exactly those with a bit of
`RSVD` set or an opcode above `0x0A`. -/
def Obligations.OnlyOpcodeMapWordsDecode : Prop :=
  (∀ (w : Word) (i : Instr), decode w = .ok i → w = encode i) ∧
  ∀ w : Word, (∃ e, decode w = .error e) ↔ (w.extractLsb' 8 24 ≠ 0 ∨ 0x0A < (w.extractLsb' 0 8).toNat)

/-- 30_encoding.md R101: the eleven words of the opcode map, written out, decode to their commands. -/
def Obligations.OpcodeMapWordsDecodeToTheirCommands : Prop :=
  decode 0x00000000#32 = .ok .nop ∧ decode 0x00000001#32 = .ok .saBuild ∧ decode 0x00000002#32 = .ok .saBuildB ∧
  decode 0x00000003#32 = .ok .bwtFwd ∧ decode 0x00000004#32 = .ok .bwtInv ∧ decode 0x00000005#32 = .ok .mtfFwd ∧
  decode 0x00000006#32 = .ok .mtfInv ∧ decode 0x00000007#32 = .ok .hufEnc ∧ decode 0x00000008#32 = .ok .hufDec ∧
  decode 0x00000009#32 = .ok .pack ∧ decode 0x0000000A#32 = .ok .unpack

/-- 40_command.md R143, R144: when the engine moves and the latched word is a command, the step is that command's
`exec`: at once with an empty agenda, and after taking the slot off the agenda otherwise. The agenda is the
model's (log 3). -/
def Obligations.StepRunsTheLatchedCommand : Prop :=
  ∀ (s : State) (r : Running) (i : Instr), s.seq = .busy r → decode r.latch.cmd = .ok i → i.wellFormed = true →
    (s.agenda = [] → step s = exec i s) ∧
    ∀ rest, s.agenda = .complete :: rest → step s = exec i { s with agenda := rest }

/-- 30_encoding.md R102: an illegal word is accepted like any other, `CMD` reads it back, and it completes with
`BADOP` and the word in `ERR_INFO`, LMEM unchanged. -/
def Obligations.IllegalWordCompletesWithBadop : Prop :=
  ∀ (s : State) (w : Word) (rest : List Event), s.seq = .idle →
    s.agenda = .access (.write 0x014#32 .word w) :: rest →
    (0x0B ≤ (w.extractLsb' 0 8).toNat ∨ w.extractLsb' 8 24 ≠ 0) →
    ∃ t, step s = .next t ∧ t.busy = true ∧ readCsr t .cmd = w ∧
      ∃ u, engineStep t = .next u ∧ Failed t u 0x01 w.toNat ∧ u.lmem = s.lmem

/-- 40_command.md R141: acceptance of any word latches the operands, clears the record and starts the command;
nothing else changes, `DONE_IP` among the rest. -/
def Obligations.AcceptanceLatchesTheOperands : Prop :=
  ∀ (s : State) (w : Word) (rest : List Event), s.seq = .idle →
    s.agenda = .access (.write 0x014#32 .word w) :: rest →
    step s = .next { s with
      agenda := rest
      cmd := w
      done := false, err := false, drop := false, errCode := 0, result0 := 0, result1 := 0, errInfo := 0
      seq := .busy
        { latch :=
            { cmd := w
              args := s.args
              seed := if w.extractLsb' 0 8 = 0x05 ∨ w.extractLsb' 0 8 = 0x06 then seedTable s.mtfSeed else [] }
          srcTouched := false
          dstTouched := [] } }

/-- 40_command.md R142: a `CMD` write while a command runs sets `DROP` and changes nothing else. -/
def Obligations.CommandWriteWhileBusyIsDropped : Prop :=
  ∀ (s : State) (r : Running) (w : Word) (rest : List Event), s.seq = .busy r →
    s.agenda = .access (.write 0x014#32 .word w) :: rest →
    step s = .next { s with agenda := rest, drop := true }

/-! ## What each command does when its conditions hold -/

/-- 40_command.md R150: `NOP` completes successfully with both results 0 and touches no memory. -/
def Obligations.NopCompletes : Prop :=
  ∀ (s : State) (r : Running), Undisturbed .nop s r →
    ∃ t, exec .nop s = .next t ∧ Succeeded s t 0 0 ∧ t.lmem = s.lmem

/-- 41_suffix_array.md R184: with `x` the `n + 3` keys and pads of `SRC0` that meet R174, `SA_BUILD` writes the `n`
entries that `dc3` gives. -/
def Obligations.SaBuildCompletes : Prop :=
  ∀ (s : State) (r : Running), Undisturbed .saBuild s r → s.lmem.wf = true →
    let a := r.latch.args
    let n := a.src0Len.toNat
    let x := (List.range (n + 3)).map (elemI32 s.lmem a.src0Addr.toNat)
    n ≤ s.params.maxN → a.arg0.toNat + a.arg1.toNat + 1 ≤ s.params.maxAlpha →
    RegionsOk s.params ⟨.i32, a.src0Addr.toNat, 4 * (n + 3)⟩ (dstIn .idx32 a) → n ≤ a.dstCap.toNat →
    Dc3Pre x n a.arg0.toNat a.arg1.toNat →
    ∃ t, exec .saBuild s = .next t ∧ Succeeded s t n 0 ∧
      Wrote s.lmem t.lmem .idx32 a.dstAddr.toNat
        ((List.range n).map fun k => (dc3 n x n a.arg0.toNat a.arg1.toNat).getD k 0)

/-- 41_suffix_array.md R185: `SA_BUILD_B` frames the bytes with `-1, -2, -2, -2` and writes the `n + 1` entries that
`dc3` gives for the alphabet `[-2, 255]`. -/
def Obligations.SaBuildBCompletes : Prop :=
  ∀ (s : State) (r : Running), Undisturbed .saBuildB s r → s.lmem.wf = true →
    let a := r.latch.args
    let n := a.src0Len.toNat
    let x := (List.range n).map (fun k => ((s.lmem.read (a.src0Addr.toNat + k)).toNat : Int)) ++ [-1, -2, -2, -2]
    n + 1 ≤ s.params.maxN →
    RegionsOk s.params ⟨.u8, a.src0Addr.toNat, n⟩ (dstIn .idx32 a) → n + 1 ≤ a.dstCap.toNat →
    ∃ t, exec .saBuildB s = .next t ∧ Succeeded s t (n + 1) 0 ∧
      Wrote s.lmem t.lmem .idx32 a.dstAddr.toNat
        ((List.range (n + 1)).map fun k => (dc3 (n + 1) x (n + 1) 255 2).getD k 0)

/-- 42_bwt.md R221: with a permutation of `[0, N)` in `SRC1`, `BWT_FWD` writes the symbol before each listed suffix,
`SENT` where the entry is 0, and reports the primary index. -/
def Obligations.BwtFwdCompletes : Prop :=
  ∀ (s : State) (r : Running), Undisturbed .bwtFwd s r → s.lmem.wf = true →
    let a := r.latch.args
    let n := a.src0Len.toNat
    let sa := elems .idx32 s.lmem a.src1Addr.toNat (n + 1)
    a.src1Len.toNat = n + 1 → n + 1 ≤ s.params.maxN →
    RegionsOk2 s.params ⟨.u8, a.src0Addr.toNat, n⟩ ⟨.idx32, a.src1Addr.toNat, 4 * (n + 1)⟩ (dstIn .sym16 a) →
    n + 1 ≤ a.dstCap.toNat → sa.Perm (List.range (n + 1)) →
    ∃ t, exec .bwtFwd s = .next t ∧ Succeeded s t (n + 1) (sa.idxOf 0) ∧
      Wrote s.lmem t.lmem .sym16 a.dstAddr.toNat
        (sa.map fun k => if k = 0 then 256 else (s.lmem.read (a.src0Addr.toNat + (k - 1))).toNat)

/-- 42_bwt.md R224: with symbols up to 256, exactly one `SENT`, and a walk that covers every position, `BWT_INV`
writes the walk reversed and reports where the sentinel stood. -/
def Obligations.BwtInvCompletes : Prop :=
  ∀ (s : State) (r : Running), Undisturbed .bwtInv s r → s.lmem.wf = true →
    let a := r.latch.args
    let n := a.src0Len.toNat
    let x := elems .sym16 s.lmem a.src0Addr.toNat n
    n ≤ s.params.maxN →
    RegionsOk s.params ⟨.sym16, a.src0Addr.toNat, 2 * n⟩ (dstIn .u8 a) → n - 1 ≤ a.dstCap.toNat →
    (∀ v ∈ x, v ≤ 256) → x.count 256 = 1 → (bwtWalk x n 0).length = n - 1 →
    ∃ t, exec .bwtInv s = .next t ∧ Succeeded s t (n - 1) (x.idxOf 256) ∧
      Wrote s.lmem t.lmem .u8 a.dstAddr.toNat (bwtWalk x n 0).reverse

/-- 43_mtf.md R241: with a seed that is a permutation of the bytes and symbols up to 256, `MTF_FWD` writes the ranks. -/
def Obligations.MtfFwdCompletes : Prop :=
  ∀ (s : State) (r : Running), Undisturbed .mtfFwd s r → s.lmem.wf = true →
    let a := r.latch.args
    let n := a.src0Len.toNat
    let x := elems .sym16 s.lmem a.src0Addr.toNat n
    let seed := r.latch.seed.map fun b => b.toNat
    RegionsOk s.params ⟨.sym16, a.src0Addr.toNat, 2 * n⟩ (dstIn .sym16 a) → n ≤ a.dstCap.toNat →
    IsRecencyList seed → (∀ v ∈ x, v ≤ 256) →
    ∃ t, exec .mtfFwd s = .next t ∧ Succeeded s t n 0 ∧
      Wrote s.lmem t.lmem .sym16 a.dstAddr.toNat (mtfForward seed x)

/-- 43_mtf.md R242: with a seed that is a permutation of the bytes and ranks up to 256, `MTF_INV` writes the symbols. -/
def Obligations.MtfInvCompletes : Prop :=
  ∀ (s : State) (r : Running), Undisturbed .mtfInv s r → s.lmem.wf = true →
    let a := r.latch.args
    let n := a.src0Len.toNat
    let x := elems .sym16 s.lmem a.src0Addr.toNat n
    let seed := r.latch.seed.map fun b => b.toNat
    RegionsOk s.params ⟨.sym16, a.src0Addr.toNat, 2 * n⟩ (dstIn .sym16 a) → n ≤ a.dstCap.toNat →
    IsRecencyList seed → (∀ v ∈ x, v ≤ 256) →
    ∃ t, exec .mtfInv s = .next t ∧ Succeeded s t n 0 ∧
      Wrote s.lmem t.lmem .sym16 a.dstAddr.toNat (mtfInverse seed x)

/-- 44_huffman.md R264: with symbols up to 256 and room for the stream, `HUF_ENC` writes the header and the codes, one
byte a bit, and reports the stream's and the header's length. -/
def Obligations.HufEncCompletes : Prop :=
  ∀ (s : State) (r : Running), Undisturbed .hufEnc s r → s.lmem.wf = true →
    let a := r.latch.args
    let n := a.src0Len.toNat
    let x := elems .sym16 s.lmem a.src0Addr.toNat n
    let root := buildTree x
    let bits := serialize root ++ x.flatMap (codeOf root) ++ codeOf root 257
    RegionsOk s.params ⟨.sym16, a.src0Addr.toNat, 2 * n⟩ (dstIn .bit8 a) →
    (∀ v ∈ x, v ≤ 256) → bits.length ≤ a.dstCap.toNat →
    ∃ t, exec .hufEnc s = .next t ∧ Succeeded s t bits.length (serialize root).length ∧
      Wrote s.lmem t.lmem .bit8 a.dstAddr.toNat (bits.map fun b => if b then 1 else 0)

/-- 44_huffman.md R267: where the header parses and the payload decodes within `dst_cap`, `HUF_DEC` writes the symbols
and reports how many bits it consumed. -/
def Obligations.HufDecCompletes : Prop :=
  ∀ (s : State) (r : Running) (root : Tree) (pos pos' : Nat) (st : ParseState) (out : List Nat),
    Undisturbed .hufDec s r → s.lmem.wf = true →
    let a := r.latch.args
    let n := a.src0Len.toNat
    let x := elems .bit8 s.lmem a.src0Addr.toNat n
    RegionsOk s.params ⟨.bit8, a.src0Addr.toNat, n⟩ (dstIn .sym16 a) →
    parseTree x 258 0 ⟨0, []⟩ = .ok (root, pos, st) →
    decodePayload x root a.dstCap.toNat (n + 1) pos 0 = .ok (out, pos') →
    ∃ t, exec .hufDec s = .next t ∧ Succeeded s t out.length pos' ∧
      Wrote s.lmem t.lmem .sym16 a.dstAddr.toNat out

/-- 45_bitstream.md R300: with source bytes that are all bits, `PACK` writes `ceil(L / 8)` bytes, bit `8k + q` of the
source in bit `7 - q` of byte `k`, zero-padded, and reports the padding. -/
def Obligations.PackCompletes : Prop :=
  ∀ (s : State) (r : Running), Undisturbed .pack s r → s.lmem.wf = true →
    let a := r.latch.args
    let n := a.src0Len.toNat
    let src := a.src0Addr.toNat
    let dst := a.dstAddr.toNat
    let count := (n + 7) / 8
    RegionsOk s.params ⟨.bit8, src, n⟩ (dstIn .u8 a) → count ≤ a.dstCap.toNat →
    (∀ j < n, s.lmem.read (src + j) = 0 ∨ s.lmem.read (src + j) = 1) →
    ∃ t, exec .pack s = .next t ∧ Succeeded s t count (8 * count - n) ∧
      (∀ k < count, ∀ q < 8, (t.lmem.read (dst + k)).getLsbD (7 - q) =
        (decide (8 * k + q < n) && (s.lmem.read (src + (8 * k + q))).getLsbD 0)) ∧
      SameOutside s.lmem t.lmem dst count

/-- 45_bitstream.md R301: `UNPACK` writes eight `BIT8` bytes for each source byte, the most significant bit first. -/
def Obligations.UnpackCompletes : Prop :=
  ∀ (s : State) (r : Running), Undisturbed .unpack s r → s.lmem.wf = true →
    let a := r.latch.args
    let n := a.src0Len.toNat
    let src := a.src0Addr.toNat
    let dst := a.dstAddr.toNat
    RegionsOk s.params ⟨.u8, src, n⟩ (dstIn .bit8 a) → 8 * n ≤ a.dstCap.toNat →
    ∃ t, exec .unpack s = .next t ∧ Succeeded s t (8 * n) 0 ∧
      (∀ k < n, ∀ q < 8, t.lmem.read (dst + (8 * k + q)) = if (s.lmem.read (src + k)).getLsbD (7 - q) then 1 else 0) ∧
      SameOutside s.lmem t.lmem dst (8 * n)

/-! ## Errors -/

/-- 40_command.md R147, 60_exceptions.md R323: whatever error `PreCheck` raises, for whatever command, is of class P:
it is recorded and LMEM is unchanged. -/
def Obligations.PreCheckErrorLeavesMemoryUnchanged : Prop :=
  ∀ (i : Instr) (s : State) (r : Running) (e : ErrCode) (info : Nat), Undisturbed i s r →
    preCheck s.params i r.latch = some (e, info) →
    errIsW e = false ∧ ∃ t, exec i s = .next t ∧ Failed s t (errCodeByte e) info ∧ t.lmem = s.lmem

/-- 60_exceptions.md R323: an error raised by a command's own checks is recorded; of class W it changes at most the
bytes of `DST`, of class P none. -/
def Obligations.WorkErrorChangesOnlyTheDestination : Prop :=
  ∀ (i : Instr) (s : State) (r : Running) (e : ErrCode) (info : Nat), Undisturbed i s r →
    preCheck s.params i r.latch = none → commandBody i r.latch s.lmem = .error (e, info) →
    ∃ t, exec i s = .next t ∧ Failed s t (errCodeByte e) info ∧
      (errIsW e = false → t.lmem = s.lmem) ∧ ∀ o, inLatchedDst r.latch o = false → t.lmem.read o = s.lmem.read o

/-- 40_command.md R147, R148: a length above `MAX_N` is reported as `LIMIT` with 0, whatever else is wrong with the
operands, in the four commands that have that limit; then an alphabet above `MAX_ALPHA` in `SA_BUILD` as `LIMIT` with 1,
and a `SRC1` of `BWT_FWD` that is not one longer than `SRC0` as `BADLEN` with its length. LMEM is unchanged. -/
def Obligations.LengthAboveLimitIsReportedFirst : Prop :=
  ∀ (i : Instr) (s : State) (r : Running), Undisturbed i s r →
    let a := r.latch.args
    let reports := fun (code : Byte) (info : Nat) => ∃ t, exec i s = .next t ∧ Failed s t code info ∧ t.lmem = s.lmem
    (((i = .saBuild ∨ i = .bwtInv) ∧ s.params.maxN < a.src0Len.toNat ∨
      i = .saBuildB ∧ s.params.maxN < a.src0Len.toNat + 1 ∨ i = .bwtFwd ∧ s.params.maxN < a.src1Len.toNat) →
      reports 0x02 0) ∧
    (i = .saBuild → a.src0Len.toNat ≤ s.params.maxN → s.params.maxAlpha < a.arg0.toNat + a.arg1.toNat + 1 →
      reports 0x02 1) ∧
    (i = .bwtFwd → a.src1Len.toNat ≤ s.params.maxN → a.src1Len.toNat ≠ a.src0Len.toNat + 1 →
      reports 0x03 a.src1Len.toNat)

/-- 20_memory.md R84 to R87, 40_command.md R147, R148: when the limits and the length relation hold, the regions are
checked in the order `SRC0`, `SRC1`, `DST`: the first that is not aligned is reported as `ALIGN`, the first that is
aligned and leaves LMEM as `RANGE`, with the region id. When all fit, a `DST` over `SRC0` is reported as `OVERLAP` with
0, then a `DST` over `SRC1` with 1, and then a `dst_cap` below the static required capacity as `CAPACITY` with what is
required. LMEM is unchanged. -/
def Obligations.OverlapWithSourceIsReported : Prop :=
  ∀ (i : Instr) (s : State) (r : Running), Undisturbed i s r →
    let a := r.latch.args
    let region := fun id : Nat => [src0Region i a, src1Region i a, dstRegion i a].getD id none
    let fits := fun id : Nat => ∀ g, region id = some g → RegionFits s.params g
    let reports := fun (code : Byte) (info : Nat) => ∃ t, exec i s = .next t ∧ Failed s t code info ∧ t.lmem = s.lmem
    (∀ c ∈ checkLimits s.params i a ++ checkLength i a, c.fails = false) →
    (∀ id < 3, ∀ g, region id = some g → g.bytes ≠ 0 → (∀ j < id, fits j) →
      (g.addr % fmtSize g.fmt ≠ 0 → reports 0x04 id) ∧
      (g.addr % fmtSize g.fmt = 0 → s.params.lmemBytes < g.addr + g.bytes → reports 0x05 id)) ∧
    ((∀ id < 3, fits id) → ∀ src dst, region 0 = some src → region 2 = some dst →
      (¬ RegionsApart dst src → reports 0x06 0) ∧
      (RegionsApart dst src → ∀ src1, region 1 = some src1 → ¬ RegionsApart dst src1 → reports 0x06 1) ∧
      (RegionsApart dst src → (∀ src1, region 1 = some src1 → RegionsApart dst src1) → ∀ req : Nat,
        ((i = .saBuild ∨ i = .mtfFwd ∨ i = .mtfInv) ∧ req = a.src0Len.toNat ∨
          i = .saBuildB ∧ req = a.src0Len.toNat + 1 ∨ i = .bwtFwd ∧ req = a.src1Len.toNat ∨
          i = .bwtInv ∧ req = a.src0Len.toNat - 1 ∨ i = .pack ∧ req = (a.src0Len.toNat + 7) / 8 ∨
          i = .unpack ∧ req = 8 * a.src0Len.toNat) →
        a.dstCap.toNat < req → reports 0x07 req))

/-- 20_memory.md R80, 43_mtf.md R241, R242, 44_huffman.md R264, 42_bwt.md R224: the first element above 256 is reported
as `BADSYM` with its index; only `DST` may change. -/
def Obligations.SymbolAboveAlphabetIsReported : Prop :=
  ∀ (i : Instr) (s : State) (r : Running) (j : Nat), Undisturbed i s r →
    i = .mtfFwd ∨ i = .mtfInv ∨ i = .hufEnc ∨ i = .bwtInv →
    preCheck s.params i r.latch = none → j < r.latch.args.src0Len.toNat →
    256 < elem .sym16 s.lmem r.latch.args.src0Addr.toNat j →
    (∀ q < j, elem .sym16 s.lmem r.latch.args.src0Addr.toNat q ≤ 256) →
    ∃ t, exec i s = .next t ∧ Failed s t 0x10 j ∧
      ∀ o, inLatchedDst r.latch o = false → t.lmem.read o = s.lmem.read o

/-- 45_bitstream.md R300: `PACK` reports the first source byte that is no bit as `BADBIT` with its index; only `DST`
may change. -/
def Obligations.PackReportsTheFirstBadBit : Prop :=
  ∀ (s : State) (r : Running) (j : Nat), Undisturbed .pack s r →
    preCheck s.params .pack r.latch = none → j < r.latch.args.src0Len.toNat →
    1 < (s.lmem.read (r.latch.args.src0Addr.toNat + j)).toNat →
    (∀ q < j, (s.lmem.read (r.latch.args.src0Addr.toNat + q)).toNat ≤ 1) →
    ∃ t, exec .pack s = .next t ∧ Failed s t 0x15 j ∧
      ∀ o, inLatchedDst r.latch o = false → t.lmem.read o = s.lmem.read o

/-- 42_bwt.md R221: `BWT_FWD` reports the first entry of `SRC1` that is out of range or repeats an earlier one as
`BADSA` with its index; only `DST` may change. -/
def Obligations.BwtFwdReportsTheFirstBadEntry : Prop :=
  ∀ (s : State) (r : Running) (j : Nat), Undisturbed .bwtFwd s r →
    let a := r.latch.args
    let entry := elem .idx32 s.lmem a.src1Addr.toNat
    preCheck s.params .bwtFwd r.latch = none → j < a.src1Len.toNat →
    (a.src1Len.toNat ≤ entry j ∨ ∃ q < j, entry q = entry j) →
    (∀ q < j, entry q < a.src1Len.toNat ∧ ∀ q' < q, entry q' ≠ entry q) →
    ∃ t, exec .bwtFwd s = .next t ∧ Failed s t 0x12 j ∧
      ∀ o, inLatchedDst r.latch o = false → t.lmem.read o = s.lmem.read o

/-- 42_bwt.md R222 to R224: the walk ends at `SENT`, and otherwise emits the symbol and goes to one more than the number
of elements below it and of equal elements before it. With all symbols up to 256, `BWT_INV` reports a count of `SENT`
other than 1 as `BADSENT` with the count, and otherwise a walk that misses a position as `BADBWT` with the number of
symbols emitted; there the walk has reached `SENT`, more fuel adds nothing to it. -/
def Obligations.BwtInvReportsMalformedStrings : Prop :=
  (∀ (x : List Nat) (fuel pos c : Nat), x[pos]? = some c →
    bwtWalk x (fuel + 1) pos =
      if c = 256 then [] else c :: bwtWalk x fuel (1 + x.countP (fun v => decide (v < c)) + (x.take pos).count c)) ∧
  ∀ (s : State) (r : Running), Undisturbed .bwtInv s r →
    let n := r.latch.args.src0Len.toNat
    let x := elems .sym16 s.lmem r.latch.args.src0Addr.toNat n
    preCheck s.params .bwtInv r.latch = none → (∀ v ∈ x, v ≤ 256) →
    (x.count 256 ≠ 1 → ∃ t, exec .bwtInv s = .next t ∧ Failed s t 0x13 (x.count 256)) ∧
    (x.count 256 = 1 → ∀ fuel, n ≤ fuel → bwtWalk x fuel 0 = bwtWalk x n 0) ∧
    (x.count 256 = 1 → (bwtWalk x n 0).length ≠ n - 1 →
      ∃ t, exec .bwtInv s = .next t ∧ Failed s t 0x14 (bwtWalk x n 0).length)

/-- 41_suffix_array.md R184: `SA_BUILD` reports the first key or pad outside `[-OFFSET, K]` as `BADSYM`, before any pad
check; with all of them inside, unequal pads as `BADPAD` with the index of the one that differs, and then the first
real symbol not above the pad. -/
def Obligations.SaBuildReportsBadKeysThenBadPads : Prop :=
  ∀ (s : State) (r : Running) (j : Nat), Undisturbed .saBuild s r → preCheck s.params .saBuild r.latch = none →
    let a := r.latch.args
    let n := a.src0Len.toNat
    let x := elemI32 s.lmem a.src0Addr.toNat
    let inside := fun v : Int => -(a.arg1.toNat : Int) ≤ v ∧ v ≤ a.arg0.toNat
    (j < n + 3 → ¬ inside (x j) → (∀ q < j, inside (x q)) → ∃ t, exec .saBuild s = .next t ∧ Failed s t 0x10 j) ∧
    ((∀ q < n + 3, inside (x q)) →
      (x (n + 1) ≠ x n → ∃ t, exec .saBuild s = .next t ∧ Failed s t 0x11 (n + 1)) ∧
      (x (n + 1) = x n → x (n + 2) ≠ x n → ∃ t, exec .saBuild s = .next t ∧ Failed s t 0x11 (n + 2)) ∧
      (x (n + 1) = x n → x (n + 2) = x n → j < n → x j ≤ x n → (∀ q < j, x n < x q) →
        ∃ t, exec .saBuild s = .next t ∧ Failed s t 0x11 j))

/-- 44_huffman.md R264: a stream longer than `dst_cap` makes `HUF_ENC` report `CAPACITY` with the length it needs; LMEM
is unchanged. -/
def Obligations.HufEncReportsTheCapacityNeeded : Prop :=
  ∀ (s : State) (r : Running), Undisturbed .hufEnc s r →
    let x := elems .sym16 s.lmem r.latch.args.src0Addr.toNat r.latch.args.src0Len.toNat
    preCheck s.params .hufEnc r.latch = none → (∀ v ∈ x, v ≤ 256) →
    r.latch.args.dstCap.toNat < (hufStream x).length →
    ∃ t, exec .hufEnc s = .next t ∧ Failed s t 0x07 (hufStream x).length ∧ t.lmem = s.lmem

/-- 44_huffman.md R265, R267: `HUF_DEC` of a source whose first byte is missing reports `TRUNC` with 0, of one whose
first byte is no bit `BADBIT` with 0, and whatever error the decoder meets is the one reported, only `DST` changing. -/
def Obligations.HufDecReportsTheFirstBit : Prop :=
  ∀ (s : State) (r : Running), Undisturbed .hufDec s r → preCheck s.params .hufDec r.latch = none →
    (r.latch.args.src0Len = 0 → ∃ t, exec .hufDec s = .next t ∧ Failed s t 0x17 0) ∧
    (r.latch.args.src0Len ≠ 0 → 1 < (s.lmem.read r.latch.args.src0Addr.toNat).toNat →
      ∃ t, exec .hufDec s = .next t ∧ Failed s t 0x15 0) ∧
    ∀ (e : ErrCode) (info : Nat),
      hufDecode (elems .bit8 s.lmem r.latch.args.src0Addr.toNat r.latch.args.src0Len.toNat) r.latch.args.dstCap.toNat =
        .error (e, info) →
      ∃ t, exec .hufDec s = .next t ∧ Failed s t (errCodeByte e) info ∧
        ∀ o, inLatchedDst r.latch o = false → t.lmem.read o = s.lmem.read o

/-- 44_huffman.md R265, R266: where the decoder stops on a stream that is no encoder's. Cut off after `k` bits, a stream
ends in `TRUNC` with `k`; with a byte that is no bit at `k`, in `BADBIT` with `k`; with more symbols than `dst_cap`, in
`OVERFLOW` with `dst_cap`. A one-leaf tree ends in `BADCODE` at its first bit `1`. A leaf value above 257 or met before,
alone or as the second child of a root, and the 258th internal node end in `BADHDR` at the node's tag. The decoder's
error is the command's by `HufDecReportsTheFirstBit`. -/
def Obligations.HufDecReportsTheFirstFault : Prop :=
  let bytes := fun bits : List Bool => bits.map fun b => if b then 1 else 0
  (∀ (x : List Nat) (cap k : Nat), (∀ v ∈ x, v ≤ 256) → x.length ≤ cap → k < (hufStream x).length →
    hufDecode (bytes ((hufStream x).take k)) cap = .error (.trunc, k) ∧
    ∀ (b : Nat) (after : List Nat), 1 < b →
      hufDecode (bytes ((hufStream x).take k) ++ b :: after) cap = .error (.badBit, k)) ∧
  (∀ (x after : List Nat) (cap : Nat), (∀ v ∈ x, v ≤ 256) → cap < x.length →
    hufDecode (bytes (hufStream x) ++ after) cap = .error (.overflow, cap)) ∧
  (∀ (v m cap : Nat) (after : List Nat), v ≤ 257 → (v = 257 → m = 0) → m ≤ cap →
    hufDecode (bytes (serialize (.leaf v)) ++ List.replicate m 0 ++ 1 :: after) cap = .error (.badCode, 10 + m)) ∧
  (∀ (v cap : Nat) (after : List Nat), 257 < v → v < 512 →
    hufDecode (bytes (serialize (.leaf v)) ++ after) cap = .error (.badHdr, 0)) ∧
  (∀ (left : Tree) (v cap : Nat) (after : List Nat), (treeSymbols left).Nodup → (∀ u ∈ treeSymbols left, u ≤ 257) →
    (treeSymbols left).length ≤ 257 → v < 512 → (257 < v ∨ v ∈ treeSymbols left) →
    hufDecode (bytes (serialize (.node left (.leaf v))) ++ after) cap =
      .error (.badHdr, 1 + (serialize left).length)) ∧
  ∀ (cap : Nat) (after : List Nat), hufDecode (List.replicate 258 0 ++ after) cap = .error (.badHdr, 257)

/-- 43_mtf.md R241, R242: with the regions and the capacity in order, a repeated byte in the latched seed makes either
MTF command report `BADSEED` with the first repeat's index, LMEM unchanged. -/
def Obligations.RepeatedSeedByteIsReported : Prop :=
  ∀ (i : Instr) (s : State) (r : Running) (j : Nat), Undisturbed i s r → i = .mtfFwd ∨ i = .mtfInv →
    let a := r.latch.args
    RegionsOk s.params ⟨.sym16, a.src0Addr.toNat, 2 * a.src0Len.toNat⟩ (dstIn .sym16 a) →
    a.src0Len.toNat ≤ a.dstCap.toNat → j < r.latch.seed.length →
    (∃ q < j, r.latch.seed.getD q 0 = r.latch.seed.getD j 0) →
    (∀ k < j, ∀ q < k, r.latch.seed.getD q 0 ≠ r.latch.seed.getD k 0) →
    ∃ t, exec i s = .next t ∧ Failed s t 0x08 j ∧ t.lmem = s.lmem

/-! ## The host port -/

/-- 20_memory.md R72: an access whose bytes do not all lie in the CSR window, nor all in the LMEM aperture, reads 0 or
is ignored, and changes nothing (the value a read returns is left in the model's `rdata`, log 4). -/
def Obligations.UnmappedAccessHasNoEffect : Prop :=
  ∀ (s : State) (a : Word) (n : AccessSize) (v : Word),
    ¬ (∀ k < accessBytes n, a.toNat + k < 0x1000) →
    ¬ (∀ k < accessBytes n, 0x01000000 ≤ a.toNat + k ∧ a.toNat + k < 0x01000000 + s.params.lmemBytes) →
    hostRead a n s = { s with rdata := 0 } ∧ hostWrite a n v s = s

/-- 20_memory.md R73, 10_state.md R44: in the CSR window, an access that is not an aligned word, or that is to a
reserved offset, reads 0 or is ignored. -/
def Obligations.WrongOrReservedCsrAccessHasNoEffect : Prop :=
  ∀ (s : State) (a : Word) (n : AccessSize) (v : Word), a.toNat + accessBytes n ≤ 0x1000 →
    (n ≠ .word ∨ a.toNat % 4 ≠ 0 ∨ (0x050 ≤ a.toNat ∧ a.toNat ≤ 0x0FC) ∨ 0x200 ≤ a.toNat) →
    hostRead a n s = { s with rdata := 0 } ∧ hostWrite a n v s = s

/-- 20_memory.md R74, R75, R77: with no command running, a naturally aligned host write to LMEM stores the low bytes of
the value little-endian, changes no other byte and no register, and reads back. A misaligned access in the aperture,
whether a command runs or not, reads 0 or is ignored, and changes nothing. No host read of any address changes anything
(92_eei_decisions.md D5) but the model's `rdata` (log 4) and, while a command runs, its `draws` (log 5). -/
def Obligations.ApertureStoreReadsBack : Prop :=
  (∀ (s : State) (o : Nat) (n : AccessSize) (v : Word), s.params.wellFormed = true →
    o + accessBytes n ≤ s.params.lmemBytes →
    let a : Word := BitVec.ofNat 32 (0x01000000 + o)
    let t := hostWrite a n v s
    (o % accessBytes n = 0 → s.seq = .idle → s.lmem.wf = true →
      t = { s with lmem := t.lmem } ∧
        (∀ k < accessBytes n, t.lmem.read (o + k) = v.extractLsb' (8 * k) 8) ∧
        SameOutside s.lmem t.lmem o (accessBytes n) ∧
        (hostRead a n t).rdata.toNat = v.toNat % 256 ^ accessBytes n) ∧
    (o % accessBytes n ≠ 0 → hostRead a n s = { s with rdata := 0 } ∧ t = s)) ∧
  ∀ (s : State) (a : Word) (n : AccessSize),
    hostRead a n s = { s with rdata := (hostRead a n s).rdata, draws := (hostRead a n s).draws } ∧
      (s.seq = .idle → (hostRead a n s).draws = s.draws)

/-- 10_state.md R35 to R42, R51: an argument register holds what the host writes to it, whether a command runs or not;
the other argument registers, the running command's latch and LMEM are untouched. -/
def Obligations.ArgumentRegistersHoldWhatIsWritten : Prop :=
  ∀ (s : State) (v : Word) (k : Nat), k < 8 →
    let offset := fun j : Nat => (BitVec.ofNat 32 (0x030 + 4 * j) : Word)
    let t := hostWrite (offset k) .word v s
    (hostRead (offset k) .word t).rdata = v ∧ t = { s with args := t.args } ∧
      ∀ j < 8, j ≠ k → (hostRead (offset j) .word t).rdata = (hostRead (offset j) .word s).rdata

/-- 10_state.md R43, R51: a write to `MTF_SEED<w>` replaces the four entries `4w .. 4w + 3`, entry `4w + b` by bits
`8b+7 : 8b`, and nothing else: the running command keeps the copy it latched. The word reads back as written. -/
def Obligations.SeedWriteReplacesFourEntries : Prop :=
  ∀ (s : State) (v : Word) (w : Nat), w < 64 →
    let offset : Word := BitVec.ofNat 32 (0x100 + 4 * w)
    let t := hostWrite offset .word v s
    t = { s with mtfSeed := t.mtfSeed } ∧ (hostRead offset .word t).rdata = v ∧
      ∀ i < 256, (seedTable t.mtfSeed).getD i 0 =
        if i / 4 = w then v.extractLsb' (8 * (i % 4)) 8 else (seedTable s.mtfSeed).getD i 0

/-- 10_state.md R21, R23 to R34: the value `STATUS` reads, bit by bit; what the other CSRs outside the argument
registers and the seed table read; that no read of the window changes anything else (92_eei_decisions.md D5); and that
host writes to the read-only registers are ignored. -/
def Obligations.StatusWordLayout : Prop :=
  ∀ s : State,
    let read := fun a : Word => (hostRead a .word s).rdata
    (read 0x018).toNat = s.busy.toNat + 2 * s.done.toNat + 4 * s.err.toNat + 8 * s.drop.toNat + 256 * s.errCode.toNat ∧
    read 0x000 = 0x5A500100 ∧ read 0x004 = BitVec.ofNat 32 s.params.lmemBytes ∧
    read 0x008 = BitVec.ofNat 32 s.params.maxN ∧ read 0x00C = BitVec.ofNat 32 s.params.maxAlpha ∧
    read 0x010 = 0 ∧ read 0x014 = s.cmd ∧
    (read 0x01C).toNat = s.doneIE.toNat ∧ (read 0x020).toNat = s.doneIP.toNat ∧
    read 0x024 = s.errInfo ∧ read 0x028 = s.result0 ∧ read 0x02C = s.result1 ∧
    (∀ (a : Word) (n : AccessSize), a.toNat + accessBytes n ≤ 0x1000 →
      hostRead a n s = { s with rdata := (hostRead a n s).rdata }) ∧
    ∀ a ∈ [0x000#32, 0x004#32, 0x008#32, 0x00C#32, 0x018#32, 0x024#32, 0x028#32, 0x02C#32], ∀ v : Word,
      hostWrite a .word v s = s

/-- 10_state.md R30, R31, R52, 60_exceptions.md R329: `irq` is the AND of its two bits after a host write to either
register, in the same step; a 0 written to `IRQ_STATUS` leaves the pending bit. Every completion of a running command,
legal or not, raises it if it is enabled, and so does an abort; a soft reset and a hard reset lower it. A write to either
register changes its own bit only, whatever the other bit is, at an idle block and at a busy one (R51). -/
def Obligations.InterruptFollowsItsTwoBits : Prop :=
  (∀ (s : State) (v : Word), hostWrite 0x01C#32 .word v s = { s with doneIE := v.getLsbD 0 }) ∧
  (∀ (s : State) (v : Word), hostWrite 0x020#32 .word v s = { s with doneIP := s.doneIP && !v.getLsbD 0 }) ∧
  (∀ (s : State) (v : Word), (hostWrite 0x01C#32 .word v s).irq = (s.doneIP && v.getLsbD 0)) ∧
  (∀ (s : State) (v : Word), (hostWrite 0x020#32 .word v s).irq = (s.doneIP && !v.getLsbD 0 && s.doneIE)) ∧
  (∀ (i : Instr) (s t : State) (r : Running), s.seq = .busy r → exec i s = .next t → t.irq = s.doneIE) ∧
  (∀ (s t : State) (r : Running), s.seq = .busy r → engineStep s = .next t → t.irq = s.doneIE) ∧
  (∀ (s : State) (r : Running) (v : Word), s.seq = .busy r → v.getLsbD 0 = false → v.getLsbD 1 = true →
    (hostWrite 0x010#32 .word v s).irq = s.doneIE) ∧
  (∀ (s : State) (v : Word), v.getLsbD 0 = true → (hostWrite 0x010#32 .word v s).irq = false) ∧
  ∀ (s t : State) (cells : List Host.Cell), stepEvent (.hardReset cells) s = .next t → t.irq = false

/-- 70_reset_and_hazards.md R360, R361: after the reset input every CSR reads its reset value, the block is idle and
`irq` is low, whatever LMEM then holds and whatever ran before. -/
def Obligations.HardResetValues : Prop :=
  ∀ (s : State) (cells : List Host.Cell) (rest : List Event), s.agenda = .hardReset cells :: rest →
    ∃ t, step s = .next t ∧ t.seq = .idle ∧ t.irq = false ∧
      readCsr t .id = 0x5A500100 ∧ readCsr t .cfgLmemBytes = BitVec.ofNat 32 s.params.lmemBytes ∧
      readCsr t .cfgMaxN = BitVec.ofNat 32 s.params.maxN ∧ readCsr t .cfgMaxAlpha = BitVec.ofNat 32 s.params.maxAlpha ∧
      (∀ c ∈ [Csr.ctrl, .cmd, .status, .irqEn, .irqStatus, .errInfo, .result0, .result1, .src0Addr, .src0Len, .src1Addr,
        .src1Len, .dstAddr, .dstCap, .arg0, .arg1], readCsr t c = 0) ∧
      ∀ w : Fin 64, readCsr t (.mtfSeed w) =
        BitVec.ofNat 32 (4 * w.val + (4 * w.val + 1) * 2 ^ 8 + (4 * w.val + 2) * 2 ^ 16 + (4 * w.val + 3) * 2 ^ 24)

/-- 70_reset_and_hazards.md R362, R363: a soft reset gives every register its reset value and keeps LMEM, except the
`DST` of a running command whose `PreCheck` would pass. The model's own fields are kept (logs 3 to 5); that R367 says
nothing of a soft reset is its reading (log 6). -/
def Obligations.SoftResetKeepsMemory : Prop :=
  ∀ (s : State) (v : Word) (rest : List Event), v.getLsbD 0 = true →
    s.agenda = .access (.write 0x010#32 .word v) :: rest →
    ∃ t, step s = .next t ∧
      t = { State.hardReset s.params t.lmem with agenda := rest, rdata := s.rdata, draws := t.draws } ∧
      ∀ o, (∀ r, s.seq = .busy r → inLatchedDst r.latch o = true → (preCheckLatched s.params r.latch).isSome = true) →
        t.lmem.read o = s.lmem.read o

/-- 10_state.md R27, 60_exceptions.md R330: `ABORT` ends a running command in the step of the write, with `ABORTED` and
0. LMEM is unchanged if its `PreCheck` would fail, and changes only in its `DST` otherwise. What the host wrote to its
regions makes no difference (R366 and R367 read as of completions only, DEDUCED, log 6). While idle it does nothing, and
a `CTRL` write with neither bit set does nothing at all, whatever its reserved bits are. -/
def Obligations.AbortEndsTheRunningCommand : Prop :=
  (∀ (s : State) (v : Word), v.getLsbD 0 = false → v.getLsbD 1 = false → hostWrite 0x010#32 .word v s = s) ∧
  ∀ (s : State) (v : Word) (rest : List Event), v.getLsbD 0 = false → v.getLsbD 1 = true →
    s.agenda = .access (.write 0x010#32 .word v) :: rest →
    (s.seq = .idle → step s = .next { s with agenda := rest }) ∧
    ∀ r, s.seq = .busy r → ∃ t, step s = .next t ∧ Failed { s with agenda := rest } t 0x1F 0 ∧
      ((preCheckLatched s.params r.latch).isSome = true → t.lmem = s.lmem) ∧
      ∀ o, inLatchedDst r.latch o = false → t.lmem.read o = s.lmem.read o

/-- 70_reset_and_hazards.md R368: while a command runs, a host write to LMEM bytes in none of its regions takes effect
and leaves the running command and every other byte alone, and a host read of bytes outside its `DST` returns what they
hold and changes neither. -/
def Obligations.HostWriteElsewhereIsNoHazard : Prop :=
  ∀ (s : State) (r : Running) (a : Word) (n : AccessSize) (v : Word) (o : Nat), s.seq = .busy r →
    target s.params a n = .lmem o →
    (s.lmem.wf = true → (∀ k < accessBytes n, inLatchedSrc r.latch (o + k) = false ∧ inLatchedDst r.latch (o + k) = false) →
      (hostWrite a n v s).seq = .busy r ∧
        memRead (hostWrite a n v s).lmem o (accessBytes n) = v.toNat % 256 ^ accessBytes n ∧
        SameOutside s.lmem (hostWrite a n v s).lmem o (accessBytes n)) ∧
    ((∀ k < accessBytes n, inLatchedDst r.latch (o + k) = false) →
      (hostRead a n s).rdata.toNat = memRead s.lmem o (accessBytes n) ∧
        hostRead a n s = { s with rdata := (hostRead a n s).rdata, draws := (hostRead a n s).draws })

/-- 70_reset_and_hazards.md R366, R367: while a command runs, a host write to LMEM takes effect at once, also on the
bytes of its regions, and changes no other byte, no register and not the latch; a written source byte and each written
`DST` byte are remembered (`srcTouched` and `dstTouched`, the model's record, log 6). A command whose source was written
still completes: whatever it then reports, no LMEM byte outside its `DST` changes. A command only some of whose `DST`
bytes were written completes as if none were, but for what these bytes then read. -/
def Obligations.SourceWriteLeavesOtherBytesAlone : Prop :=
  (∀ (s : State) (r : Running) (a : Word) (n : AccessSize) (v : Word) (o : Nat), s.seq = .busy r → s.lmem.wf = true →
    target s.params a n = .lmem o →
    let t := hostWrite a n v s
    memRead t.lmem o (accessBytes n) = v.toNat % 256 ^ accessBytes n ∧ SameOutside s.lmem t.lmem o (accessBytes n) ∧
      t = { s with lmem := t.lmem, seq := t.seq } ∧
      ∃ r', t.seq = .busy r' ∧ r'.latch = r.latch ∧
        ((∃ k < accessBytes n, inLatchedSrc r.latch (o + k) = true) → r'.srcTouched = true) ∧
        ∀ k < accessBytes n, inLatchedDst r.latch (o + k) = true → o + k ∈ r'.dstTouched) ∧
  (∀ (i : Instr) (s : State) (r : Running), s.seq = .busy r → r.latch.cmd = encode i → r.srcTouched = true →
    ∃ t, exec i s = .next t ∧ t.seq = .idle ∧ t.done = true ∧ t.doneIP = true ∧
      ∀ o, inLatchedDst r.latch o = false → t.lmem.read o = s.lmem.read o) ∧
  ∀ (i : Instr) (s : State) (r : Running), s.seq = .busy r → r.srcTouched = false →
    ∃ t u, exec i s = .next t ∧ exec i { s with seq := .busy { r with dstTouched := [] } } = .next u ∧
      t = { u with lmem := t.lmem, draws := t.draws } ∧ ∀ o, o ∉ r.dstTouched → t.lmem.read o = u.lmem.read o

/-! ## The whole machine -/

/-- 60_exceptions.md R320, R327, 70_reset_and_hazards.md R374: the block never halts, hangs or signals a fault: every
step of every state answers a next state. -/
def Obligations.EveryStepAnswersANextState : Prop := ∀ s : State, ∃ t, step s = .next t

/-- 40_command.md R143, 70_reset_and_hazards.md R371: a running command completes even if all the host does is read:
after its reads and one step more the block is idle and `DONE` and `DONE_IP` are set. That the engine moves when the
agenda is empty is the model's scheduler (log 3). -/
def Obligations.PolledCommandCompletes : Prop :=
  ∀ (s : State) (r : Running), s.seq = .busy r → (∀ e ∈ s.agenda, ∃ a n, e = .access (.read a n)) →
    ∃ t, Host.Core.run Sys2Proof.core (s.agenda.length + 1) s = .next t ∧
      t.seq = .idle ∧ t.done = true ∧ t.doneIP = true ∧ t.agenda = []

/-- The invariant of Sys2Proof/Safety.lean holds right after reset, whatever the parameters and contents of LMEM. The
parameters and the contents in `State.reset` are the model's choice (logs 1, 2). -/
def Obligations.InvariantHoldsAtReset : Prop :=
  State.reset.Inv ∧ ∀ (p : Params) (m : Memory), p.wellFormed = true → m.wf = true → m.within p.lmemBytes = true →
    (State.hardReset p m).Inv

/-- Every step keeps the invariant: the status invariants of 10_state.md R29, LMEM canonical and inside its size
(20_memory.md R76, R88), and the rest of Sys2Proof/Safety.lean's `State.Inv`. That the code is a listed one also
after the host wrote a source is the model's reading (log 7). -/
def Obligations.EveryStepKeepsTheInvariant : Prop := ∀ s t : State, s.Inv → step s = .next t → t.Inv

/-- 10_state.md R24 to R26: the parameters are constant; no step of any kind changes them. -/
def Obligations.NoStepChangesTheParameters : Prop := ∀ s t : State, step s = .next t → t.params = s.params

/-- 10_state.md R21, R43, 40_command.md R145, R146: no command writes an argument register, the seed table, `CMD`, `DROP`
or `IRQ_EN`; one that ran leaves the block idle with `DONE` and `DONE_IP` set, `ERR` set just when `ERRCODE` is not 0. -/
def Obligations.CommandsKeepTheHostsRegisters : Prop :=
  ∀ (i : Instr) (s t : State), exec i s = .next t →
    t.params = s.params ∧ t.args = s.args ∧ t.mtfSeed = s.mtfSeed ∧ t.cmd = s.cmd ∧ t.drop = s.drop ∧
      t.doneIE = s.doneIE ∧ t.agenda = s.agenda ∧ t.rdata = s.rdata ∧
      ∀ r, s.seq = .busy r → t.seq = .idle ∧ t.done = true ∧ t.doneIP = true ∧ (t.err = true ↔ t.errCode ≠ 0)

/-- 20_memory.md R88: whatever its outcome, a command changes no LMEM byte outside its `DST`; nor does one with a hazard
(logs 6, 11). -/
def Obligations.CommandsWriteOnlyTheirDestination : Prop :=
  ∀ (i : Instr) (s t : State) (r : Running), s.Inv → s.seq = .busy r → r.latch.cmd = encode i → exec i s = .next t →
    ∀ o, inLatchedDst r.latch o = false → t.lmem.read o = s.lmem.read o

/-- 40_command.md R144, R149, R152: the error code, `ERR_INFO`, both results and, on success, every byte of the first
`RESULT0` elements of `DST` are fixed by the latched record and the source bytes: two blocks that agree on these agree
on the outcome, whatever else their memories hold. Every other byte agrees after success if it agreed before. -/
def Obligations.OutcomeDependsOnLatchAndSources : Prop :=
  ∀ (i : Instr) (s₁ s₂ t₁ t₂ : State) (r : Running), Undisturbed i s₁ r → Undisturbed i s₂ r →
    s₁.params = s₂.params → s₁.lmem.wf = true → s₂.lmem.wf = true →
    (∀ o, inLatchedSrc r.latch o = true → s₁.lmem.read o = s₂.lmem.read o) →
    exec i s₁ = .next t₁ → exec i s₂ = .next t₂ →
    t₁.errCode = t₂.errCode ∧ t₁.errInfo = t₂.errInfo ∧ t₁.result0 = t₂.result0 ∧ t₁.result1 = t₂.result1 ∧
      (t₁.errCode = 0 → ∀ o,
        (∃ f, dstFmt i = some f ∧ r.latch.args.dstAddr.toNat ≤ o ∧
          o < r.latch.args.dstAddr.toNat + t₁.result0.toNat * fmtSize f) ∨ s₁.lmem.read o = s₂.lmem.read o →
        t₁.lmem.read o = t₂.lmem.read o)

/-! ## The algorithms -/

/-- 41_suffix_array.md R171, R173: a radix pass returns the same indices in ascending order of their keys, those with
equal keys in the order they came in. -/
def Obligations.RadixPassIsAStableSort : Prop :=
  ∀ (a : List Nat) (x : List Int) (d k off : Nat), (∀ i ∈ a, -(off : Int) ≤ x.getD (i + d) 0 ∧ x.getD (i + d) 0 ≤ k) →
    radixPass a x d k off =
      (List.range (k + off + 1)).flatMap fun v => a.filter fun i => x.getD (i + d) 0 + (off : Int) == (v : Int)

/-- 41_suffix_array.md R182: on every input that meets R174, `dc3` returns the suffix array of R170. -/
def Obligations.Dc3ComputesTheSuffixArray : Prop :=
  ∀ (x : List Int) (n k off : Nat), Dc3Pre x n k off → IsSuffixArray (x.take n) (dc3 n x n k off)

/-- 43_mtf.md R240: `MoveToFront` brings entry `r` to the front, shifts the entries before it down by one, and moves no
entry after it. -/
def Obligations.MoveToFrontShiftsTheEarlierEntries : Prop :=
  ∀ (lst : List Nat) (r : Nat), r < lst.length →
    (moveToFront lst r).Perm lst ∧ (moveToFront lst r).getD 0 0 = lst.getD r 0 ∧
      (∀ q, 0 < q → q ≤ r → (moveToFront lst r).getD q 0 = lst.getD (q - 1) 0) ∧
      ∀ q, r < q → (moveToFront lst r).getD q 0 = lst.getD q 0

/-- 43_mtf.md R241 to R243: the two transforms symbol by symbol (`SENT` passes through and leaves the list alone; a byte
gives its index in the list and an index gives its byte, and the list then goes through `MoveToFront`); and with one
seed that is a permutation of the bytes, the inverse transform of the forward transform of any sequence over `0..256`
is that sequence. -/
def Obligations.MtfRoundTrip : Prop :=
  (∀ lst : List Nat, mtfForward lst [] = [] ∧ mtfInverse lst [] = []) ∧
  (∀ lst vs : List Nat, mtfForward lst (256 :: vs) = 256 :: mtfForward lst vs ∧
    mtfInverse lst (256 :: vs) = 256 :: mtfInverse lst vs) ∧
  (∀ (lst vs : List Nat) (r v : Nat), IsRecencyList lst → lst[r]? = some v →
    mtfForward lst (v :: vs) = r :: mtfForward (moveToFront lst r) vs ∧
    mtfInverse lst (r :: vs) = v :: mtfInverse (moveToFront lst r) vs) ∧
  ∀ (seed s : List Nat), IsRecencyList seed → (∀ v ∈ s, v ≤ 256) → mtfInverse seed (mtfForward seed s) = s

/-- 45_bitstream.md R302: unpacking what was packed gives the bits and their zero padding; packing what was unpacked
gives the bytes. -/
def Obligations.PackAndUnpackAreInverse : Prop :=
  (∀ bits : List Nat, (∀ b ∈ bits, b ≤ 1) → unpackBytes (packBits bits ((bits.length + 7) / 8)) =
    bits ++ List.replicate (8 * ((bits.length + 7) / 8) - bits.length) 0) ∧
  ∀ ys : List Nat, (∀ y ∈ ys, y ≤ 255) → packBits (unpackBytes ys) ys.length = ys

/-- 44_huffman.md R260, R261, R263: the tree of an input has one leaf for each symbol of the input and one for `EOS`;
it is what the merge loop makes of those leaves, numbered in ascending symbol order, each with its count; the header is
the pre-order grammar with 9-bit leaf values, most significant bit first, and that of any tree with `nl` leaves is
`11 * nl - 1` bits long. -/
def Obligations.HuffmanTreeLeavesAndHeaderLength : Prop :=
  (∀ s : List Nat, (∀ v ∈ s, v ≤ 256) →
    let symbols := (List.range 258).filter fun v => v == 257 || s.contains v
    (treeSymbols (buildTree s)).Perm symbols ∧
      MergesTo symbols.length
        (symbols.zipIdx.map fun c => { fr := if c.1 = 257 then 1 else s.count c.1, seq := c.2, tree := .leaf c.1 })
        (buildTree s)) ∧
  (∀ v : Nat, serialize (.leaf v) = true :: (List.range 9).map fun q => v.testBit (8 - q)) ∧
  (∀ left right : Tree, serialize (.node left right) = false :: (serialize left ++ serialize right)) ∧
  ∀ root : Tree, (serialize root).length = 11 * (treeSymbols root).length - 1

/-- 44_huffman.md R262, R268: the codes of a tree are its root-to-leaf paths, 0 to the left; in the tree of any input no
symbol's code begins another symbol's code; the degenerate tree, that of the empty input, has the one code `0`. -/
def Obligations.HuffmanCodesArePrefixFree : Prop :=
  (∀ (s : List Nat) (u v : Nat), (∀ w ∈ s, w ≤ 256) → u ∈ treeSymbols (buildTree s) → v ∈ treeSymbols (buildTree s) →
    u ≠ v → ¬ codeOf (buildTree s) u <+: codeOf (buildTree s) v) ∧
  codes (buildTree []) = [(257, [false])] ∧
  (∀ v : Nat, codes (.leaf v) = [(v, [false])]) ∧
  ∀ left right : Tree, codes (.node left right) = leafPaths (.node left right)

/-- 44_huffman.md R265 to R267, R269: for any tree with distinct leaf symbols up to 257, whoever made it, the header
parses back to the tree, and, where `EOS` is a leaf, a stream of the tree's codes that ends with that of `EOS` decodes
to its symbols; so, decoding the stream of any sequence over `0..256` gives the sequence back. Each time anything may
follow, the destination has room, and exactly the header or the stream is consumed. -/
def Obligations.HuffmanRoundTrip : Prop :=
  let bytes := fun bits : List Bool => bits.map fun b => if b then 1 else 0
  (∀ (root : Tree) (after : List Nat), (treeSymbols root).Nodup → (∀ v ∈ treeSymbols root, v ≤ 257) →
    (∃ st, parseTree (bytes (serialize root) ++ after) 258 0 ⟨0, []⟩ = .ok (root, (serialize root).length, st)) ∧
    ∀ (s : List Nat) (cap : Nat), 257 ∈ treeSymbols root → (∀ v ∈ s, v ∈ treeSymbols root ∧ v ≠ 257) → s.length ≤ cap →
      let bits := serialize root ++ s.flatMap (codeOf root) ++ codeOf root 257
      hufDecode (bytes bits ++ after) cap = .ok (s, bits.length)) ∧
  ∀ (s after : List Nat) (cap : Nat), (∀ v ∈ s, v ≤ 256) → s.length ≤ cap →
    hufDecode (bytes (hufStream s) ++ after) cap = .ok (s, (hufStream s).length)

/-- 42_bwt.md R220, R223, R225: the BWT string made from a byte string and the suffix array of its sentinel-terminated
form has exactly one `SENT`, where that array holds 0, and the walk over it, reversed, is the byte string. -/
def Obligations.BwtRoundTrip : Prop :=
  ∀ (str sa : List Nat), (∀ b ∈ str, b ≤ 255) → IsSuffixArray (str.map Int.ofNat ++ [-1]) sa →
    (bwtString str sa).count 256 = 1 ∧ (bwtString str sa).idxOf 256 = sa.idxOf 0 ∧
      (bwtWalk (bwtString str sa) (str.length + 1) 0).reverse = str
end

