-- ==== Sys2Proof/Laws/Memory.lean ====
section
/-! SUPPORT. The laws of LMEM: what a byte reads after each memory operation, and that every operation keeps the
canonical form and stays inside LMEM. -/

namespace Sys2Proof.Machine

/-! ## One byte -/

@[simp] theorem Memory.read_nil (a : Nat) : Memory.read [] a = Memory.unlisted a := rfl

theorem Memory.read_below {lo a : Nat} {m : Memory} (h : Memory.wfFrom lo m = true) (ha : a < lo) :
    m.read a = Memory.unlisted a := by
  induction m generalizing lo with
  | nil => rfl
  | cons c m ih =>
    obtain ⟨b, v⟩ := c
    simp only [Memory.wfFrom, Bool.and_eq_true, decide_eq_true_eq] at h
    have : b ≠ a := by omega
    simp only [Memory.read, if_neg this]
    exact ih h.2 (by omega)

theorem Memory.wfFrom_mono {lo lo' : Nat} {m : Memory} (h : Memory.wfFrom lo m = true) (hl : lo' ≤ lo) :
    Memory.wfFrom lo' m = true := by
  cases m with
  | nil => rfl
  | cons c m =>
    obtain ⟨b, v⟩ := c
    simp only [Memory.wfFrom, Bool.and_eq_true, decide_eq_true_eq] at h ⊢
    exact ⟨⟨by omega, h.1.2⟩, h.2⟩

/-- A byte written to a memory in canonical form reads back. -/
theorem Memory.read_write_same {lo : Nat} {m : Memory} (h : Memory.wfFrom lo m = true) (a : Nat) (v : Byte) :
    (m.write a v).read a = v := by
  induction m generalizing lo with
  | nil => by_cases hv : v = Memory.unlisted a <;> simp [Memory.write, hv, Memory.read]
  | cons c m ih =>
    obtain ⟨b, w⟩ := c
    have h' := h
    simp only [Memory.wfFrom, Bool.and_eq_true, decide_eq_true_eq] at h'
    by_cases h1 : a < b
    · by_cases hv : v = Memory.unlisted a
      · have : b ≠ a := by omega
        simp only [Memory.write, if_pos h1, if_pos hv, Memory.read, if_neg this]
        rw [Memory.read_below h'.2 (by omega), hv]
      · simp [Memory.write, h1, hv, Memory.read]
    · by_cases h2 : a = b
      · subst h2
        by_cases hv : v = Memory.unlisted a
        · simp only [Memory.write, if_neg h1, if_true, if_pos hv]
          rw [Memory.read_below h'.2 (by omega), hv]
        · simp [Memory.write, hv, Memory.read]
      · have : b ≠ a := fun e => h2 e.symm
        simp only [Memory.write, if_neg h1, if_neg h2, Memory.read, if_neg this]
        exact ih h'.2

/-- A write leaves every other byte alone. -/
theorem Memory.read_write_other (m : Memory) {a b : Nat} (v : Byte) (h : b ≠ a) : (m.write a v).read b = m.read b := by
  induction m with
  | nil => by_cases hv : v = Memory.unlisted a <;> simp [Memory.write, hv, Memory.read, Ne.symm h]
  | cons c m ih =>
    obtain ⟨k, w⟩ := c
    simp only [Memory.write]
    split
    · split
      · rfl
      · simp [Memory.read, Ne.symm h]
    · split
      · next hk =>
        subst hk
        split <;> simp [Memory.read, Ne.symm h]
      · simp only [Memory.read, ih]

theorem Memory.wfFrom_write {lo a : Nat} {m : Memory} (h : Memory.wfFrom lo m = true) (ha : lo ≤ a) (v : Byte) :
    Memory.wfFrom lo (m.write a v) = true := by
  induction m generalizing lo with
  | nil => by_cases hv : v = Memory.unlisted a <;> simp [Memory.write, hv, Memory.wfFrom, ha]
  | cons c m ih =>
    obtain ⟨b, w⟩ := c
    have h' := h
    simp only [Memory.wfFrom, Bool.and_eq_true, decide_eq_true_eq] at h'
    simp only [Memory.write]
    split
    · next hb =>
      split
      · exact h
      · next hv =>
        simp only [Memory.wfFrom, Bool.and_eq_true, decide_eq_true_eq, bne_iff_ne, ne_eq]
        exact ⟨⟨ha, hv⟩, ⟨by omega, by simpa using h'.1.2⟩, h'.2⟩
    · split
      · next hb =>
        subst hb
        split
        · exact Memory.wfFrom_mono h'.2 (by omega)
        · next hv =>
          simp only [Memory.wfFrom, Bool.and_eq_true, decide_eq_true_eq, bne_iff_ne, ne_eq]
          exact ⟨⟨ha, hv⟩, h'.2⟩
      · simp only [Memory.wfFrom, Bool.and_eq_true, decide_eq_true_eq]
        exact ⟨h'.1, ih h'.2 (by omega)⟩

/-- A write keeps the canonical form. -/
theorem Memory.wf_write {m : Memory} (h : m.wf = true) (a : Nat) (v : Byte) : (m.write a v).wf = true :=
  Memory.wfFrom_write h (Nat.zero_le a) v

/-- A write inside LMEM keeps every listed address inside LMEM. -/
theorem Memory.within_write {size a : Nat} {m : Memory} (h : m.within size = true) (ha : a < size) (v : Byte) :
    (m.write a v).within size = true := by
  induction m with
  | nil => by_cases hv : v = Memory.unlisted a <;> simp [Memory.write, hv, Memory.within, ha]
  | cons c m ih =>
    obtain ⟨b, w⟩ := c
    simp only [Memory.within, List.all_cons, Bool.and_eq_true, decide_eq_true_eq] at h ih
    simp only [Memory.write]
    split
    · split <;> simp only [Memory.within, List.all_cons, Bool.and_eq_true, decide_eq_true_eq]
      · exact h
      · exact ⟨ha, h⟩
    · split
      · split <;> simp only [Memory.within, List.all_cons, Bool.and_eq_true, decide_eq_true_eq]
        · exact h.2
        · exact ⟨ha, h.2⟩
      · simp only [Memory.within, List.all_cons, Bool.and_eq_true, decide_eq_true_eq]
        exact ⟨h.1, ih h.2⟩

/-! ## What every operation made of writes keeps -/

/-- `m'` comes from `m` by writes at offsets that satisfy `P`: it keeps the canonical form, stays inside LMEM when
those offsets do, and reads the same everywhere else. -/
structure Memory.WritesOnly (P : Nat → Prop) (m m' : Memory) : Prop where
  wf : m.wf = true → m'.wf = true
  within : ∀ size, (∀ o, P o → o < size) → m.within size = true → m'.within size = true
  elsewhere : ∀ o, ¬ P o → m'.read o = m.read o

theorem Memory.WritesOnly.refl (P : Nat → Prop) (m : Memory) : Memory.WritesOnly P m m :=
  ⟨id, fun _ _ h => h, fun _ _ => rfl⟩

theorem Memory.WritesOnly.trans {P : Nat → Prop} {m m' m'' : Memory} (h : Memory.WritesOnly P m m')
    (h' : Memory.WritesOnly P m' m'') : Memory.WritesOnly P m m'' :=
  ⟨h'.wf ∘ h.wf, fun size hP hm => h'.within size hP (h.within size hP hm),
    fun o ho => (h'.elsewhere o ho).trans (h.elsewhere o ho)⟩

theorem Memory.WritesOnly.mono {P Q : Nat → Prop} {m m' : Memory} (h : Memory.WritesOnly P m m') (hPQ : ∀ o, P o → Q o) :
    Memory.WritesOnly Q m m' :=
  ⟨h.wf, fun size hQ => h.within size fun o ho => hQ o (hPQ o ho), fun o ho => h.elsewhere o fun hp => ho (hPQ o hp)⟩

theorem Memory.writesOnly_write {P : Nat → Prop} {a : Nat} (m : Memory) (v : Byte) (h : P a) :
    Memory.WritesOnly P m (m.write a v) :=
  ⟨fun hw => Memory.wf_write hw a v, fun _ hP hm => Memory.within_write hm (hP a h) v,
    fun _ ho => Memory.read_write_other m v fun e => ho (e ▸ h)⟩

/-- `MemWrite` writes only the bytes `[o, o + n)`. -/
theorem memWrite_writesOnly (m : Memory) (o n v : Nat) :
    Memory.WritesOnly (fun a => o ≤ a ∧ a < o + n) m (memWrite m o n v) := by
  induction n generalizing m o v with
  | zero => exact Memory.WritesOnly.refl _ _
  | succ n ih =>
    exact (Memory.writesOnly_write m _ ⟨by omega, by omega⟩).trans
      ((ih _ _ _).mono fun a ha => ⟨by omega, by omega⟩)

theorem scramble_writesOnly (m : Memory) (d o n : Nat) :
    Memory.WritesOnly (fun a => o ≤ a ∧ a < o + n) m (scramble m d o n) := by
  induction n generalizing m d o with
  | zero => exact Memory.WritesOnly.refl _ _
  | succ n ih =>
    exact (Memory.writesOnly_write m _ ⟨by omega, by omega⟩).trans
      ((ih _ _ _).mono fun a ha => ⟨by omega, by omega⟩)

theorem scrambleAt_writesOnly (m : Memory) (d : Nat) (os : List Nat) :
    Memory.WritesOnly (fun a => a ∈ os) m (scrambleAt m d os) := by
  induction os generalizing m d with
  | nil => exact Memory.WritesOnly.refl _ _
  | cons o os ih =>
    exact (Memory.writesOnly_write m _ (by simp)).trans ((ih _ _).mono fun a ha => by simp [ha])

/-- The `PutElem` calls of a command write only the bytes of its elements. -/
theorem putElems_writesOnly (f : Fmt) (base i : Nat) (vs : List Nat) (m : Memory) :
    Memory.WritesOnly (fun a => base + fmtSize f * i ≤ a ∧ a < base + fmtSize f * (i + vs.length)) m
      (putElems f base i vs m) := by
  induction vs generalizing i m with
  | nil => exact Memory.WritesOnly.refl _ _
  | cons v vs ih =>
    refine ((memWrite_writesOnly m _ _ v).mono ?_).trans ((ih (i + 1) _).mono ?_)
    · intro a ha
      simp only [List.length_cons, Nat.mul_add, Nat.mul_one] at ha ⊢
      omega
    · intro a ha
      simp only [List.length_cons, Nat.mul_add, Nat.mul_one] at ha ⊢
      omega

/-- A region that became unspecified: only its own bytes inside LMEM were written. -/
theorem scrambleRegion_writesOnly (p : Params) (d : Nat) (g : Option Region) (m : Memory) :
    Memory.WritesOnly (fun a => g.any (fun h => h.covers a) = true ∧ a < p.lmemBytes) m (scrambleRegion p d g m).1 := by
  cases g with
  | none => exact Memory.WritesOnly.refl _ _
  | some g =>
    refine (scramble_writesOnly m d g.addr (min g.bytes (p.lmemBytes - g.addr))).mono ?_
    intro a ha
    simp only [Option.any_some, Region.covers, Bool.and_eq_true, decide_eq_true_eq]
    omega

theorem Memory.ofCells_wf_within (size : Nat) (cells : List Host.Cell) :
    (Memory.ofCells size cells).wf = true ∧ (Memory.ofCells size cells).within size = true := by
  suffices h : ∀ m : Memory, m.wf = true → m.within size = true →
      (cells.foldl (fun m c => if c.1 < size then m.write c.1 c.2 else m) m).wf = true ∧
      (cells.foldl (fun m c => if c.1 < size then m.write c.1 c.2 else m) m).within size = true from h [] rfl rfl
  induction cells with
  | nil => exact fun m h1 h2 => ⟨h1, h2⟩
  | cons c cells ih =>
    intro m h1 h2
    simp only [List.foldl_cons]
    split
    · next hc => exact ih _ (Memory.wf_write h1 _ _) (Memory.within_write h2 hc _)
    · exact ih _ h1 h2

/-! ## Little-endian values -/

/-- `MemRead` depends only on the bytes it covers. -/
theorem memRead_congr {m m' : Memory} {o n : Nat} (h : ∀ a, o ≤ a → a < o + n → m'.read a = m.read a) :
    memRead m' o n = memRead m o n := by
  induction n generalizing o with
  | zero => rfl
  | succ n ih =>
    simp only [memRead]
    rw [h o (by omega) (by omega), ih fun a h1 h2 => h a (by omega) (by omega)]

/-- A read of the bytes just written gives the low bytes of the value (20_memory.md R77). -/
theorem memRead_memWrite_same {m : Memory} (hm : m.wf = true) (o n v : Nat) :
    memRead (memWrite m o n v) o n = v % 256 ^ n := by
  induction n generalizing m o v with
  | zero => simp [memRead, Nat.mod_one]
  | succ n ih =>
    have hw : (m.write o (BitVec.ofNat 8 v)).wf = true := Memory.wf_write hm _ _
    have hb : (memWrite (m.write o (BitVec.ofNat 8 v)) (o + 1) n (v / 256)).read o = BitVec.ofNat 8 v := by
      rw [(memWrite_writesOnly _ _ _ _).elsewhere o (by omega)]
      exact Memory.read_write_same hm _ _
    simp only [memRead, memWrite, hb, ih hw, BitVec.toNat_ofNat]
    rw [show 256 ^ (n + 1) = 256 * 256 ^ n from Nat.pow_succ', Nat.mod_mul]

/-- The elements a command wrote read back (20_memory.md R77, R79). -/
theorem elem_putElems {m : Memory} (hm : m.wf = true) (f : Fmt) (base : Nat) (vs : List Nat) (i : Nat) {k : Nat}
    (hk : k < vs.length) :
    elem f (putElems f base i vs m) base (i + k) = vs.getD k 0 % 256 ^ fmtSize f := by
  induction vs generalizing i m k with
  | nil => simp at hk
  | cons v vs ih =>
    have hw : (putElem f base i v m).wf = true := (memWrite_writesOnly _ _ _ _).wf hm
    cases k with
    | zero =>
      simp only [putElems, Nat.add_zero, List.getD_cons_zero]
      unfold elem
      rw [memRead_congr (m := putElem f base i v m)]
      · exact memRead_memWrite_same hm _ _ _
      · intro a h1 h2
        refine (putElems_writesOnly _ _ _ _ _).elsewhere a ?_
        simp only [Nat.mul_add, Nat.mul_one]
        omega
    | succ k =>
      have := ih hw (i + 1) (k := k) (by simpa using hk)
      simp only [putElems, List.getD_cons_succ]
      rw [show i + (k + 1) = i + 1 + k by omega]
      exact this

end Sys2Proof.Machine
end

