-- ==== Sys2Proof/Laws/State.lean ====
section
/-! SUPPORT. What each state update leaves in each field, one lemma per field and update, true by `rfl`, so that no
later proof unfolds a record update. -/

namespace Sys2Proof.Machine

/-! ## `completeOk` -/

@[simp] theorem completeOk_params (r0 r1 : Nat) (s : State) : (completeOk r0 r1 s).params = s.params := rfl
@[simp] theorem completeOk_cmd (r0 r1 : Nat) (s : State) : (completeOk r0 r1 s).cmd = s.cmd := rfl
@[simp] theorem completeOk_done (r0 r1 : Nat) (s : State) : (completeOk r0 r1 s).done = true := rfl
@[simp] theorem completeOk_err (r0 r1 : Nat) (s : State) : (completeOk r0 r1 s).err = false := rfl
@[simp] theorem completeOk_drop (r0 r1 : Nat) (s : State) : (completeOk r0 r1 s).drop = s.drop := rfl
@[simp] theorem completeOk_errCode (r0 r1 : Nat) (s : State) : (completeOk r0 r1 s).errCode = 0 := rfl
@[simp] theorem completeOk_doneIE (r0 r1 : Nat) (s : State) : (completeOk r0 r1 s).doneIE = s.doneIE := rfl
@[simp] theorem completeOk_doneIP (r0 r1 : Nat) (s : State) : (completeOk r0 r1 s).doneIP = true := rfl
@[simp] theorem completeOk_errInfo (r0 r1 : Nat) (s : State) : (completeOk r0 r1 s).errInfo = 0 := rfl
@[simp] theorem completeOk_result0 (r0 r1 : Nat) (s : State) : (completeOk r0 r1 s).result0 = BitVec.ofNat 32 r0 := rfl
@[simp] theorem completeOk_result1 (r0 r1 : Nat) (s : State) : (completeOk r0 r1 s).result1 = BitVec.ofNat 32 r1 := rfl
@[simp] theorem completeOk_args (r0 r1 : Nat) (s : State) : (completeOk r0 r1 s).args = s.args := rfl
@[simp] theorem completeOk_mtfSeed (r0 r1 : Nat) (s : State) : (completeOk r0 r1 s).mtfSeed = s.mtfSeed := rfl
@[simp] theorem completeOk_seq (r0 r1 : Nat) (s : State) : (completeOk r0 r1 s).seq = .idle := rfl
@[simp] theorem completeOk_lmem (r0 r1 : Nat) (s : State) : (completeOk r0 r1 s).lmem = s.lmem := rfl
@[simp] theorem completeOk_agenda (r0 r1 : Nat) (s : State) : (completeOk r0 r1 s).agenda = s.agenda := rfl
@[simp] theorem completeOk_rdata (r0 r1 : Nat) (s : State) : (completeOk r0 r1 s).rdata = s.rdata := rfl
@[simp] theorem completeOk_draws (r0 r1 : Nat) (s : State) : (completeOk r0 r1 s).draws = s.draws := rfl

/-! ## `completeErr` -/

@[simp] theorem completeErr_params (e : ErrCode) (info : Nat) (s : State) : (completeErr e info s).params = s.params := rfl
@[simp] theorem completeErr_cmd (e : ErrCode) (info : Nat) (s : State) : (completeErr e info s).cmd = s.cmd := rfl
@[simp] theorem completeErr_done (e : ErrCode) (info : Nat) (s : State) : (completeErr e info s).done = true := rfl
@[simp] theorem completeErr_err (e : ErrCode) (info : Nat) (s : State) : (completeErr e info s).err = true := rfl
@[simp] theorem completeErr_drop (e : ErrCode) (info : Nat) (s : State) : (completeErr e info s).drop = s.drop := rfl
@[simp] theorem completeErr_errCode (e : ErrCode) (info : Nat) (s : State) : (completeErr e info s).errCode = errCodeByte e := rfl
@[simp] theorem completeErr_doneIE (e : ErrCode) (info : Nat) (s : State) : (completeErr e info s).doneIE = s.doneIE := rfl
@[simp] theorem completeErr_doneIP (e : ErrCode) (info : Nat) (s : State) : (completeErr e info s).doneIP = true := rfl
@[simp] theorem completeErr_errInfo (e : ErrCode) (info : Nat) (s : State) : (completeErr e info s).errInfo = BitVec.ofNat 32 info := rfl
@[simp] theorem completeErr_result0 (e : ErrCode) (info : Nat) (s : State) : (completeErr e info s).result0 = 0 := rfl
@[simp] theorem completeErr_result1 (e : ErrCode) (info : Nat) (s : State) : (completeErr e info s).result1 = 0 := rfl
@[simp] theorem completeErr_args (e : ErrCode) (info : Nat) (s : State) : (completeErr e info s).args = s.args := rfl
@[simp] theorem completeErr_mtfSeed (e : ErrCode) (info : Nat) (s : State) : (completeErr e info s).mtfSeed = s.mtfSeed := rfl
@[simp] theorem completeErr_seq (e : ErrCode) (info : Nat) (s : State) : (completeErr e info s).seq = .idle := rfl
@[simp] theorem completeErr_lmem (e : ErrCode) (info : Nat) (s : State) : (completeErr e info s).lmem = s.lmem := rfl
@[simp] theorem completeErr_agenda (e : ErrCode) (info : Nat) (s : State) : (completeErr e info s).agenda = s.agenda := rfl
@[simp] theorem completeErr_rdata (e : ErrCode) (info : Nat) (s : State) : (completeErr e info s).rdata = s.rdata := rfl
@[simp] theorem completeErr_draws (e : ErrCode) (info : Nat) (s : State) : (completeErr e info s).draws = s.draws := rfl

/-! ## `withMem` -/

@[simp] theorem withMem_params (m : Memory) (n : Nat) (s : State) : (withMem m n s).params = s.params := rfl
@[simp] theorem withMem_cmd (m : Memory) (n : Nat) (s : State) : (withMem m n s).cmd = s.cmd := rfl
@[simp] theorem withMem_done (m : Memory) (n : Nat) (s : State) : (withMem m n s).done = s.done := rfl
@[simp] theorem withMem_err (m : Memory) (n : Nat) (s : State) : (withMem m n s).err = s.err := rfl
@[simp] theorem withMem_drop (m : Memory) (n : Nat) (s : State) : (withMem m n s).drop = s.drop := rfl
@[simp] theorem withMem_errCode (m : Memory) (n : Nat) (s : State) : (withMem m n s).errCode = s.errCode := rfl
@[simp] theorem withMem_doneIE (m : Memory) (n : Nat) (s : State) : (withMem m n s).doneIE = s.doneIE := rfl
@[simp] theorem withMem_doneIP (m : Memory) (n : Nat) (s : State) : (withMem m n s).doneIP = s.doneIP := rfl
@[simp] theorem withMem_errInfo (m : Memory) (n : Nat) (s : State) : (withMem m n s).errInfo = s.errInfo := rfl
@[simp] theorem withMem_result0 (m : Memory) (n : Nat) (s : State) : (withMem m n s).result0 = s.result0 := rfl
@[simp] theorem withMem_result1 (m : Memory) (n : Nat) (s : State) : (withMem m n s).result1 = s.result1 := rfl
@[simp] theorem withMem_args (m : Memory) (n : Nat) (s : State) : (withMem m n s).args = s.args := rfl
@[simp] theorem withMem_mtfSeed (m : Memory) (n : Nat) (s : State) : (withMem m n s).mtfSeed = s.mtfSeed := rfl
@[simp] theorem withMem_seq (m : Memory) (n : Nat) (s : State) : (withMem m n s).seq = s.seq := rfl
@[simp] theorem withMem_lmem (m : Memory) (n : Nat) (s : State) : (withMem m n s).lmem = m := rfl
@[simp] theorem withMem_agenda (m : Memory) (n : Nat) (s : State) : (withMem m n s).agenda = s.agenda := rfl
@[simp] theorem withMem_rdata (m : Memory) (n : Nat) (s : State) : (withMem m n s).rdata = s.rdata := rfl
@[simp] theorem withMem_draws (m : Memory) (n : Nat) (s : State) : (withMem m n s).draws = s.draws + n := rfl

/-! ## `clearForAcceptance` -/

@[simp] theorem clearForAcceptance_params (s : State) : (clearForAcceptance s).params = s.params := rfl
@[simp] theorem clearForAcceptance_cmd (s : State) : (clearForAcceptance s).cmd = s.cmd := rfl
@[simp] theorem clearForAcceptance_done (s : State) : (clearForAcceptance s).done = false := rfl
@[simp] theorem clearForAcceptance_err (s : State) : (clearForAcceptance s).err = false := rfl
@[simp] theorem clearForAcceptance_drop (s : State) : (clearForAcceptance s).drop = false := rfl
@[simp] theorem clearForAcceptance_errCode (s : State) : (clearForAcceptance s).errCode = 0 := rfl
@[simp] theorem clearForAcceptance_doneIE (s : State) : (clearForAcceptance s).doneIE = s.doneIE := rfl
@[simp] theorem clearForAcceptance_doneIP (s : State) : (clearForAcceptance s).doneIP = s.doneIP := rfl
@[simp] theorem clearForAcceptance_errInfo (s : State) : (clearForAcceptance s).errInfo = 0 := rfl
@[simp] theorem clearForAcceptance_result0 (s : State) : (clearForAcceptance s).result0 = 0 := rfl
@[simp] theorem clearForAcceptance_result1 (s : State) : (clearForAcceptance s).result1 = 0 := rfl
@[simp] theorem clearForAcceptance_args (s : State) : (clearForAcceptance s).args = s.args := rfl
@[simp] theorem clearForAcceptance_mtfSeed (s : State) : (clearForAcceptance s).mtfSeed = s.mtfSeed := rfl
@[simp] theorem clearForAcceptance_seq (s : State) : (clearForAcceptance s).seq = s.seq := rfl
@[simp] theorem clearForAcceptance_lmem (s : State) : (clearForAcceptance s).lmem = s.lmem := rfl
@[simp] theorem clearForAcceptance_agenda (s : State) : (clearForAcceptance s).agenda = s.agenda := rfl
@[simp] theorem clearForAcceptance_rdata (s : State) : (clearForAcceptance s).rdata = s.rdata := rfl
@[simp] theorem clearForAcceptance_draws (s : State) : (clearForAcceptance s).draws = s.draws := rfl

/-! ## `accept` -/

@[simp] theorem accept_params (w : Word) (s : State) : (accept w s).params = s.params := rfl
@[simp] theorem accept_cmd (w : Word) (s : State) : (accept w s).cmd = w := rfl
@[simp] theorem accept_done (w : Word) (s : State) : (accept w s).done = false := rfl
@[simp] theorem accept_err (w : Word) (s : State) : (accept w s).err = false := rfl
@[simp] theorem accept_drop (w : Word) (s : State) : (accept w s).drop = false := rfl
@[simp] theorem accept_errCode (w : Word) (s : State) : (accept w s).errCode = 0 := rfl
@[simp] theorem accept_doneIE (w : Word) (s : State) : (accept w s).doneIE = s.doneIE := rfl
@[simp] theorem accept_doneIP (w : Word) (s : State) : (accept w s).doneIP = s.doneIP := rfl
@[simp] theorem accept_errInfo (w : Word) (s : State) : (accept w s).errInfo = 0 := rfl
@[simp] theorem accept_result0 (w : Word) (s : State) : (accept w s).result0 = 0 := rfl
@[simp] theorem accept_result1 (w : Word) (s : State) : (accept w s).result1 = 0 := rfl
@[simp] theorem accept_args (w : Word) (s : State) : (accept w s).args = s.args := rfl
@[simp] theorem accept_mtfSeed (w : Word) (s : State) : (accept w s).mtfSeed = s.mtfSeed := rfl
@[simp] theorem accept_seq (w : Word) (s : State) : (accept w s).seq = .busy { latch := { cmd := w, args := s.args, seed := latchedSeed w s.mtfSeed }, srcTouched := false, dstTouched := [] } := rfl
@[simp] theorem accept_lmem (w : Word) (s : State) : (accept w s).lmem = s.lmem := rfl
@[simp] theorem accept_agenda (w : Word) (s : State) : (accept w s).agenda = s.agenda := rfl
@[simp] theorem accept_rdata (w : Word) (s : State) : (accept w s).rdata = s.rdata := rfl
@[simp] theorem accept_draws (w : Word) (s : State) : (accept w s).draws = s.draws := rfl

/-! ## `dropCommand` -/

@[simp] theorem dropCommand_params (s : State) : (dropCommand s).params = s.params := rfl
@[simp] theorem dropCommand_cmd (s : State) : (dropCommand s).cmd = s.cmd := rfl
@[simp] theorem dropCommand_done (s : State) : (dropCommand s).done = s.done := rfl
@[simp] theorem dropCommand_err (s : State) : (dropCommand s).err = s.err := rfl
@[simp] theorem dropCommand_drop (s : State) : (dropCommand s).drop = true := rfl
@[simp] theorem dropCommand_errCode (s : State) : (dropCommand s).errCode = s.errCode := rfl
@[simp] theorem dropCommand_doneIE (s : State) : (dropCommand s).doneIE = s.doneIE := rfl
@[simp] theorem dropCommand_doneIP (s : State) : (dropCommand s).doneIP = s.doneIP := rfl
@[simp] theorem dropCommand_errInfo (s : State) : (dropCommand s).errInfo = s.errInfo := rfl
@[simp] theorem dropCommand_result0 (s : State) : (dropCommand s).result0 = s.result0 := rfl
@[simp] theorem dropCommand_result1 (s : State) : (dropCommand s).result1 = s.result1 := rfl
@[simp] theorem dropCommand_args (s : State) : (dropCommand s).args = s.args := rfl
@[simp] theorem dropCommand_mtfSeed (s : State) : (dropCommand s).mtfSeed = s.mtfSeed := rfl
@[simp] theorem dropCommand_seq (s : State) : (dropCommand s).seq = s.seq := rfl
@[simp] theorem dropCommand_lmem (s : State) : (dropCommand s).lmem = s.lmem := rfl
@[simp] theorem dropCommand_agenda (s : State) : (dropCommand s).agenda = s.agenda := rfl
@[simp] theorem dropCommand_rdata (s : State) : (dropCommand s).rdata = s.rdata := rfl
@[simp] theorem dropCommand_draws (s : State) : (dropCommand s).draws = s.draws := rfl

/-! ## `writeIrqEn` -/

@[simp] theorem writeIrqEn_params (v : Word) (s : State) : (writeIrqEn v s).params = s.params := rfl
@[simp] theorem writeIrqEn_cmd (v : Word) (s : State) : (writeIrqEn v s).cmd = s.cmd := rfl
@[simp] theorem writeIrqEn_done (v : Word) (s : State) : (writeIrqEn v s).done = s.done := rfl
@[simp] theorem writeIrqEn_err (v : Word) (s : State) : (writeIrqEn v s).err = s.err := rfl
@[simp] theorem writeIrqEn_drop (v : Word) (s : State) : (writeIrqEn v s).drop = s.drop := rfl
@[simp] theorem writeIrqEn_errCode (v : Word) (s : State) : (writeIrqEn v s).errCode = s.errCode := rfl
@[simp] theorem writeIrqEn_doneIE (v : Word) (s : State) : (writeIrqEn v s).doneIE = v.getLsbD 0 := rfl
@[simp] theorem writeIrqEn_doneIP (v : Word) (s : State) : (writeIrqEn v s).doneIP = s.doneIP := rfl
@[simp] theorem writeIrqEn_errInfo (v : Word) (s : State) : (writeIrqEn v s).errInfo = s.errInfo := rfl
@[simp] theorem writeIrqEn_result0 (v : Word) (s : State) : (writeIrqEn v s).result0 = s.result0 := rfl
@[simp] theorem writeIrqEn_result1 (v : Word) (s : State) : (writeIrqEn v s).result1 = s.result1 := rfl
@[simp] theorem writeIrqEn_args (v : Word) (s : State) : (writeIrqEn v s).args = s.args := rfl
@[simp] theorem writeIrqEn_mtfSeed (v : Word) (s : State) : (writeIrqEn v s).mtfSeed = s.mtfSeed := rfl
@[simp] theorem writeIrqEn_seq (v : Word) (s : State) : (writeIrqEn v s).seq = s.seq := rfl
@[simp] theorem writeIrqEn_lmem (v : Word) (s : State) : (writeIrqEn v s).lmem = s.lmem := rfl
@[simp] theorem writeIrqEn_agenda (v : Word) (s : State) : (writeIrqEn v s).agenda = s.agenda := rfl
@[simp] theorem writeIrqEn_rdata (v : Word) (s : State) : (writeIrqEn v s).rdata = s.rdata := rfl
@[simp] theorem writeIrqEn_draws (v : Word) (s : State) : (writeIrqEn v s).draws = s.draws := rfl

/-! ## `writeIrqStatus` -/

@[simp] theorem writeIrqStatus_params (v : Word) (s : State) : (writeIrqStatus v s).params = s.params := rfl
@[simp] theorem writeIrqStatus_cmd (v : Word) (s : State) : (writeIrqStatus v s).cmd = s.cmd := rfl
@[simp] theorem writeIrqStatus_done (v : Word) (s : State) : (writeIrqStatus v s).done = s.done := rfl
@[simp] theorem writeIrqStatus_err (v : Word) (s : State) : (writeIrqStatus v s).err = s.err := rfl
@[simp] theorem writeIrqStatus_drop (v : Word) (s : State) : (writeIrqStatus v s).drop = s.drop := rfl
@[simp] theorem writeIrqStatus_errCode (v : Word) (s : State) : (writeIrqStatus v s).errCode = s.errCode := rfl
@[simp] theorem writeIrqStatus_doneIE (v : Word) (s : State) : (writeIrqStatus v s).doneIE = s.doneIE := rfl
@[simp] theorem writeIrqStatus_doneIP (v : Word) (s : State) : (writeIrqStatus v s).doneIP = (s.doneIP && !v.getLsbD 0) := rfl
@[simp] theorem writeIrqStatus_errInfo (v : Word) (s : State) : (writeIrqStatus v s).errInfo = s.errInfo := rfl
@[simp] theorem writeIrqStatus_result0 (v : Word) (s : State) : (writeIrqStatus v s).result0 = s.result0 := rfl
@[simp] theorem writeIrqStatus_result1 (v : Word) (s : State) : (writeIrqStatus v s).result1 = s.result1 := rfl
@[simp] theorem writeIrqStatus_args (v : Word) (s : State) : (writeIrqStatus v s).args = s.args := rfl
@[simp] theorem writeIrqStatus_mtfSeed (v : Word) (s : State) : (writeIrqStatus v s).mtfSeed = s.mtfSeed := rfl
@[simp] theorem writeIrqStatus_seq (v : Word) (s : State) : (writeIrqStatus v s).seq = s.seq := rfl
@[simp] theorem writeIrqStatus_lmem (v : Word) (s : State) : (writeIrqStatus v s).lmem = s.lmem := rfl
@[simp] theorem writeIrqStatus_agenda (v : Word) (s : State) : (writeIrqStatus v s).agenda = s.agenda := rfl
@[simp] theorem writeIrqStatus_rdata (v : Word) (s : State) : (writeIrqStatus v s).rdata = s.rdata := rfl
@[simp] theorem writeIrqStatus_draws (v : Word) (s : State) : (writeIrqStatus v s).draws = s.draws := rfl

/-! ## `writeArgs` -/

@[simp] theorem writeArgs_params (f : Args → Args) (s : State) : (writeArgs f s).params = s.params := rfl
@[simp] theorem writeArgs_cmd (f : Args → Args) (s : State) : (writeArgs f s).cmd = s.cmd := rfl
@[simp] theorem writeArgs_done (f : Args → Args) (s : State) : (writeArgs f s).done = s.done := rfl
@[simp] theorem writeArgs_err (f : Args → Args) (s : State) : (writeArgs f s).err = s.err := rfl
@[simp] theorem writeArgs_drop (f : Args → Args) (s : State) : (writeArgs f s).drop = s.drop := rfl
@[simp] theorem writeArgs_errCode (f : Args → Args) (s : State) : (writeArgs f s).errCode = s.errCode := rfl
@[simp] theorem writeArgs_doneIE (f : Args → Args) (s : State) : (writeArgs f s).doneIE = s.doneIE := rfl
@[simp] theorem writeArgs_doneIP (f : Args → Args) (s : State) : (writeArgs f s).doneIP = s.doneIP := rfl
@[simp] theorem writeArgs_errInfo (f : Args → Args) (s : State) : (writeArgs f s).errInfo = s.errInfo := rfl
@[simp] theorem writeArgs_result0 (f : Args → Args) (s : State) : (writeArgs f s).result0 = s.result0 := rfl
@[simp] theorem writeArgs_result1 (f : Args → Args) (s : State) : (writeArgs f s).result1 = s.result1 := rfl
@[simp] theorem writeArgs_args (f : Args → Args) (s : State) : (writeArgs f s).args = f s.args := rfl
@[simp] theorem writeArgs_mtfSeed (f : Args → Args) (s : State) : (writeArgs f s).mtfSeed = s.mtfSeed := rfl
@[simp] theorem writeArgs_seq (f : Args → Args) (s : State) : (writeArgs f s).seq = s.seq := rfl
@[simp] theorem writeArgs_lmem (f : Args → Args) (s : State) : (writeArgs f s).lmem = s.lmem := rfl
@[simp] theorem writeArgs_agenda (f : Args → Args) (s : State) : (writeArgs f s).agenda = s.agenda := rfl
@[simp] theorem writeArgs_rdata (f : Args → Args) (s : State) : (writeArgs f s).rdata = s.rdata := rfl
@[simp] theorem writeArgs_draws (f : Args → Args) (s : State) : (writeArgs f s).draws = s.draws := rfl

/-! ## `writeSeed` -/

@[simp] theorem writeSeed_params (w : Fin 64) (v : Word) (s : State) : (writeSeed w v s).params = s.params := rfl
@[simp] theorem writeSeed_cmd (w : Fin 64) (v : Word) (s : State) : (writeSeed w v s).cmd = s.cmd := rfl
@[simp] theorem writeSeed_done (w : Fin 64) (v : Word) (s : State) : (writeSeed w v s).done = s.done := rfl
@[simp] theorem writeSeed_err (w : Fin 64) (v : Word) (s : State) : (writeSeed w v s).err = s.err := rfl
@[simp] theorem writeSeed_drop (w : Fin 64) (v : Word) (s : State) : (writeSeed w v s).drop = s.drop := rfl
@[simp] theorem writeSeed_errCode (w : Fin 64) (v : Word) (s : State) : (writeSeed w v s).errCode = s.errCode := rfl
@[simp] theorem writeSeed_doneIE (w : Fin 64) (v : Word) (s : State) : (writeSeed w v s).doneIE = s.doneIE := rfl
@[simp] theorem writeSeed_doneIP (w : Fin 64) (v : Word) (s : State) : (writeSeed w v s).doneIP = s.doneIP := rfl
@[simp] theorem writeSeed_errInfo (w : Fin 64) (v : Word) (s : State) : (writeSeed w v s).errInfo = s.errInfo := rfl
@[simp] theorem writeSeed_result0 (w : Fin 64) (v : Word) (s : State) : (writeSeed w v s).result0 = s.result0 := rfl
@[simp] theorem writeSeed_result1 (w : Fin 64) (v : Word) (s : State) : (writeSeed w v s).result1 = s.result1 := rfl
@[simp] theorem writeSeed_args (w : Fin 64) (v : Word) (s : State) : (writeSeed w v s).args = s.args := rfl
@[simp] theorem writeSeed_mtfSeed (w : Fin 64) (v : Word) (s : State) : (writeSeed w v s).mtfSeed = s.mtfSeed.set w.val v := rfl
@[simp] theorem writeSeed_seq (w : Fin 64) (v : Word) (s : State) : (writeSeed w v s).seq = s.seq := rfl
@[simp] theorem writeSeed_lmem (w : Fin 64) (v : Word) (s : State) : (writeSeed w v s).lmem = s.lmem := rfl
@[simp] theorem writeSeed_agenda (w : Fin 64) (v : Word) (s : State) : (writeSeed w v s).agenda = s.agenda := rfl
@[simp] theorem writeSeed_rdata (w : Fin 64) (v : Word) (s : State) : (writeSeed w v s).rdata = s.rdata := rfl
@[simp] theorem writeSeed_draws (w : Fin 64) (v : Word) (s : State) : (writeSeed w v s).draws = s.draws := rfl

/-! ## `settleTouched` -/

@[simp] theorem settleTouched_params (r : Running) (s : State) : (settleTouched r s).params = s.params := rfl
@[simp] theorem settleTouched_cmd (r : Running) (s : State) : (settleTouched r s).cmd = s.cmd := rfl
@[simp] theorem settleTouched_done (r : Running) (s : State) : (settleTouched r s).done = s.done := rfl
@[simp] theorem settleTouched_err (r : Running) (s : State) : (settleTouched r s).err = s.err := rfl
@[simp] theorem settleTouched_drop (r : Running) (s : State) : (settleTouched r s).drop = s.drop := rfl
@[simp] theorem settleTouched_errCode (r : Running) (s : State) : (settleTouched r s).errCode = s.errCode := rfl
@[simp] theorem settleTouched_doneIE (r : Running) (s : State) : (settleTouched r s).doneIE = s.doneIE := rfl
@[simp] theorem settleTouched_doneIP (r : Running) (s : State) : (settleTouched r s).doneIP = s.doneIP := rfl
@[simp] theorem settleTouched_errInfo (r : Running) (s : State) : (settleTouched r s).errInfo = s.errInfo := rfl
@[simp] theorem settleTouched_result0 (r : Running) (s : State) : (settleTouched r s).result0 = s.result0 := rfl
@[simp] theorem settleTouched_result1 (r : Running) (s : State) : (settleTouched r s).result1 = s.result1 := rfl
@[simp] theorem settleTouched_args (r : Running) (s : State) : (settleTouched r s).args = s.args := rfl
@[simp] theorem settleTouched_mtfSeed (r : Running) (s : State) : (settleTouched r s).mtfSeed = s.mtfSeed := rfl
@[simp] theorem settleTouched_seq (r : Running) (s : State) : (settleTouched r s).seq = s.seq := rfl
@[simp] theorem settleTouched_lmem (r : Running) (s : State) : (settleTouched r s).lmem = scrambleAt s.lmem s.draws r.dstTouched := rfl
@[simp] theorem settleTouched_agenda (r : Running) (s : State) : (settleTouched r s).agenda = s.agenda := rfl
@[simp] theorem settleTouched_rdata (r : Running) (s : State) : (settleTouched r s).rdata = s.rdata := rfl
@[simp] theorem settleTouched_draws (r : Running) (s : State) : (settleTouched r s).draws = s.draws + r.dstTouched.length := rfl

/-! ## `scrambleDst` -/

@[simp] theorem scrambleDst_params (l : Latch) (s : State) : (scrambleDst l s).params = s.params := rfl
@[simp] theorem scrambleDst_cmd (l : Latch) (s : State) : (scrambleDst l s).cmd = s.cmd := rfl
@[simp] theorem scrambleDst_done (l : Latch) (s : State) : (scrambleDst l s).done = s.done := rfl
@[simp] theorem scrambleDst_err (l : Latch) (s : State) : (scrambleDst l s).err = s.err := rfl
@[simp] theorem scrambleDst_drop (l : Latch) (s : State) : (scrambleDst l s).drop = s.drop := rfl
@[simp] theorem scrambleDst_errCode (l : Latch) (s : State) : (scrambleDst l s).errCode = s.errCode := rfl
@[simp] theorem scrambleDst_doneIE (l : Latch) (s : State) : (scrambleDst l s).doneIE = s.doneIE := rfl
@[simp] theorem scrambleDst_doneIP (l : Latch) (s : State) : (scrambleDst l s).doneIP = s.doneIP := rfl
@[simp] theorem scrambleDst_errInfo (l : Latch) (s : State) : (scrambleDst l s).errInfo = s.errInfo := rfl
@[simp] theorem scrambleDst_result0 (l : Latch) (s : State) : (scrambleDst l s).result0 = s.result0 := rfl
@[simp] theorem scrambleDst_result1 (l : Latch) (s : State) : (scrambleDst l s).result1 = s.result1 := rfl
@[simp] theorem scrambleDst_args (l : Latch) (s : State) : (scrambleDst l s).args = s.args := rfl
@[simp] theorem scrambleDst_mtfSeed (l : Latch) (s : State) : (scrambleDst l s).mtfSeed = s.mtfSeed := rfl
@[simp] theorem scrambleDst_seq (l : Latch) (s : State) : (scrambleDst l s).seq = s.seq := rfl
@[simp] theorem scrambleDst_lmem (l : Latch) (s : State) : (scrambleDst l s).lmem = (scrambleRegion s.params s.draws (latchedDst l) s.lmem).1 := rfl
@[simp] theorem scrambleDst_agenda (l : Latch) (s : State) : (scrambleDst l s).agenda = s.agenda := rfl
@[simp] theorem scrambleDst_rdata (l : Latch) (s : State) : (scrambleDst l s).rdata = s.rdata := rfl
@[simp] theorem scrambleDst_draws (l : Latch) (s : State) : (scrambleDst l s).draws = s.draws + (scrambleRegion s.params s.draws (latchedDst l) s.lmem).2 := rfl

/-! ## `softReset` -/

@[simp] theorem softReset_params (s : State) : (softReset s).params = s.params := rfl
@[simp] theorem softReset_cmd (s : State) : (softReset s).cmd = 0 := rfl
@[simp] theorem softReset_done (s : State) : (softReset s).done = false := rfl
@[simp] theorem softReset_err (s : State) : (softReset s).err = false := rfl
@[simp] theorem softReset_drop (s : State) : (softReset s).drop = false := rfl
@[simp] theorem softReset_errCode (s : State) : (softReset s).errCode = 0 := rfl
@[simp] theorem softReset_doneIE (s : State) : (softReset s).doneIE = false := rfl
@[simp] theorem softReset_doneIP (s : State) : (softReset s).doneIP = false := rfl
@[simp] theorem softReset_errInfo (s : State) : (softReset s).errInfo = 0 := rfl
@[simp] theorem softReset_result0 (s : State) : (softReset s).result0 = 0 := rfl
@[simp] theorem softReset_result1 (s : State) : (softReset s).result1 = 0 := rfl
@[simp] theorem softReset_args (s : State) : (softReset s).args = Args.zero := rfl
@[simp] theorem softReset_mtfSeed (s : State) : (softReset s).mtfSeed = identitySeed := rfl
@[simp] theorem softReset_seq (s : State) : (softReset s).seq = .idle := rfl
@[simp] theorem softReset_lmem (s : State) : (softReset s).lmem = (discardRunning s).lmem := rfl
@[simp] theorem softReset_agenda (s : State) : (softReset s).agenda = s.agenda := rfl
@[simp] theorem softReset_rdata (s : State) : (softReset s).rdata = s.rdata := rfl
@[simp] theorem softReset_draws (s : State) : (softReset s).draws = (discardRunning s).draws := rfl

/-! ## `hardResetTo` -/

@[simp] theorem hardResetTo_params (cells : List Host.Cell) (s : State) : (hardResetTo cells s).params = s.params := rfl
@[simp] theorem hardResetTo_cmd (cells : List Host.Cell) (s : State) : (hardResetTo cells s).cmd = 0 := rfl
@[simp] theorem hardResetTo_done (cells : List Host.Cell) (s : State) : (hardResetTo cells s).done = false := rfl
@[simp] theorem hardResetTo_err (cells : List Host.Cell) (s : State) : (hardResetTo cells s).err = false := rfl
@[simp] theorem hardResetTo_drop (cells : List Host.Cell) (s : State) : (hardResetTo cells s).drop = false := rfl
@[simp] theorem hardResetTo_errCode (cells : List Host.Cell) (s : State) : (hardResetTo cells s).errCode = 0 := rfl
@[simp] theorem hardResetTo_doneIE (cells : List Host.Cell) (s : State) : (hardResetTo cells s).doneIE = false := rfl
@[simp] theorem hardResetTo_doneIP (cells : List Host.Cell) (s : State) : (hardResetTo cells s).doneIP = false := rfl
@[simp] theorem hardResetTo_errInfo (cells : List Host.Cell) (s : State) : (hardResetTo cells s).errInfo = 0 := rfl
@[simp] theorem hardResetTo_result0 (cells : List Host.Cell) (s : State) : (hardResetTo cells s).result0 = 0 := rfl
@[simp] theorem hardResetTo_result1 (cells : List Host.Cell) (s : State) : (hardResetTo cells s).result1 = 0 := rfl
@[simp] theorem hardResetTo_args (cells : List Host.Cell) (s : State) : (hardResetTo cells s).args = Args.zero := rfl
@[simp] theorem hardResetTo_mtfSeed (cells : List Host.Cell) (s : State) : (hardResetTo cells s).mtfSeed = identitySeed := rfl
@[simp] theorem hardResetTo_seq (cells : List Host.Cell) (s : State) : (hardResetTo cells s).seq = .idle := rfl
@[simp] theorem hardResetTo_lmem (cells : List Host.Cell) (s : State) : (hardResetTo cells s).lmem = Memory.ofCells s.params.lmemBytes cells := rfl
@[simp] theorem hardResetTo_agenda (cells : List Host.Cell) (s : State) : (hardResetTo cells s).agenda = s.agenda := rfl
@[simp] theorem hardResetTo_rdata (cells : List Host.Cell) (s : State) : (hardResetTo cells s).rdata = s.rdata := rfl
@[simp] theorem hardResetTo_draws (cells : List Host.Cell) (s : State) : (hardResetTo cells s).draws = s.draws := rfl

end Sys2Proof.Machine
end

