-- ==== Sys2Proof/Laws/Command.lean ====
section
/-! SUPPORT. What the shared command operations can do, said once: `PreCheck`, the scans, the completion step
and `runCommand`, abort, soft reset and the host port. Later proofs cite these and unfold none of them. -/

namespace Sys2Proof.Machine

/-! ## PreCheck and the scans -/

theorem firstFailing_eq_none_iff (cs : List Check) : firstFailing cs = none ↔ ∀ c ∈ cs, c.fails = false := by
  simp [firstFailing]

theorem firstFailing_append (cs ds : List Check) :
    firstFailing (cs ++ ds) = (firstFailing cs).or (firstFailing ds) := by
  simp only [firstFailing, List.find?_append, Option.map_or]

/-- `PreCheck` passes exactly when each of its checks does (40_command.md R147). -/
theorem preCheck_eq_none_iff (p : Params) (i : Instr) (l : Latch) :
    preCheck p i l = none ↔ ∀ c ∈ preChecks p i l, c.fails = false :=
  firstFailing_eq_none_iff _

/-- An error of `PreCheck` is that of one of its checks. -/
theorem preCheck_eq_some {p : Params} {i : Instr} {l : Latch} {e : ErrCode} {info : Nat}
    (h : preCheck p i l = some (e, info)) : ∃ c ∈ preChecks p i l, c.fails = true ∧ c.code = e ∧ c.info = info := by
  simp only [preCheck, firstFailing, Option.map_eq_some_iff] at h
  obtain ⟨c, hc, he⟩ := h
  exact ⟨c, List.mem_of_find?_eq_some hc, List.find?_some hc, by simpa using congrArg Prod.fst he, by simpa using congrArg Prod.snd he⟩

/-- All `PreCheck` errors are of class P (40_command.md R147). -/
theorem preCheck_isP {p : Params} {i : Instr} {l : Latch} {e : ErrCode} {info : Nat}
    (h : preCheck p i l = some (e, info)) : errIsW e = false := by
  obtain ⟨c, hc, -, rfl, -⟩ := preCheck_eq_some h
  have hr : ∀ id g, ∀ c ∈ checkRegion p id g, errIsW c.code = false := by
    intro id g c hc
    cases g with
    | none => simp [checkRegion] at hc
    | some g => simp only [checkRegion, List.mem_cons, List.not_mem_nil, or_false] at hc; rcases hc with rfl | rfl <;> rfl
  have ho : ∀ id d g, ∀ c ∈ checkOverlap id d g, errIsW c.code = false := by
    intro id d g c hc
    cases d <;> cases g <;> simp [checkOverlap] at hc
    subst hc; rfl
  have hcap : ∀ c ∈ checkCapacity i l.args, errIsW c.code = false := by
    intro c hc
    unfold checkCapacity at hc
    split at hc
    · simp at hc
    · simp only [List.mem_cons, List.not_mem_nil, or_false] at hc; subst hc; rfl
  have hl : ∀ c ∈ checkLimits p i l.args ++ checkLength i l.args ++ checkSeed i l, errIsW c.code = false := by
    intro c hc
    cases i <;> simp [checkLimits, checkLength, checkSeed] at hc <;> (first | (subst hc; rfl) | (rcases hc with rfl | rfl <;> rfl))
  simp only [preChecks, List.mem_append, List.mem_singleton] at hc
  simp only [List.mem_append] at hl
  rcases hc with ((((((((rfl | h) | h) | h) | h) | h) | h) | h) | h) | h
  · rfl
  · exact hl c (.inl (.inl h))
  · exact hl c (.inl (.inr h))
  · exact hr _ _ c h
  · exact hr _ _ c h
  · exact hr _ _ c h
  · exact ho _ _ _ c h
  · exact ho _ _ _ c h
  · exact hcap c h
  · exact hl c (.inr h)

/-- The static capacity check: a command that passes `PreCheck` has room for what R148 says it needs. -/
theorem preCheck_capacity {p : Params} {i : Instr} {l : Latch} (h : preCheck p i l = none) {req : Nat}
    (hr : requiredCap i l.args = some req) : req ≤ l.args.dstCap.toNat := by
  have := (preCheck_eq_none_iff p i l).1 h { fails := l.args.dstCap.toNat < req, code := .capacity, info := req } (by
    simp [preChecks, checkCapacity, hr])
  simpa using this

/-- The range check on `DST`: a command that passes `PreCheck` has its `DST` inside LMEM (20_memory.md R85). -/
theorem preCheck_dst_range {p : Params} {i : Instr} {l : Latch} (h : preCheck p i l = none) {g : Region}
    (hg : dstRegion i l.args = some g) : g.bytes = 0 ∨ g.addr + g.bytes ≤ p.lmemBytes := by
  have := (preCheck_eq_none_iff p i l).1 h
    { fails := g.bytes != 0 && p.lmemBytes < g.addr + g.bytes, code := .range, info := 2 } (by
    simp [preChecks, checkRegion, hg])
  by_cases hb : g.bytes = 0
  · exact .inl hb
  · exact .inr (by simpa [hb] using this)

/-- The scan finds nothing exactly when no element is bad, given the elements before it. -/
theorem firstBad_eq_none_iff {α : Type} (bad : List α → α → Bool) (seen : List α) (i : Nat) (xs : List α) :
    firstBad bad seen i xs = none ↔
      ∀ k (h : k < xs.length), bad ((xs.take k).reverse ++ seen) xs[k] = false := by
  induction xs generalizing seen i with
  | nil => simp [firstBad]
  | cons x xs ih =>
    simp only [firstBad]
    split
    · next hx =>
      simp only [reduceCtorEq, false_iff, not_forall]
      exact ⟨0, by simp, by simpa using hx⟩
    · next hx =>
      rw [ih]
      constructor
      · intro h k hk
        cases k with
        | zero => simpa using hx
        | succ k =>
          have hk' : k < xs.length := by simpa using hk
          simpa using h k hk'
      · intro h k hk
        have hk' : k + 1 < (x :: xs).length := by simpa using hk
        simpa using h (k + 1) hk'

/-- The scan finds the lowest bad index (60_exceptions.md R324). -/
theorem firstBad_eq_some_iff {α : Type} (bad : List α → α → Bool) (seen : List α) (i j : Nat) (xs : List α) :
    firstBad bad seen i xs = some j ↔
      ∃ k, j = i + k ∧ ∃ h : k < xs.length, bad ((xs.take k).reverse ++ seen) xs[k] = true ∧
        ∀ q (hq : q < k), bad ((xs.take q).reverse ++ seen) xs[q] = false := by
  induction xs generalizing seen i with
  | nil => simp [firstBad]
  | cons x xs ih =>
    simp only [firstBad]
    split
    · next hx =>
      constructor
      · intro h
        refine ⟨0, by simpa using h.symm, by simp, by simpa using hx, ?_⟩
        intro q hq; omega
      · rintro ⟨k, rfl, hk, -, hmin⟩
        cases k with
        | zero => simp
        | succ k => have := hmin 0 (by omega); simp [hx] at this
    · next hx =>
      rw [ih]
      constructor
      · rintro ⟨k, rfl, hk, hb, hmin⟩
        refine ⟨k + 1, by omega, by simpa using hk, by simpa using hb, ?_⟩
        intro q hq
        cases q with
        | zero => simpa using hx
        | succ q => simpa using hmin q (by omega)
      · rintro ⟨k, rfl, hk, hb, hmin⟩
        cases k with
        | zero => simp [hx] at hb
        | succ k =>
          refine ⟨k, by omega, by simpa using hk, by simpa using hb, ?_⟩
          intro q hq
          simpa using hmin (q + 1) (by omega)

/-- No value is above the bound exactly when the scan for one finds none (20_memory.md R80). -/
theorem firstAbove_eq_none_iff (top : Nat) (xs : List Nat) : firstAbove top xs = none ↔ ∀ x ∈ xs, x ≤ top := by
  rw [firstAbove, firstBad_eq_none_iff]
  simp only [decide_eq_false_iff_not, Nat.not_lt]
  constructor
  · intro h x hx
    obtain ⟨k, hk, rfl⟩ := List.getElem_of_mem hx
    exact h k hk
  · intro h k hk
    exact h _ (List.getElem_mem hk)

/-- The first value above the bound is what the scan finds (20_memory.md R80, 60_exceptions.md R324). -/
theorem firstAbove_eq_some_iff (top j : Nat) (xs : List Nat) :
    firstAbove top xs = some j ↔ ∃ h : j < xs.length, top < xs[j] ∧ ∀ q (hq : q < j), xs[q] ≤ top := by
  rw [firstAbove, firstBad_eq_some_iff]
  constructor
  · rintro ⟨k, rfl, hk, hb, hmin⟩
    exact ⟨by simpa using hk, by simpa using hb, fun q hq => by simpa using hmin q (by omega)⟩
  · rintro ⟨hk, hb, hmin⟩
    exact ⟨j, by simp, hk, by simpa using hb, fun q hq => by simpa using hmin q hq⟩

@[simp] theorem elems_length (f : Fmt) (m : Memory) (base n : Nat) : (elems f m base n).length = n := by
  simp [elems]

@[simp] theorem elems_getElem (f : Fmt) (m : Memory) (base n i : Nat) (h : i < (elems f m base n).length) :
    (elems f m base n)[i] = elem f m base i := by
  simp [elems]

/-! ## Acceptance, drop, and the flags -/

@[simp] theorem busy_idle {s : State} (h : s.seq = .idle) : s.busy = false := by simp [State.busy, h]

@[simp] theorem busy_running {s : State} {r : Running} (h : s.seq = .busy r) : s.busy = true := by simp [State.busy, h]

/-- A `CMD` write is accepted when idle (40_command.md R141). -/
theorem writeCmd_idle {s : State} (h : s.seq = .idle) (v : Word) : writeCmd v s = accept v s := by
  simp [writeCmd, h]

/-- A `CMD` write is dropped when busy (40_command.md R142). -/
theorem writeCmd_busy {s : State} {r : Running} (h : s.seq = .busy r) (v : Word) : writeCmd v s = dropCommand s := by
  simp [writeCmd, h]

/-! ## The completion step -/

/-- A running command's step is its completion (40_command.md R143). -/
theorem runCommand_busy {i : Instr} {body : Latch → Memory → Result} {s : State} {r : Running} (h : s.seq = .busy r) :
    runCommand i body s = .next (completion i r (execResult i body s.params r.latch s.lmem) s) := by
  simp [runCommand, h]

/-- With no command running nothing happens (60_exceptions.md R336). -/
theorem runCommand_idle {i : Instr} {body : Latch → Memory → Result} {s : State} (h : s.seq = .idle) :
    runCommand i body s = .next s := by
  simp [runCommand, h]

/-- Everything a command's step can do. -/
theorem runCommand_next {i : Instr} {body : Latch → Memory → Result} {s t : State} (h : runCommand i body s = .next t) :
    (s.seq = .idle ∧ t = s) ∨
      ∃ r, s.seq = .busy r ∧ t = completion i r (execResult i body s.params r.latch s.lmem) s := by
  cases hs : s.seq with
  | idle => rw [runCommand_idle hs] at h; exact .inl ⟨rfl, by simpa using h.symm⟩
  | busy r => rw [runCommand_busy hs] at h; exact .inr ⟨r, rfl, by simpa using h.symm⟩

/-- With no DST byte touched, settling changes nothing. -/
@[simp] theorem settleTouched_nil {r : Running} (h : r.dstTouched = []) (s : State) : settleTouched r s = s := by
  simp [settleTouched, h, scrambleAt, withMem]

/-- A command that ran undisturbed completes with its outcome applied. -/
theorem completion_undisturbed {i : Instr} {r : Running} (h : r.srcTouched = false) (h' : r.dstTouched = [])
    (res : Result) (s : State) : completion i r res s = applyResult i r.latch res s := by
  simp [completion, h, h']

/-- What every completion leaves, whatever the outcome: the host's registers are untouched (10_state.md R21, R43),
the block is idle and the completion is pending (40_command.md R145, R146). -/
structure CompletionFrame (s t : State) : Prop where
  params : t.params = s.params
  cmd : t.cmd = s.cmd
  drop : t.drop = s.drop
  doneIE : t.doneIE = s.doneIE
  args : t.args = s.args
  mtfSeed : t.mtfSeed = s.mtfSeed
  agenda : t.agenda = s.agenda
  rdata : t.rdata = s.rdata
  seq : t.seq = .idle
  done : t.done = true
  doneIP : t.doneIP = true
  errIffCode : t.err = true ↔ t.errCode ≠ 0
  codeListed : t.errCode = 0 ∨ ∃ e : ErrCode, t.errCode = errCodeByte e

theorem errCodeByte_ne_zero (e : ErrCode) : errCodeByte e ≠ 0#8 := by
  cases e <;> decide

theorem writeOutput_eq (i : Instr) (a : Args) (vs : List Nat) (s : State) :
    writeOutput i a vs s = { s with lmem := (writeOutput i a vs s).lmem } := by
  unfold writeOutput
  split <;> rfl

theorem completeOk_frame (r0 r1 : Nat) (s : State) : CompletionFrame s (completeOk r0 r1 s) :=
  ⟨rfl, rfl, rfl, rfl, rfl, rfl, rfl, rfl, rfl, rfl, rfl, by simp, .inl rfl⟩

theorem completeErr_frame (e : ErrCode) (info : Nat) (s : State) : CompletionFrame s (completeErr e info s) :=
  ⟨rfl, rfl, rfl, rfl, rfl, rfl, rfl, rfl, rfl, rfl, rfl, by simp [errCodeByte_ne_zero], .inr ⟨e, rfl⟩⟩

theorem applyResult_frame (i : Instr) (l : Latch) (res : Result) (s : State) : CompletionFrame s (applyResult i l res s) := by
  cases res with
  | ok out =>
    simp only [applyResult]
    rw [writeOutput_eq]
    exact ⟨rfl, rfl, rfl, rfl, rfl, rfl, rfl, rfl, rfl, rfl, rfl, by simp, .inl rfl⟩
  | error e =>
    obtain ⟨e, info⟩ := e
    simp only [applyResult]
    split
    · exact ⟨rfl, rfl, rfl, rfl, rfl, rfl, rfl, rfl, rfl, rfl, rfl, by simp [errCodeByte_ne_zero], .inr ⟨e, rfl⟩⟩
    · exact completeErr_frame e info s

/-- The effect of an outcome does not depend on what is running: it ends it. -/
theorem applyResult_seq (i : Instr) (l : Latch) (res : Result) (s : State) (q : Seq) :
    applyResult i l res { s with seq := q } = applyResult i l res s := by
  cases res with
  | ok out => simp only [applyResult, writeOutput]; cases dstFmt i <;> rfl
  | error e => obtain ⟨e, info⟩ := e; simp only [applyResult]; cases errIsW e <;> rfl

theorem completeHazard_frame (l : Latch) (s : State) : CompletionFrame s (completeHazard l s) := by
  refine ⟨rfl, rfl, rfl, rfl, rfl, rfl, rfl, rfl, rfl, rfl, rfl, ?_, ?_⟩
  · simp only [completeHazard]
    cases Config.freeErr s.draws with
    | none => simp
    | some e => simp [errCodeByte_ne_zero]
  · simp only [completeHazard]
    cases Config.freeErr s.draws with
    | none => exact .inl rfl
    | some e => exact .inr ⟨e, rfl⟩

theorem settleTouched_frame {r : Running} {s t : State} (h : CompletionFrame s t) : CompletionFrame s (settleTouched r t) :=
  ⟨h.params, h.cmd, h.drop, h.doneIE, h.args, h.mtfSeed, h.agenda, h.rdata, h.seq, h.done, h.doneIP, h.errIffCode, h.codeListed⟩

theorem completion_frame (i : Instr) (r : Running) (res : Result) (s : State) : CompletionFrame s (completion i r res s) := by
  unfold completion
  split
  · exact completeHazard_frame r.latch s
  · exact settleTouched_frame (applyResult_frame i r.latch res s)

/-! ## What a completion writes -/

/-- The offsets a completion may write: the latched command's `DST` inside LMEM, and the `DST` bytes the host
wrote while it ran. -/
def MayWrite (p : Params) (r : Running) (o : Nat) : Prop :=
  (inLatchedDst r.latch o = true ∧ o < p.lmemBytes) ∨ o ∈ r.dstTouched

theorem scrambleDst_writesOnly (l : Latch) (s : State) :
    Memory.WritesOnly (fun o => inLatchedDst l o = true ∧ o < s.params.lmemBytes) s.lmem (scrambleDst l s).lmem :=
  scrambleRegion_writesOnly _ _ _ _

/-- A successful command that makes no more `PutElem` calls than its `DST` has elements writes only inside it
(20_memory.md R88). -/
theorem writeOutput_writesOnly {i : Instr} {l : Latch} {vs : List Nat} {s : State} (hop : latchedOp l = some i)
    (hpre : preCheck s.params i l = none) (hlen : vs.length ≤ l.args.dstCap.toNat) :
    Memory.WritesOnly (fun o => inLatchedDst l o = true ∧ o < s.params.lmemBytes) s.lmem (writeOutput i l.args vs s).lmem := by
  unfold writeOutput
  split
  · exact Memory.WritesOnly.refl _ _
  · next f hf =>
    refine (putElems_writesOnly f l.args.dstAddr.toNat 0 vs s.lmem).mono ?_
    intro o ho
    have hg : dstRegion i l.args = some ⟨f, l.args.dstAddr.toNat, l.args.dstCap.toNat * fmtSize f⟩ := by
      simp [dstRegion, hf]
    have hle : fmtSize f * vs.length ≤ l.args.dstCap.toNat * fmtSize f := by
      rw [Nat.mul_comm]; exact Nat.mul_le_mul_right _ hlen
    have hr := preCheck_dst_range hpre hg
    simp only [Nat.mul_zero, Nat.add_zero, Nat.zero_add] at ho
    simp only [inLatchedDst, latchedDst, hop, Option.bind_some, hg, Option.any_some, Region.covers, Bool.and_eq_true,
      decide_eq_true_eq] at hr ⊢
    omega

/-- What a completion writes, when a success makes no more `PutElem` calls than `DST` has elements. -/
theorem completion_writesOnly {i : Instr} {r : Running} {res : Result} {s : State} (hop : latchedOp r.latch = some i)
    (hok : ∀ out, res = .ok out → preCheck s.params i r.latch = none ∧ out.values.length ≤ r.latch.args.dstCap.toNat) :
    Memory.WritesOnly (MayWrite s.params r) s.lmem (completion i r res s).lmem := by
  unfold completion
  split
  · exact (scrambleDst_writesOnly r.latch { s with draws := s.draws + 3 }).mono fun o ho => .inl ho
  · refine Memory.WritesOnly.trans (m' := (applyResult i r.latch res s).lmem) ?_ ?_
    · cases res with
      | ok out =>
        obtain ⟨h1, h2⟩ := hok out rfl
        exact (writeOutput_writesOnly hop h1 h2).mono fun o ho => .inl ho
      | error e =>
        obtain ⟨e, info⟩ := e
        simp only [applyResult]
        split
        · exact (scrambleDst_writesOnly r.latch s).mono fun o ho => .inl ho
        · exact Memory.WritesOnly.refl _ _
    · exact (scrambleAt_writesOnly _ _ _).mono fun o ho => .inr ho

/-- What ends a running command before its completion writes only its `DST` (60_exceptions.md R330,
70_reset_and_hazards.md R363). -/
theorem discardRunning_writesOnly (s : State) :
    Memory.WritesOnly (fun o => o < s.params.lmemBytes ∧ ∃ r, s.seq = .busy r ∧ inLatchedDst r.latch o = true)
      s.lmem (discardRunning s).lmem := by
  unfold discardRunning
  split
  · exact Memory.WritesOnly.refl _ _
  · next r h =>
    split
    · exact (scrambleDst_writesOnly r.latch s).mono fun o ho => ⟨ho.2, r, h, ho.1⟩
    · exact Memory.WritesOnly.refl _ _

/-- And it writes nothing where the command's `PreCheck` would fail. -/
theorem discardRunning_precheck_fails {s : State} {r : Running} (h : s.seq = .busy r)
    (hp : (preCheckLatched s.params r.latch).isSome = true) : discardRunning s = s := by
  rw [discardRunning, h]
  cases hc : preCheckLatched s.params r.latch <;> simp_all

/-- Abort leaves in LMEM what a soft reset would (60_exceptions.md R330). -/
theorem abort_lmem (s : State) : (abort s).lmem = (discardRunning s).lmem := by
  unfold abort
  split
  · next h => simp [discardRunning, h]
  · rfl

/-- With no command running, abort does nothing (60_exceptions.md R330). -/
theorem abort_idle {s : State} (h : s.seq = .idle) : abort s = s := by simp [abort, h]

/-- Abort of a running command is an error completion (60_exceptions.md R330). -/
theorem abort_frame {s : State} {r : Running} (h : s.seq = .busy r) : CompletionFrame s (abort s) := by
  simp only [abort, discardRunning, h]
  split
  · exact ⟨rfl, rfl, rfl, rfl, rfl, rfl, rfl, rfl, rfl, rfl, rfl, by simp [errCodeByte_ne_zero], .inr ⟨.aborted, rfl⟩⟩
  · exact completeErr_frame _ _ _

/-! ## The engine -/

/-- The decoder reads every command's own word back. -/
theorem latchedOp_encode {l : Latch} {i : Instr} (h : l.cmd = encode i) : latchedOp l = some i := by
  rw [latchedOp, h]
  cases i <;> rfl

/-- With no command running the engine does nothing (60_exceptions.md R336). -/
theorem engineStep_idle {s : State} (h : s.seq = .idle) : engineStep s = .next s := by simp [engineStep, h]

/-- A running legal command's step is its `exec`. -/
theorem engineStep_legal {s : State} {r : Running} {i : Instr} (h : s.seq = .busy r) (hd : decode r.latch.cmd = .ok i) :
    engineStep s = exec i s := by simp [engineStep, h, hd]

/-- An illegal word completes with `BADOP` (30_encoding.md R102). -/
theorem engineStep_illegal {s : State} {r : Running} {e : DecodeError} (h : s.seq = .busy r)
    (hd : decode r.latch.cmd = .error e) : engineStep s = .next (completeIllegal r s) := by
  simp [engineStep, h, hd, execIllegal]

/-- A step with an event on the agenda takes that event. -/
theorem step_cons {s : State} {e : Event} {rest : List Event} (h : s.agenda = e :: rest) :
    step s = stepEvent e { s with agenda := rest } := by simp [step, h]

/-- A step with an empty agenda is the engine's. -/
theorem step_nil {s : State} (h : s.agenda = []) : step s = engineStep s := by simp [step, h]

end Sys2Proof.Machine
end

