-- ==== Sys2Proof/Laws/Outputs.lean ====
section
/-! SUPPORT. The output of every command: how many elements it writes (40_command.md R149) and that they fit in its
`DST` (20_memory.md R88). -/

namespace Sys2Proof.Machine

/-- Every arm of `exec` is the shared completion step over that command's rule. -/
theorem exec_eq_runCommand (i : Instr) (s : State) : exec i s = runCommand i (commandBody i) s := by
  cases i <;> rfl

/-- `exec` of a running command is its completion (40_command.md R143). -/
theorem exec_busy {i : Instr} {s : State} {r : Running} (h : s.seq = .busy r) :
    exec i s = .next (completion i r (execResult i (commandBody i) s.params r.latch s.lmem) s) := by
  rw [exec_eq_runCommand, runCommand_busy h]

@[simp] theorem mtfForward_length (lst xs : List Nat) : (mtfForward lst xs).length = xs.length := by
  induction xs generalizing lst with
  | nil => rfl
  | cons v vs ih => simp only [mtfForward]; split <;> simp [ih]

@[simp] theorem mtfInverse_length (lst xs : List Nat) : (mtfInverse lst xs).length = xs.length := by
  induction xs generalizing lst with
  | nil => rfl
  | cons v vs ih => simp only [mtfInverse]; split <;> simp [ih]

@[simp] theorem bwtString_length (str sa : List Nat) : (bwtString str sa).length = sa.length := by simp [bwtString]

@[simp] theorem packBits_length (bits : List Nat) (m : Nat) : (packBits bits m).length = m := by simp [packBits]

@[simp] theorem bitsOfByte_length (y : Nat) : (bitsOfByte y).length = 8 := by simp [bitsOfByte]

@[simp] theorem unpackBytes_length (ys : List Nat) : (unpackBytes ys).length = 8 * ys.length := by
  induction ys with
  | nil => rfl
  | cons y ys ih =>
    have : unpackBytes (y :: ys) = bitsOfByte y ++ unpackBytes ys := rfl
    rw [this, List.length_append, ih, bitsOfByte_length, List.length_cons]
    omega

@[simp] theorem saValues_length (sa : List Nat) (n : Nat) : (saValues sa n).length = n := by simp [saValues]

/-- The decoder stops at `dst_cap` symbols (44_huffman.md R266). -/
theorem decodePayload_length {src : List Nat} {root : Tree} {cap fuel pos n : Nat} {out : List Nat} {pos' : Nat}
    (h : decodePayload src root cap fuel pos n = .ok (out, pos')) (hn : n ≤ cap) : n + out.length ≤ cap := by
  induction fuel generalizing pos n out with
  | zero => simp [decodePayload] at h
  | succ fuel ih =>
    simp only [decodePayload] at h
    split at h
    · cases h
    · next v pos1 _ =>
      split at h
      · cases h; simpa using hn
      · split at h
        · cases h
        · next hcap =>
          split at h
          · cases h
          · next vs pos2 hrec =>
            cases h
            have := ih hrec (by omega)
            simp only [List.length_cons]
            omega

theorem hufDecode_length {src : List Nat} {cap : Nat} {out : List Nat} {pos : Nat} (h : hufDecode src cap = .ok (out, pos)) :
    out.length ≤ cap := by
  simp only [hufDecode] at h
  split at h
  · cases h
  · simpa using decodePayload_length h (Nat.zero_le _)

/-- A command's rule that succeeds reports in `RESULT0` how many elements it writes (40_command.md R149), and they
fit in `DST`, if its `PreCheck` passed. -/
theorem commandBody_output {i : Instr} {p : Params} {l : Latch} {m : Memory} {out : Output}
    (hpre : preCheck p i l = none) (h : commandBody i l m = .ok out) :
    out.r0 = out.values.length ∧ out.values.length ≤ l.args.dstCap.toNat := by
  have hcap := fun req => preCheck_capacity hpre (req := req)
  cases i with
  | nop => cases h; exact ⟨rfl, Nat.zero_le _⟩
  | saBuild =>
    simp only [commandBody, saBuildBody] at h
    split at h
    · cases h
    · split at h
      · cases h
      · cases h; exact ⟨by simp, by simpa using hcap _ rfl⟩
  | saBuildB =>
    simp only [commandBody, saBuildBBody] at h
    cases h; exact ⟨by simp, by simpa using hcap _ rfl⟩
  | bwtFwd =>
    simp only [commandBody, bwtFwdBody] at h
    split at h
    · cases h
    · cases h; exact ⟨by simp, by simpa using hcap _ rfl⟩
  | bwtInv =>
    simp only [commandBody, bwtInvBody] at h
    split at h
    · cases h
    · split at h
      · cases h
      · split at h
        · cases h
        · next hlen =>
          cases h
          simp only [not_not] at hlen
          exact ⟨by simp [hlen], by simpa [hlen] using hcap _ rfl⟩
  | mtfFwd =>
    simp only [commandBody, mtfBody] at h
    split at h
    · cases h
    · cases h; exact ⟨by simp, by simpa using hcap _ rfl⟩
  | mtfInv =>
    simp only [commandBody, mtfBody] at h
    split at h
    · cases h
    · cases h; exact ⟨by simp, by simpa using hcap _ rfl⟩
  | hufEnc =>
    simp only [commandBody, hufEncBody] at h
    split at h
    · cases h
    · split at h
      · cases h
      · next hle => cases h; exact ⟨by simp, by simpa using hle⟩
  | hufDec =>
    simp only [commandBody, hufDecBody] at h
    split at h
    · cases h
    · next hd => cases h; exact ⟨rfl, hufDecode_length hd⟩
  | pack =>
    simp only [commandBody, packBody] at h
    split at h
    · cases h
    · cases h; exact ⟨by simp, by simpa using hcap _ rfl⟩
  | unpack =>
    simp only [commandBody, unpackBody] at h
    cases h; exact ⟨by simp, by simpa using hcap _ rfl⟩

/-- The outcome of a command that succeeds. -/
theorem execResult_ok {i : Instr} {body : Latch → Memory → Result} {p : Params} {l : Latch} {m : Memory} {out : Output}
    (h : execResult i body p l m = .ok out) : preCheck p i l = none ∧ body l m = .ok out := by
  simp only [execResult] at h
  split at h
  · cases h
  · next hp => exact ⟨hp, h⟩

/-- A command whose `PreCheck` passes has its rule's outcome. -/
theorem execResult_pass {i : Instr} {body : Latch → Memory → Result} {p : Params} {l : Latch} {m : Memory}
    (h : preCheck p i l = none) : execResult i body p l m = body l m := by
  simp [execResult, h]

/-- A command whose `PreCheck` fails has that error. -/
theorem execResult_fail {i : Instr} {body : Latch → Memory → Result} {p : Params} {l : Latch} {m : Memory} {e : ErrCode × Nat}
    (h : preCheck p i l = some e) : execResult i body p l m = .error e := by
  simp [execResult, h]

end Sys2Proof.Machine
end

