-- ==== Sys2Proof/Laws/PerInstr.lean ====
section
/-! SUPPORT. The per-instruction family `InsideOpcodeMap`: the word of a command has its opcode inside the opcode map
and no bit of `RSVD` set (30_encoding.md R100, R101). -/

namespace Sys2Proof.Laws.InsideOpcodeMap

/-- The word of the command has an opcode of 30_encoding.md R101 and `RSVD = 0`. -/
def Statement (i : Instr) : Prop :=
  ((encode i).extractLsb' 0 8).toNat ≤ 0x0A ∧ (encode i).extractLsb' 8 24 = 0

theorem nop : Statement .nop := by unfold Statement; decide
theorem saBuild : Statement .saBuild := by unfold Statement; decide
theorem saBuildB : Statement .saBuildB := by unfold Statement; decide
theorem bwtFwd : Statement .bwtFwd := by unfold Statement; decide
theorem bwtInv : Statement .bwtInv := by unfold Statement; decide
theorem mtfFwd : Statement .mtfFwd := by unfold Statement; decide
theorem mtfInv : Statement .mtfInv := by unfold Statement; decide
theorem hufEnc : Statement .hufEnc := by unfold Statement; decide
theorem hufDec : Statement .hufDec := by unfold Statement; decide
theorem pack : Statement .pack := by unfold Statement; decide
theorem unpack : Statement .unpack := by unfold Statement; decide

end Sys2Proof.Laws.InsideOpcodeMap
end

