-- ==== Sys2Proof/Laws/Port.lean ====
section
/-! SUPPORT. The host port: where an access lands, what a host read and a host write can do, and what a running
command remembers of a host write. -/

namespace Sys2Proof.Machine

/-- The size of an access is 1, 2 or 4 bytes (20_memory.md R70). -/
theorem accessBytes_pos (n : AccessSize) : 0 < accessBytes n ∧ accessBytes n ≤ 4 := by cases n <;> decide

/-- An access that reaches LMEM lies in the aperture, is naturally aligned, and covers bytes of LMEM only
(20_memory.md R71, R74). -/
theorem target_eq_lmem {p : Params} {a : Word} {n : AccessSize} {o : Nat} (h : target p a n = .lmem o) :
    a.toNat = apertureBase + o ∧ a.toNat % accessBytes n = 0 ∧ o + accessBytes n ≤ p.lmemBytes := by
  unfold target at h
  generalize apertureBase = base at h ⊢
  dsimp only at h
  split at h
  · split at h
    · split at h <;> cases h
    · cases h
  · split at h
    · split at h
      · next h1 h2 =>
        simp only [Target.lmem.injEq] at h
        omega
      · cases h
    · cases h

/-- An access that reaches a CSR is an aligned word access inside the window (20_memory.md R73). -/
theorem target_eq_csr {p : Params} {a : Word} {n : AccessSize} {c : Csr} (h : target p a n = .csr c) :
    n = .word ∧ a.toNat % 4 = 0 ∧ a.toNat + 4 ≤ 0x1000 ∧ csrAt a.toNat = some c := by
  unfold target at h
  generalize apertureBase = base at h
  dsimp only at h
  split at h
  · next h0 =>
    split at h
    · next h1 =>
      split at h
      · next hc =>
        obtain ⟨rfl, h1⟩ := h1
        simp only [Target.csr.injEq] at h
        subst h
        exact ⟨rfl, h1, h0, hc⟩
      · cases h
    · cases h
  · split at h
    · split at h <;> cases h
    · cases h

/-- A host read changes nothing but the value returned and, when it reads a running command's `DST`, the count of
free values (20_memory.md R74, 92_eei_decisions.md D5). -/
theorem hostRead_frame (a : Word) (n : AccessSize) (s : State) :
    hostRead a n s = { s with rdata := (hostRead a n s).rdata, draws := (hostRead a n s).draws } := by
  unfold hostRead
  split
  · rfl
  · unfold hostReadLmem
    split <;> rfl
  · rfl

/-- What is remembered of a host write: the bytes remembered before, and the written bytes that lie in `DST`. -/
theorem mem_noteHostWrite {os : List Nat} {r : Running} {o : Nat} (h : o ∈ (noteHostWrite os r).dstTouched) :
    o ∈ r.dstTouched ∨ (o ∈ os ∧ inLatchedDst r.latch o = true) := by
  have key : ∀ (l t : List Nat), o ∈ l.foldl (fun t o => if o ∈ t then t else o :: t) t → o ∈ t ∨ o ∈ l := by
    intro l
    induction l with
    | nil => intro t h; exact .inl h
    | cons a l ih =>
      intro t h
      rcases ih _ h with h | h
      · dsimp only at h
        split at h
        · exact .inl h
        · rcases List.mem_cons.1 h with h | h
          · exact .inr (by simp [h])
          · exact .inl h
      · exact .inr (by simp [h])
  rcases key _ _ h with h | h
  · exact .inl h
  · exact .inr (List.mem_filter.1 h)

/-- A host write outside the running command's regions leaves its record alone (70_reset_and_hazards.md R368). -/
theorem noteHostWrite_elsewhere {os : List Nat} {r : Running}
    (hs : ∀ o ∈ os, inLatchedSrc r.latch o = false) (hd : ∀ o ∈ os, inLatchedDst r.latch o = false) :
    noteHostWrite os r = r := by
  have h1 : os.any (inLatchedSrc r.latch) = false := by simpa using hs
  have h2 : os.filter (inLatchedDst r.latch) = [] := by simpa using hd
  simp [noteHostWrite, h1, h2]

/-- The bytes of an access. -/
theorem mem_byteOffsets {o n a : Nat} : a ∈ byteOffsets o n ↔ o ≤ a ∧ a < o + n := by
  simp only [byteOffsets, List.mem_map, List.mem_range]
  constructor
  · rintro ⟨k, hk, rfl⟩; omega
  · intro h; exact ⟨a - o, by omega, by omega⟩

/-- The seed table has 256 entries (10_state.md R43). -/
theorem seedTable_length (t : Vector Word 64) : (seedTable t).length = 256 := by
  have h : ∀ l : List Word, (l.flatMap seedEntries).length = 4 * l.length := by
    intro l
    induction l with
    | nil => rfl
    | cons a l ih =>
      simp only [List.flatMap_cons, List.length_append, ih, seedEntries, List.length_cons, List.length_nil]
      omega
  simp [seedTable, h]

end Sys2Proof.Machine
end

