-- ==== Sys2Proof/Tests/Slice0.lean ====
section
/-! SUPPORT. The model's own tests: ill-formed terms refused, every command word of 30_encoding.md R101 decoded,
one or two steps for each command with the values of spec/95_test_vectors.md, and the host port.
The witnesses of the statements' hypotheses are in Sys2Proof/Tests/Witnesses.lean. -/

namespace Sys2Proof.Machine.Tests

-- One theorem at a time: their kernel evaluations, all at once, would take a thread each.
set_option Elab.async false

/-! ## WellFormed: each check refuses an ill-formed term -/

theorem test_wellFormed_opcode : (⟨0x0B#8, 0⟩ : CommandWord).wellFormed = false := by decide
theorem test_wellFormed_rsvd : (⟨0x00#8, 1⟩ : CommandWord).wellFormed = false := by decide
theorem test_wellFormed_word : (⟨0x0A#8, 0⟩ : CommandWord).wellFormed = true := by decide
theorem test_params_not_power_of_two : (⟨5000, 1, 258⟩ : Params).wellFormed = false := by decide
theorem test_params_lmem_too_small : (⟨2048, 1, 258⟩ : Params).wellFormed = false := by decide
theorem test_params_lmem_too_large : (⟨2 ^ 25, 1, 258⟩ : Params).wellFormed = false := by decide
theorem test_params_no_length : (⟨4096, 0, 258⟩ : Params).wellFormed = false := by decide
theorem test_params_length_too_large : (⟨4096, 2 ^ 28 + 1, 258⟩ : Params).wellFormed = false := by decide
theorem test_params_alpha_too_small : (⟨4096, 1, 257⟩ : Params).wellFormed = false := by decide
theorem test_params_alpha_too_large : (⟨4096, 1, 2 ^ 24 + 1⟩ : Params).wellFormed = false := by decide
theorem test_params_smallest : (⟨4096, 1, 258⟩ : Params).wellFormed = true := by decide

/-! ## Decode: the words of 30_encoding.md R101, as its table writes them -/

theorem test_decode_nop : decode 0x00000000#32 = .ok .nop := by rfl
theorem test_decode_saBuild : decode 0x00000001#32 = .ok .saBuild := by rfl
theorem test_decode_saBuildB : decode 0x00000002#32 = .ok .saBuildB := by rfl
theorem test_decode_bwtFwd : decode 0x00000003#32 = .ok .bwtFwd := by rfl
theorem test_decode_bwtInv : decode 0x00000004#32 = .ok .bwtInv := by rfl
theorem test_decode_mtfFwd : decode 0x00000005#32 = .ok .mtfFwd := by rfl
theorem test_decode_mtfInv : decode 0x00000006#32 = .ok .mtfInv := by rfl
theorem test_decode_hufEnc : decode 0x00000007#32 = .ok .hufEnc := by rfl
theorem test_decode_hufDec : decode 0x00000008#32 = .ok .hufDec := by rfl
theorem test_decode_pack : decode 0x00000009#32 = .ok .pack := by rfl
theorem test_decode_unpack : decode 0x0000000A#32 = .ok .unpack := by rfl
/-- V-CMD-1: opcode above the map, a reserved bit, a reserved bit beside a legal opcode. -/
theorem test_decode_refuses : decode 0x0000000B#32 = .error (.badOpcode 0x0B) ∧
    decode 0x00000100#32 = .error (.reservedBits 0x100) ∧ decode 0xFFFFFF01#32 = .error (.reservedBits 0xFFFFFF01) := by
  refine ⟨rfl, rfl, rfl⟩
/-- The bytes of a command word lie least significant first (20_memory.md R75). -/
theorem test_decode_bytes : decodeBytes [0x03, 0, 0, 0] = .ok .bwtFwd ∧ decodeTableWord 32 8 = some .hufDec ∧
    decodeTableWord 32 0x10000 = none := by
  refine ⟨rfl, rfl, rfl⟩

/-! ## Helpers -/

/-- Bytes laid out from an offset. -/
def cellsFrom : Nat → List Nat → List Host.Cell
  | _, [] => []
  | o, b :: bs => (o, BitVec.ofNat 8 b) :: cellsFrom (o + 1) bs

/-- LMEM that holds the bytes from offset 0, and 0 elsewhere. -/
def bytesAt0 (bs : List Nat) : Memory := Memory.ofCells (2 ^ 20) (cellsFrom 0 bs)

/-- `SYM16` elements as bytes. -/
def sym16s (xs : List Nat) : List Nat := xs.flatMap fun x => [x % 256, x / 256]

/-- `IDX32` elements below 256 as bytes. -/
def idx32s (xs : List Nat) : List Nat := xs.flatMap fun x => [x, 0, 0, 0]

/-- Operands with the source at 0, a second source at `0x80`, and `DST` at `0x100`. -/
def operands (len len1 cap : Nat) : Args :=
  ⟨0, BitVec.ofNat 32 len, 0x80, BitVec.ofNat 32 len1, 0x100, BitVec.ofNat 32 cap, 2, 1⟩

/-- The command `i` accepted right after reset with the given operands and memory. -/
def running (i : Instr) (a : Args) (m : Memory) : State := accept (encode i) { State.reset with args := a, lmem := m }

/-- What is running in that state. -/
def runningOf (i : Instr) (a : Args) : Running := ⟨⟨encode i, a, latchedSeed (encode i) identitySeed⟩, false, []⟩

/-- `STATUS`, `RESULT0`, `RESULT1`, `ERR_INFO` after a step. -/
def report (o : Host.Outcome State Fault Refusal) : Option (Word × Word × Word × Word) :=
  match o with
  | .next t => some (t.status, t.result0, t.result1, t.errInfo)
  | .fault _ => none
  | .refused _ => none

/-- The first `n` bytes of `DST` after a step. -/
def written (n : Nat) (o : Host.Outcome State Fault Refusal) : List Nat :=
  match o with
  | .next t => (List.range n).map fun k => (t.lmem.read (0x100 + k)).toNat
  | .fault _ => []
  | .refused _ => []

theorem undisturbed_running (i : Instr) (a : Args) (m : Memory) : Undisturbed i (running i a m) (runningOf i a) :=
  ⟨rfl, rfl, rfl, rfl⟩

/-! ## One step of each command -/

/-- 40_command.md R150's example. -/
theorem test_nop : report (exec .nop (running .nop (operands 0 0 0) [])) = some (0x2, 0, 0, 0) := by decide +kernel

def saBuildKeys : Memory :=
  bytesAt0 [2, 0, 0, 0, 1, 0, 0, 0, 2, 0, 0, 0, 1, 0, 0, 0, 0, 0, 0, 0,
    255, 255, 255, 255, 255, 255, 255, 255, 255, 255, 255, 255]

/-- V-SA-5, first row. -/
theorem test_saBuild : report (exec .saBuild (running .saBuild (operands 5 0 5) saBuildKeys)) = some (0x2, 5, 0, 0) ∧
    written 20 (exec .saBuild (running .saBuild (operands 5 0 5) saBuildKeys)) = idx32s [4, 3, 1, 2, 0] := by
  decide +kernel

/-- V-SA-6: `x = [3, 1, 0, 0, 0]`, `K = 2` gives `BADSYM`, 0 (with `OFFSET = 1`, which does not matter here). -/
theorem test_saBuild_badSym : report (exec .saBuild (running .saBuild (operands 2 0 2)
    (bytesAt0 (idx32s [3, 1, 0, 0, 0])))) = some (0x1006, 0, 0, 0) := by decide +kernel

def banana : List Nat := [98, 97, 110, 97, 110, 97]

/-- V-SA-1. -/
theorem test_saBuildB : report (exec .saBuildB (running .saBuildB (operands 6 0 7) (bytesAt0 banana))) = some (0x2, 7, 0, 0) ∧
    written 28 (exec .saBuildB (running .saBuildB (operands 6 0 7) (bytesAt0 banana))) = idx32s [6, 5, 3, 1, 0, 4, 2] := by
  decide +kernel

/-- V-SA-6: `dst_cap = 6` gives `CAPACITY`, 7. -/
theorem test_saBuildB_capacity : report (exec .saBuildB (running .saBuildB (operands 6 0 6) (bytesAt0 banana))) =
    some (0x0706, 0, 0, 7) := by decide +kernel

def bananaBwt : List Nat := [97, 110, 110, 98, 256, 97, 97]

def bananaAndArray (sa : List Nat) : Memory :=
  Memory.ofCells (2 ^ 20) (cellsFrom 0 banana ++ cellsFrom 0x80 (idx32s sa))

/-- V-BWT-1. -/
theorem test_bwtFwd : report (exec .bwtFwd (running .bwtFwd (operands 6 7 7) (bananaAndArray [6, 5, 3, 1, 0, 4, 2]))) =
      some (0x2, 7, 4, 0) ∧
    written 14 (exec .bwtFwd (running .bwtFwd (operands 6 7 7) (bananaAndArray [6, 5, 3, 1, 0, 4, 2]))) = sym16s bananaBwt := by
  decide +kernel

/-- V-BWT-3: for a string of length 2, `SRC1 = [2, 3, 1]` gives `BADSA`, 1. -/
theorem test_bwtFwd_badSa : report (exec .bwtFwd (running .bwtFwd (operands 2 3 3) (bananaAndArray [2, 3, 1]))) =
    some (0x1206, 0, 0, 1) := by decide +kernel

/-- V-BWT-1. -/
theorem test_bwtInv : report (exec .bwtInv (running .bwtInv (operands 7 0 6) (bytesAt0 (sym16s bananaBwt)))) =
      some (0x2, 6, 4, 0) ∧
    written 6 (exec .bwtInv (running .bwtInv (operands 7 0 6) (bytesAt0 (sym16s bananaBwt)))) = banana := by
  decide +kernel

/-- V-BWT-4: `[97, 98, 256, 98]` gives `BADBWT`, 2. -/
theorem test_bwtInv_badBwt : report (exec .bwtInv (running .bwtInv (operands 4 0 6) (bytesAt0 (sym16s [97, 98, 256, 98])))) =
    some (0x1406, 0, 0, 2) := by decide +kernel

def bananaRanks : List Nat := [97, 110, 0, 99, 256, 2, 0]

/-- V-MTF-1. -/
theorem test_mtfFwd : report (exec .mtfFwd (running .mtfFwd (operands 7 0 7) (bytesAt0 (sym16s bananaBwt)))) =
      some (0x2, 7, 0, 0) ∧
    written 14 (exec .mtfFwd (running .mtfFwd (operands 7 0 7) (bytesAt0 (sym16s bananaBwt)))) = sym16s bananaRanks := by
  decide +kernel

/-- V-MTF-4: `MTF_SEED0 = 0x03020101` gives `BADSEED`, 1. -/
theorem test_mtfFwd_badSeed : report (exec .mtfFwd (accept 0x5 (writeSeed 0 0x03020101 State.reset))) =
    some (0x0806, 0, 0, 1) := by decide +kernel

/-- V-MTF-1, V-MTF-2. -/
theorem test_mtfInv : report (exec .mtfInv (running .mtfInv (operands 7 0 7) (bytesAt0 (sym16s bananaRanks)))) =
      some (0x2, 7, 0, 0) ∧
    written 14 (exec .mtfInv (running .mtfInv (operands 7 0 7) (bytesAt0 (sym16s bananaRanks)))) = sym16s bananaBwt := by
  decide +kernel

/-- V-MTF-4: `[300]` gives `BADSYM`, 0. -/
theorem test_mtfInv_badSym : report (exec .mtfInv (running .mtfInv (operands 1 0 1) (bytesAt0 (sym16s [300])))) =
    some (0x1006, 0, 0, 0) := by decide +kernel

/-- The 38 bits of `[1, 1, 2]` (V-HUF-2). -/
def bits112 : List Nat := [0, 1, 0, 0, 0, 0, 0, 0, 0, 0, 1, 0, 1, 0, 0, 0, 0, 0, 0, 0, 1, 0, 1, 1, 0, 0, 0, 0, 0, 0, 0, 1,
  0, 0, 1, 0, 1, 1]

/-- V-HUF-2. -/
theorem test_hufEnc : report (exec .hufEnc (running .hufEnc (operands 3 0 38) (bytesAt0 (sym16s [1, 1, 2])))) =
      some (0x2, 38, 32, 0) ∧
    written 38 (exec .hufEnc (running .hufEnc (operands 3 0 38) (bytesAt0 (sym16s [1, 1, 2])))) = bits112 := by
  decide +kernel

/-- V-HUF-4: `[5]` with `dst_cap = 22` gives `CAPACITY`, 23. -/
theorem test_hufEnc_capacity : report (exec .hufEnc (running .hufEnc (operands 1 0 22) (bytesAt0 (sym16s [5])))) =
    some (0x0706, 0, 0, 23) := by decide +kernel

/-- V-HUF-3. -/
theorem test_hufDec : report (exec .hufDec (running .hufDec (operands 38 0 3) (bytesAt0 bits112))) = some (0x2, 3, 38, 0) ∧
    written 6 (exec .hufDec (running .hufDec (operands 38 0 3) (bytesAt0 bits112))) = sym16s [1, 1, 2] := by
  decide +kernel

/-- V-HUF-5: the same stream with `dst_cap = 2` gives `OVERFLOW`, 2. -/
theorem test_hufDec_overflow : report (exec .hufDec (running .hufDec (operands 38 0 2) (bytesAt0 bits112))) =
    some (0x1906, 0, 0, 2) := by decide +kernel

/-- V-PACK-1. -/
theorem test_pack : report (exec .pack (running .pack (operands 9 0 2) (bytesAt0 [1, 0, 1, 1, 0, 0, 1, 0, 1]))) =
      some (0x2, 2, 7, 0) ∧
    written 2 (exec .pack (running .pack (operands 9 0 2) (bytesAt0 [1, 0, 1, 1, 0, 0, 1, 0, 1]))) = [0xB2, 0x80] := by
  decide +kernel

/-- V-PACK-2: bytes `01 00 02 01` give `BADBIT`, 2. -/
theorem test_pack_badBit : report (exec .pack (running .pack (operands 4 0 1) (bytesAt0 [1, 0, 2, 1]))) =
    some (0x1506, 0, 0, 2) := by decide +kernel

/-- V-PACK-1. -/
theorem test_unpack : report (exec .unpack (running .unpack (operands 1 0 8) (bytesAt0 [0xB2]))) = some (0x2, 8, 0, 0) ∧
    written 8 (exec .unpack (running .unpack (operands 1 0 8) (bytesAt0 [0xB2]))) = [1, 0, 1, 1, 0, 0, 1, 0] := by
  decide +kernel

/-- V-PACK-2: two bytes with `dst_cap = 15` give `CAPACITY`, 16. -/
theorem test_unpack_capacity : report (exec .unpack (running .unpack (operands 2 0 15) [])) = some (0x0706, 0, 0, 16) := by
  decide +kernel

/-! ## The host port -/

/-- V-CSR-1. -/
theorem test_reset_registers : readCsr State.reset .id = 0x5A500100 ∧ readCsr State.reset .cfgLmemBytes = 0x00100000 ∧
    readCsr State.reset (.mtfSeed 0) = 0x03020100 ∧ readCsr State.reset (.mtfSeed 63) = 0xFFFEFDFC ∧
    seedTable State.reset.mtfSeed = (List.range 256).map (BitVec.ofNat 8) := by decide +kernel

/-- V-CSR-1: `wrw 4, 0x11223344`, then the bytes `44 33 22 11`; a misaligned halfword write is ignored. -/
theorem test_little_endian :
    (hostRead 0x01000005 .byte (hostWrite 0x01000004 .word 0x11223344 State.reset)).rdata = 0x33 ∧
    hostWrite 0x01000001 .half 0xABCD State.reset = State.reset := by decide +kernel

/-- V-CSR-2: the pending bit is cleared by writing 1 and only so, and `irq` is a level. -/
theorem test_irq : (writeIrqStatus 0 { State.reset with doneIP := true, doneIE := true }).irq = true ∧
    (writeIrqStatus 1 { State.reset with doneIP := true, doneIE := true }).irq = false ∧
    (writeIrqEn 1 { State.reset with doneIP := true }).irq = true := by decide +kernel

/-- V-CSR-3: an abort of a running command whose `PreCheck` passes reports `0x1F06`; `CTRL = 3` is a soft reset. -/
theorem test_abort : (writeCtrl 2 (running .saBuildB (operands 6 0 7) [])).status = 0x1F06 ∧
    (writeCtrl 3 (running .saBuildB (operands 6 0 7) [])).status = 0 := by decide +kernel

/-- `PACK` of nine bits into one byte, accepted, after which the host wrote 7 to the one byte of `DST`. -/
def touchedBelowCapacity : State :=
  { running .pack (operands 9 0 1) [(0x100, 7)] with
    seq := .busy { runningOf .pack (operands 9 0 1) with dstTouched := [0x100] } }

/-- V-CSR-3: `dst_cap` too small, then an abort: `ABORTED`, and LMEM is unchanged, the host's own write too (R330). -/
theorem test_abort_precheck_fails : (writeCtrl 2 touchedBelowCapacity).status = 0x1F06 ∧
    (writeCtrl 2 touchedBelowCapacity).lmem = [(0x100, 7)] := by decide +kernel

/-- 30_encoding.md R113's example. -/
theorem test_run_expansion :
    expandStmt (.run .mtfFwd { src0 := some 0x100, len0 := some 7, dst := some 0x200, cap := some 7 } 1) =
      [wrEvent 0x30 0x100, wrEvent 0x34 7, wrEvent 0x40 0x200, wrEvent 0x44 7, wrEvent 0x14 5,
        .access (.read 0x18 .word), .complete, .access (.read 0x18 .word)] := by decide +kernel

/-- A fetched word runs as the first command after reset. -/
theorem test_withFetchWord : (match step (State.reset.withFetchWord 32 0) with
    | .next t => some (t.status, t.agenda)
    | .fault _ => none
    | .refused _ => none) = some (0x2, []) := by decide +kernel

end Sys2Proof.Machine.Tests
end

