-- ==== Sys2Proof/Tests/Witnesses.lean ====
section
/-! SUPPORT. For every statement of Certificates/Slice0/Obligations.lean that has hypotheses, a concrete state and
operands that meet all of them together; for one with several clauses, one witness a clause, at a boundary where
the clause has a range. -/

namespace Sys2Proof.Machine.Tests

-- One theorem at a time: their kernel evaluations, all at once, would take a thread each.
set_option Elab.async false

/-! ## Encoding, acceptance and the step -/

theorem witness_OnlyOpcodeMapWordsDecode :
    decode 0x0000000A#32 = .ok .unpack ∧ (∃ e, decode 0x0000000B#32 = .error e) ∧ ∃ e, decode 0x00000100#32 = .error e :=
  ⟨rfl, ⟨_, rfl⟩, ⟨_, rfl⟩⟩

theorem witness_StepRunsTheLatchedCommand :
    (∃ (s : State) (r : Running) (i : Instr), s.seq = .busy r ∧ decode r.latch.cmd = .ok i ∧ i.wellFormed = true ∧ s.agenda = []) ∧
    ∃ (s : State) (r : Running) (i : Instr) (rest : List Event),
      s.seq = .busy r ∧ decode r.latch.cmd = .ok i ∧ i.wellFormed = true ∧ s.agenda = .complete :: rest :=
  ⟨⟨running .pack Args.zero [], runningOf .pack Args.zero, .pack, rfl, rfl, rfl, rfl⟩,
    ⟨State.reset.withFetchWord 32 9, runningOf .pack Args.zero, .pack, [], rfl, rfl, rfl, rfl⟩⟩

/-- The smallest opcode above the map, and a reserved bit beside a legal opcode. -/
theorem witness_IllegalWordCompletesWithBadop :
    ∀ w ∈ [0x0000000B#32, 0x00000100#32], ∃ (s : State) (rest : List Event), s.seq = .idle ∧
      s.agenda = .access (.write 0x014#32 .word w) :: rest ∧
      (0x0B ≤ (w.extractLsb' 0 8).toNat ∨ w.extractLsb' 8 24 ≠ 0) := by
  intro w hw
  refine ⟨{ State.reset with agenda := [.access (.write 0x014#32 .word w)] }, [], rfl, rfl, ?_⟩
  simp only [List.mem_cons, List.not_mem_nil, or_false] at hw
  rcases hw with rfl | rfl <;> decide

theorem witness_AcceptanceLatchesTheOperands :
    ∃ (s : State) (w : Word) (rest : List Event), s.seq = .idle ∧ s.agenda = .access (.write 0x014#32 .word w) :: rest :=
  ⟨{ State.reset with agenda := [.access (.write 0x014#32 .word 5)] }, 5, [], rfl, rfl⟩

theorem witness_CommandWriteWhileBusyIsDropped :
    ∃ (s : State) (r : Running) (w : Word) (rest : List Event), s.seq = .busy r ∧
      s.agenda = .access (.write 0x014#32 .word w) :: rest :=
  ⟨{ running .nop Args.zero [] with agenda := [.access (.write 0x014#32 .word 0)] }, runningOf .nop Args.zero, 0, [], rfl, rfl⟩

/-! ## Completion -/

theorem witness_NopCompletes : ∃ (s : State) (r : Running), Undisturbed .nop s r :=
  ⟨running .nop Args.zero [], runningOf .nop Args.zero, undisturbed_running _ _ _⟩

theorem witness_SaBuildCompletes : ∃ (s : State) (r : Running), Undisturbed .saBuild s r ∧ s.lmem.wf = true ∧
    r.latch.args.src0Len.toNat ≤ s.params.maxN ∧ r.latch.args.arg0.toNat + r.latch.args.arg1.toNat + 1 ≤ s.params.maxAlpha ∧
    RegionsOk s.params ⟨.i32, r.latch.args.src0Addr.toNat, 4 * (r.latch.args.src0Len.toNat + 3)⟩ (dstIn .idx32 r.latch.args) ∧
    r.latch.args.src0Len.toNat ≤ r.latch.args.dstCap.toNat ∧
    Dc3Pre ((List.range (r.latch.args.src0Len.toNat + 3)).map (elemI32 s.lmem r.latch.args.src0Addr.toNat))
      r.latch.args.src0Len.toNat r.latch.args.arg0.toNat r.latch.args.arg1.toNat :=
  ⟨running .saBuild (operands 5 0 5) saBuildKeys, runningOf .saBuild (operands 5 0 5), undisturbed_running _ _ _,
    by decide +kernel⟩

theorem witness_SaBuildBCompletes : ∃ (s : State) (r : Running), Undisturbed .saBuildB s r ∧ s.lmem.wf = true ∧
    r.latch.args.src0Len.toNat + 1 ≤ s.params.maxN ∧
    RegionsOk s.params ⟨.u8, r.latch.args.src0Addr.toNat, r.latch.args.src0Len.toNat⟩ (dstIn .idx32 r.latch.args) ∧
    r.latch.args.src0Len.toNat + 1 ≤ r.latch.args.dstCap.toNat :=
  ⟨running .saBuildB (operands 6 0 7) (bytesAt0 banana), runningOf .saBuildB (operands 6 0 7), undisturbed_running _ _ _,
    by decide +kernel⟩

theorem witness_BwtFwdCompletes : ∃ (s : State) (r : Running), Undisturbed .bwtFwd s r ∧ s.lmem.wf = true ∧
    r.latch.args.src1Len.toNat = r.latch.args.src0Len.toNat + 1 ∧ r.latch.args.src0Len.toNat + 1 ≤ s.params.maxN ∧
    RegionsOk2 s.params ⟨.u8, r.latch.args.src0Addr.toNat, r.latch.args.src0Len.toNat⟩
      ⟨.idx32, r.latch.args.src1Addr.toNat, 4 * (r.latch.args.src0Len.toNat + 1)⟩ (dstIn .sym16 r.latch.args) ∧
    r.latch.args.src0Len.toNat + 1 ≤ r.latch.args.dstCap.toNat ∧
    (elems .idx32 s.lmem r.latch.args.src1Addr.toNat (r.latch.args.src0Len.toNat + 1)).Perm
      (List.range (r.latch.args.src0Len.toNat + 1)) :=
  ⟨running .bwtFwd (operands 6 7 7) (bananaAndArray [6, 5, 3, 1, 0, 4, 2]), runningOf .bwtFwd (operands 6 7 7),
    undisturbed_running _ _ _, by decide +kernel⟩

theorem witness_BwtInvCompletes : ∃ (s : State) (r : Running), Undisturbed .bwtInv s r ∧ s.lmem.wf = true ∧
    r.latch.args.src0Len.toNat ≤ s.params.maxN ∧
    RegionsOk s.params ⟨.sym16, r.latch.args.src0Addr.toNat, 2 * r.latch.args.src0Len.toNat⟩ (dstIn .u8 r.latch.args) ∧
    r.latch.args.src0Len.toNat - 1 ≤ r.latch.args.dstCap.toNat ∧
    (∀ v ∈ elems .sym16 s.lmem r.latch.args.src0Addr.toNat r.latch.args.src0Len.toNat, v ≤ 256) ∧
    (elems .sym16 s.lmem r.latch.args.src0Addr.toNat r.latch.args.src0Len.toNat).count 256 = 1 ∧
    (bwtWalk (elems .sym16 s.lmem r.latch.args.src0Addr.toNat r.latch.args.src0Len.toNat) r.latch.args.src0Len.toNat 0).length =
      r.latch.args.src0Len.toNat - 1 :=
  ⟨running .bwtInv (operands 7 0 6) (bytesAt0 (sym16s bananaBwt)), runningOf .bwtInv (operands 7 0 6),
    undisturbed_running _ _ _, by decide +kernel⟩

theorem witness_MtfFwdCompletes : ∃ (s : State) (r : Running), Undisturbed .mtfFwd s r ∧ s.lmem.wf = true ∧
    RegionsOk s.params ⟨.sym16, r.latch.args.src0Addr.toNat, 2 * r.latch.args.src0Len.toNat⟩ (dstIn .sym16 r.latch.args) ∧
    r.latch.args.src0Len.toNat ≤ r.latch.args.dstCap.toNat ∧ IsRecencyList (r.latch.seed.map fun b => b.toNat) ∧
    ∀ v ∈ elems .sym16 s.lmem r.latch.args.src0Addr.toNat r.latch.args.src0Len.toNat, v ≤ 256 :=
  ⟨running .mtfFwd (operands 7 0 7) (bytesAt0 (sym16s bananaBwt)), runningOf .mtfFwd (operands 7 0 7),
    undisturbed_running _ _ _, by decide +kernel⟩

theorem witness_MtfInvCompletes : ∃ (s : State) (r : Running), Undisturbed .mtfInv s r ∧ s.lmem.wf = true ∧
    RegionsOk s.params ⟨.sym16, r.latch.args.src0Addr.toNat, 2 * r.latch.args.src0Len.toNat⟩ (dstIn .sym16 r.latch.args) ∧
    r.latch.args.src0Len.toNat ≤ r.latch.args.dstCap.toNat ∧ IsRecencyList (r.latch.seed.map fun b => b.toNat) ∧
    ∀ v ∈ elems .sym16 s.lmem r.latch.args.src0Addr.toNat r.latch.args.src0Len.toNat, v ≤ 256 :=
  ⟨running .mtfInv (operands 7 0 7) (bytesAt0 (sym16s bananaRanks)), runningOf .mtfInv (operands 7 0 7),
    undisturbed_running _ _ _, by decide +kernel⟩

theorem witness_HufEncCompletes : ∃ (s : State) (r : Running), Undisturbed .hufEnc s r ∧ s.lmem.wf = true ∧
    RegionsOk s.params ⟨.sym16, r.latch.args.src0Addr.toNat, 2 * r.latch.args.src0Len.toNat⟩ (dstIn .bit8 r.latch.args) ∧
    (∀ v ∈ elems .sym16 s.lmem r.latch.args.src0Addr.toNat r.latch.args.src0Len.toNat, v ≤ 256) ∧
    (serialize (buildTree (elems .sym16 s.lmem r.latch.args.src0Addr.toNat r.latch.args.src0Len.toNat)) ++
      (elems .sym16 s.lmem r.latch.args.src0Addr.toNat r.latch.args.src0Len.toNat).flatMap
        (codeOf (buildTree (elems .sym16 s.lmem r.latch.args.src0Addr.toNat r.latch.args.src0Len.toNat))) ++
      codeOf (buildTree (elems .sym16 s.lmem r.latch.args.src0Addr.toNat r.latch.args.src0Len.toNat)) 257).length ≤
      r.latch.args.dstCap.toNat :=
  ⟨running .hufEnc (operands 3 0 38) (bytesAt0 (sym16s [1, 1, 2])), runningOf .hufEnc (operands 3 0 38),
    undisturbed_running _ _ _, by decide +kernel⟩

/-- The header of `[1, 1, 2]`: leaves 1, 2 and `EOS`. -/
def tree112 : Tree := .node (.leaf 1) (.node (.leaf 2) (.leaf 257))

theorem witness_HufDecCompletes :
    ∃ (s : State) (r : Running) (root : Tree) (pos pos' : Nat) (st : ParseState) (out : List Nat),
    Undisturbed .hufDec s r ∧ s.lmem.wf = true ∧
    RegionsOk s.params ⟨.bit8, r.latch.args.src0Addr.toNat, r.latch.args.src0Len.toNat⟩ (dstIn .sym16 r.latch.args) ∧
    parseTree (elems .bit8 s.lmem r.latch.args.src0Addr.toNat r.latch.args.src0Len.toNat) 258 0 ⟨0, []⟩ = .ok (root, pos, st) ∧
    decodePayload (elems .bit8 s.lmem r.latch.args.src0Addr.toNat r.latch.args.src0Len.toNat) root r.latch.args.dstCap.toNat
      (r.latch.args.src0Len.toNat + 1) pos 0 = .ok (out, pos') :=
  ⟨running .hufDec (operands 38 0 3) (bytesAt0 bits112), runningOf .hufDec (operands 38 0 3), tree112, 32, 38, ⟨2, [257, 2, 1]⟩,
    [1, 1, 2], undisturbed_running _ _ _, by decide +kernel, by decide +kernel, by decide +kernel, by decide +kernel⟩

theorem witness_PackCompletes : ∃ (s : State) (r : Running), Undisturbed .pack s r ∧ s.lmem.wf = true ∧
    RegionsOk s.params ⟨.bit8, r.latch.args.src0Addr.toNat, r.latch.args.src0Len.toNat⟩ (dstIn .u8 r.latch.args) ∧
    (r.latch.args.src0Len.toNat + 7) / 8 ≤ r.latch.args.dstCap.toNat ∧
    ∀ j < r.latch.args.src0Len.toNat, s.lmem.read (r.latch.args.src0Addr.toNat + j) = 0 ∨
      s.lmem.read (r.latch.args.src0Addr.toNat + j) = 1 :=
  ⟨running .pack (operands 9 0 2) (bytesAt0 [1, 0, 1, 1, 0, 0, 1, 0, 1]), runningOf .pack (operands 9 0 2),
    undisturbed_running _ _ _, by decide +kernel⟩

theorem witness_UnpackCompletes : ∃ (s : State) (r : Running), Undisturbed .unpack s r ∧ s.lmem.wf = true ∧
    RegionsOk s.params ⟨.u8, r.latch.args.src0Addr.toNat, r.latch.args.src0Len.toNat⟩ (dstIn .bit8 r.latch.args) ∧
    8 * r.latch.args.src0Len.toNat ≤ r.latch.args.dstCap.toNat :=
  ⟨running .unpack (operands 1 0 8) (bytesAt0 [0xB2]), runningOf .unpack (operands 1 0 8), undisturbed_running _ _ _,
    by decide +kernel⟩

/-! ## Errors -/

theorem witness_PreCheckErrorLeavesMemoryUnchanged :
    ∃ (i : Instr) (s : State) (r : Running) (e : ErrCode) (info : Nat), Undisturbed i s r ∧
      preCheck s.params i r.latch = some (e, info) :=
  ⟨.pack, running .pack (operands 9 0 1) [], runningOf .pack (operands 9 0 1), .capacity, 2, undisturbed_running _ _ _, by decide +kernel⟩

/-- One error of each class: `BADBIT`, and the `CAPACITY` of `HUF_ENC`. -/
theorem witness_WorkErrorChangesOnlyTheDestination :
    (∃ (i : Instr) (s : State) (r : Running) (e : ErrCode) (info : Nat), Undisturbed i s r ∧
      preCheck s.params i r.latch = none ∧ commandBody i r.latch s.lmem = .error (e, info) ∧ errIsW e = true) ∧
    ∃ (i : Instr) (s : State) (r : Running) (e : ErrCode) (info : Nat), Undisturbed i s r ∧
      preCheck s.params i r.latch = none ∧ commandBody i r.latch s.lmem = .error (e, info) ∧ errIsW e = false :=
  ⟨⟨.pack, running .pack (operands 4 0 1) (bytesAt0 [1, 0, 2, 1]), runningOf .pack (operands 4 0 1), .badBit, 2,
      undisturbed_running _ _ _, by decide +kernel, by decide +kernel, rfl⟩,
    ⟨.hufEnc, running .hufEnc (operands 0 0 0) [], runningOf .hufEnc (operands 0 0 0), .capacity, 11,
      undisturbed_running _ _ _, by decide +kernel, by decide +kernel, rfl⟩⟩

/-- One length above the limit, for each of the four commands: `MAX_N + 1`, and `MAX_N` bytes with their sentinel. Then
`MAX_N` keys with an alphabet one above the limit, and `MAX_N` entries for as many bytes. -/
theorem witness_LengthAboveLimitIsReportedFirst :
    (∀ i ∈ [Instr.saBuild, .bwtInv], ∃ (s : State) (r : Running), Undisturbed i s r ∧
      s.params.maxN < r.latch.args.src0Len.toNat) ∧
    (∃ (s : State) (r : Running), Undisturbed .saBuildB s r ∧ s.params.maxN < r.latch.args.src0Len.toNat + 1) ∧
    (∃ (s : State) (r : Running), Undisturbed .bwtFwd s r ∧ s.params.maxN < r.latch.args.src1Len.toNat) ∧
    (∃ (s : State) (r : Running), Undisturbed .saBuild s r ∧ r.latch.args.src0Len.toNat ≤ s.params.maxN ∧
      s.params.maxAlpha < r.latch.args.arg0.toNat + r.latch.args.arg1.toNat + 1) ∧
    ∃ (s : State) (r : Running), Undisturbed .bwtFwd s r ∧ r.latch.args.src1Len.toNat ≤ s.params.maxN ∧
      r.latch.args.src1Len.toNat ≠ r.latch.args.src0Len.toNat + 1 :=
  ⟨fun i _ => ⟨running i (operands (2 ^ 18 + 1) 0 0) [], runningOf i (operands (2 ^ 18 + 1) 0 0), undisturbed_running _ _ _,
      by show 2 ^ 18 < (BitVec.ofNat 32 (2 ^ 18 + 1)).toNat; decide⟩,
    ⟨running .saBuildB (operands (2 ^ 18) 0 0) [], runningOf .saBuildB (operands (2 ^ 18) 0 0), undisturbed_running _ _ _,
      by decide +kernel⟩,
    ⟨running .bwtFwd (operands 0 (2 ^ 18 + 1) 0) [], runningOf .bwtFwd (operands 0 (2 ^ 18 + 1) 0), undisturbed_running _ _ _,
      by decide +kernel⟩,
    ⟨running .saBuild { operands (2 ^ 18) 0 0 with arg0 := 65535, arg1 := 1 } [],
      runningOf .saBuild { operands (2 ^ 18) 0 0 with arg0 := 65535, arg1 := 1 }, undisturbed_running _ _ _, by decide +kernel⟩,
    ⟨running .bwtFwd (operands (2 ^ 18) (2 ^ 18) 0) [], runningOf .bwtFwd (operands (2 ^ 18) (2 ^ 18) 0),
      undisturbed_running _ _ _, by decide +kernel⟩⟩

/-- The clauses of `OverlapWithSourceIsReported`, each as a test on a command's operands. -/
def regionsOf (i : Instr) (a : Args) : List (Option Region) := [src0Region i a, src1Region i a, dstRegion i a]

/-- The limits and the length relation hold, and the regions before number `id` fit. -/
def fitsBefore (i : Instr) (a : Args) (id : Nat) : Bool :=
  (checkLimits Params.recommended i a ++ checkLength i a).all (fun c => !c.fails) &&
    ((regionsOf i a).take id).all fun g => g.all fun g => decide (RegionFits Params.recommended g)

/-- The two regions are there and lie apart, or do not. -/
def apart (g h : Option Region) : Bool := (g.bind fun g => h.map fun h => decide (RegionsApart g h)).getD false
def overlap (g h : Option Region) : Bool := (g.bind fun g => h.map fun h => decide (¬ RegionsApart g h)).getD false

/-- An odd address and a range that ends one byte or one element too late, in each region; `DST` at 8 inside a source of
16 bytes (V-PACK-2), and over the last entry of `SRC1`; `dst_cap` one below what each command needs. -/
theorem witness_OverlapWithSourceIsReported :
    (∀ (i : Instr) (a : Args), Undisturbed i (running i a []) (runningOf i a)) ∧
    (∀ c ∈ [(0, { operands 1 2 2 with src0Addr := 1 }, Instr.mtfFwd), (1, { operands 1 2 2 with src1Addr := 0x82 }, .bwtFwd),
        (2, { operands 1 2 2 with dstAddr := 0x101 }, .bwtFwd)],
      fitsBefore c.2.2 c.2.1 c.1 = true ∧ ((regionsOf c.2.2 c.2.1).getD c.1 none).any
        (fun g => g.bytes != 0 && g.addr % fmtSize g.fmt != 0) = true) ∧
    (∀ c ∈ [(0, { operands 2 0 2 with src0Addr := 0xFFFFF }, Instr.pack), (1, { operands 1 2 2 with src1Addr := 0xFFFFC }, .bwtFwd),
        (2, { operands 1 2 2 with dstAddr := 0xFFFFE }, .bwtFwd)],
      fitsBefore c.2.2 c.2.1 c.1 = true ∧ ((regionsOf c.2.2 c.2.1).getD c.1 none).any
        (fun g => g.bytes != 0 && g.addr % fmtSize g.fmt == 0 && decide (2 ^ 20 < g.addr + g.bytes)) = true) ∧
    (fitsBefore .pack { operands 16 0 2 with dstAddr := 8 } 3 = true ∧
      overlap (dstRegion .pack { operands 16 0 2 with dstAddr := 8 }) (src0Region .pack { operands 16 0 2 with dstAddr := 8 }) =
        true) ∧
    (fitsBefore .bwtFwd { operands 1 2 2 with dstAddr := 0x86 } 3 = true ∧
      apart (dstRegion .bwtFwd { operands 1 2 2 with dstAddr := 0x86 })
        (src0Region .bwtFwd { operands 1 2 2 with dstAddr := 0x86 }) = true ∧
      overlap (dstRegion .bwtFwd { operands 1 2 2 with dstAddr := 0x86 })
        (src1Region .bwtFwd { operands 1 2 2 with dstAddr := 0x86 }) = true) ∧
    ∀ c ∈ [(Instr.saBuild, 3), (.mtfFwd, 3), (.mtfInv, 3), (.saBuildB, 4), (.bwtFwd, 4), (.bwtInv, 2), (.pack, 1), (.unpack, 24)],
      fitsBefore c.1 (operands 3 4 (c.2 - 1)) 3 = true ∧
        apart (dstRegion c.1 (operands 3 4 (c.2 - 1))) (src0Region c.1 (operands 3 4 (c.2 - 1))) = true ∧
        (src1Region c.1 (operands 3 4 (c.2 - 1))).all (fun g => apart (dstRegion c.1 (operands 3 4 (c.2 - 1))) (some g)) = true ∧
        (operands 3 4 (c.2 - 1)).dstCap.toNat < c.2 :=
  ⟨fun _ _ => undisturbed_running _ _ _, by decide +kernel, by decide +kernel, by decide +kernel, by decide +kernel,
    by decide +kernel⟩

/-- The smallest value that is too large, 257, at index 1, for each of the four commands. -/
theorem witness_SymbolAboveAlphabetIsReported :
    ∀ i ∈ [Instr.mtfFwd, .mtfInv, .hufEnc, .bwtInv], ∃ (s : State) (r : Running) (j : Nat), Undisturbed i s r ∧
      preCheck s.params i r.latch = none ∧ j < r.latch.args.src0Len.toNat ∧
      256 < elem .sym16 s.lmem r.latch.args.src0Addr.toNat j ∧
      ∀ q < j, elem .sym16 s.lmem r.latch.args.src0Addr.toNat q ≤ 256 := by
  intro i hi
  refine ⟨running i (operands 3 0 3) (bytesAt0 (sym16s [256, 257, 3])), runningOf i (operands 3 0 3), 1,
    undisturbed_running _ _ _, ?_⟩
  simp only [List.mem_cons, List.not_mem_nil, or_false] at hi
  rcases hi with rfl | rfl | rfl | rfl <;> decide +kernel

theorem witness_PackReportsTheFirstBadBit : ∃ (s : State) (r : Running) (j : Nat), Undisturbed .pack s r ∧
    preCheck s.params .pack r.latch = none ∧ j < r.latch.args.src0Len.toNat ∧
    1 < (s.lmem.read (r.latch.args.src0Addr.toNat + j)).toNat ∧
    ∀ q < j, (s.lmem.read (r.latch.args.src0Addr.toNat + q)).toNat ≤ 1 :=
  ⟨running .pack (operands 4 0 1) (bytesAt0 [1, 0, 2, 1]), runningOf .pack (operands 4 0 1), 2, undisturbed_running _ _ _,
    by decide +kernel⟩

/-- Both ways an entry is bad: the smallest out of range (`3` of 3), and a repeat (V-BWT-3). -/
theorem witness_BwtFwdReportsTheFirstBadEntry :
    ∀ sa ∈ [[2, 3, 1], [0, 0, 1]], ∃ (s : State) (r : Running) (j : Nat), Undisturbed .bwtFwd s r ∧
      preCheck s.params .bwtFwd r.latch = none ∧ j < r.latch.args.src1Len.toNat ∧
      (r.latch.args.src1Len.toNat ≤ elem .idx32 s.lmem r.latch.args.src1Addr.toNat j ∨
        ∃ q < j, elem .idx32 s.lmem r.latch.args.src1Addr.toNat q = elem .idx32 s.lmem r.latch.args.src1Addr.toNat j) ∧
      ∀ q < j, elem .idx32 s.lmem r.latch.args.src1Addr.toNat q < r.latch.args.src1Len.toNat ∧
        ∀ q' < q, elem .idx32 s.lmem r.latch.args.src1Addr.toNat q' ≠ elem .idx32 s.lmem r.latch.args.src1Addr.toNat q := by
  intro sa hsa
  refine ⟨running .bwtFwd (operands 2 3 3) (bananaAndArray sa), runningOf .bwtFwd (operands 2 3 3), 1,
    undisturbed_running _ _ _, ?_⟩
  simp only [List.mem_cons, List.not_mem_nil, or_false] at hsa
  rcases hsa with rfl | rfl <;> decide +kernel

/-- No sentinel, two sentinels, and one with a walk that stops early (V-BWT-4), whose step at its sentinel and at a repeated
symbol the last clause shows. -/
theorem witness_BwtInvReportsMalformedStrings :
    (∀ x ∈ [[97, 97], [256, 256]], ∃ (s : State) (r : Running), Undisturbed .bwtInv s r ∧
      preCheck s.params .bwtInv r.latch = none ∧
      (∀ v ∈ elems .sym16 s.lmem r.latch.args.src0Addr.toNat r.latch.args.src0Len.toNat, v ≤ 256) ∧
      (elems .sym16 s.lmem r.latch.args.src0Addr.toNat r.latch.args.src0Len.toNat).count 256 ≠ 1) ∧
    (∃ (s : State) (r : Running), Undisturbed .bwtInv s r ∧ preCheck s.params .bwtInv r.latch = none ∧
      (∀ v ∈ elems .sym16 s.lmem r.latch.args.src0Addr.toNat r.latch.args.src0Len.toNat, v ≤ 256) ∧
      (elems .sym16 s.lmem r.latch.args.src0Addr.toNat r.latch.args.src0Len.toNat).count 256 = 1 ∧
      (bwtWalk (elems .sym16 s.lmem r.latch.args.src0Addr.toNat r.latch.args.src0Len.toNat) r.latch.args.src0Len.toNat 0).length ≠
        r.latch.args.src0Len.toNat - 1) ∧
    [97, 98, 256, 98][2]? = some 256 ∧ [97, 98, 256, 98][3]? = some 98 := by
  refine ⟨fun x hx => ⟨running .bwtInv (operands 2 0 6) (bytesAt0 (sym16s x)), runningOf .bwtInv (operands 2 0 6),
      undisturbed_running _ _ _, ?_⟩,
    ⟨running .bwtInv (operands 4 0 6) (bytesAt0 (sym16s [97, 98, 256, 98])), runningOf .bwtInv (operands 4 0 6),
      undisturbed_running _ _ _, by decide +kernel⟩, rfl, rfl⟩
  simp only [List.mem_cons, List.not_mem_nil, or_false] at hx
  rcases hx with rfl | rfl <;> decide +kernel

/-- The keys and pads of the four clauses (`K = 2`, `OFFSET = 1`, `n = 2`; V-SA-6): `K + 1` at 0, the second pad
unequal, the third unequal, and a real symbol equal to the pad. -/
theorem witness_SaBuildReportsBadKeysThenBadPads :
    ∀ c ∈ [([3, 1, 0, 0, 0], 0), ([2, 1, 0, 1, 0], 3), ([2, 1, 0, 0, 1], 4), ([2, 0, 0, 0, 0], 1)],
      ∃ (s : State) (r : Running), Undisturbed .saBuild s r ∧ preCheck s.params .saBuild r.latch = none ∧
        (List.range 5).map (elemI32 s.lmem r.latch.args.src0Addr.toNat) = c.1.map Int.ofNat ∧
        r.latch.args.src0Len = 2 ∧ r.latch.args.arg0 = 2 ∧ r.latch.args.arg1 = 1 ∧ c.2 < 5 := by
  intro c hc
  refine ⟨running .saBuild (operands 2 0 2) (bytesAt0 (idx32s c.1)), runningOf .saBuild (operands 2 0 2),
    undisturbed_running _ _ _, ?_⟩
  simp only [List.mem_cons, List.not_mem_nil, or_false] at hc
  rcases hc with rfl | rfl | rfl | rfl <;> decide +kernel

theorem witness_HufEncReportsTheCapacityNeeded : ∃ (s : State) (r : Running), Undisturbed .hufEnc s r ∧
    preCheck s.params .hufEnc r.latch = none ∧
    (∀ v ∈ elems .sym16 s.lmem r.latch.args.src0Addr.toNat r.latch.args.src0Len.toNat, v ≤ 256) ∧
    r.latch.args.dstCap.toNat <
      (hufStream (elems .sym16 s.lmem r.latch.args.src0Addr.toNat r.latch.args.src0Len.toNat)).length :=
  ⟨running .hufEnc (operands 1 0 22) (bytesAt0 (sym16s [5])), runningOf .hufEnc (operands 1 0 22),
    undisturbed_running _ _ _, by decide +kernel⟩

/-- No source byte, one source byte `0x02`, and a stream that ends inside its tree header. -/
theorem witness_HufDecReportsTheFirstBit :
    (∃ (s : State) (r : Running), Undisturbed .hufDec s r ∧ preCheck s.params .hufDec r.latch = none ∧
      r.latch.args.src0Len = 0) ∧
    (∃ (s : State) (r : Running), Undisturbed .hufDec s r ∧ preCheck s.params .hufDec r.latch = none ∧
      r.latch.args.src0Len ≠ 0 ∧ 1 < (s.lmem.read r.latch.args.src0Addr.toNat).toNat) ∧
    ∃ (s : State) (r : Running), Undisturbed .hufDec s r ∧ preCheck s.params .hufDec r.latch = none ∧
      hufDecode (elems .bit8 s.lmem r.latch.args.src0Addr.toNat r.latch.args.src0Len.toNat) r.latch.args.dstCap.toNat =
        .error (.trunc, 5) :=
  ⟨⟨running .hufDec (operands 0 0 1) [], runningOf .hufDec (operands 0 0 1), undisturbed_running _ _ _, by decide +kernel⟩,
    ⟨running .hufDec (operands 1 0 1) (bytesAt0 [2]), runningOf .hufDec (operands 1 0 1), undisturbed_running _ _ _,
      by decide +kernel⟩,
    ⟨running .hufDec (operands 5 0 1) (bytesAt0 [1, 0, 0, 0, 0]), runningOf .hufDec (operands 5 0 1),
      undisturbed_running _ _ _, by decide +kernel⟩⟩

/-- The stream of `[1, 1, 2]` cut before its last bit or with room for two symbols only; a one-leaf tree of `EOS`, which
decodes no symbol, and one of 5 with a full destination; the smallest value above 257; and a second leaf 5. -/
theorem witness_HufDecReportsTheFirstFault :
    ((∀ v ∈ [1, 1, 2], v ≤ 256) ∧ [1, 1, 2].length ≤ 3 ∧ 37 < (hufStream [1, 1, 2]).length ∧ 2 < [1, 1, 2].length) ∧
    (∀ c ∈ [(257, 0, 0), (5, 3, 3)], c.1 ≤ 257 ∧ (c.1 = 257 → c.2.1 = 0) ∧ c.2.1 ≤ c.2.2) ∧
    (257 < 258 ∧ 258 < 512) ∧
    ∀ v ∈ [258, 5], (treeSymbols (.leaf 5)).Nodup ∧ (∀ u ∈ treeSymbols (.leaf 5), u ≤ 257) ∧
      (treeSymbols (.leaf 5)).length ≤ 257 ∧ v < 512 ∧ (257 < v ∨ v ∈ treeSymbols (.leaf 5)) := by
  decide +kernel

/-- V-MTF-4: `seed[0] = seed[1] = 1`; what is running then, for either MTF command. -/
def badSeedRunning (i : Instr) : Running :=
  ⟨⟨encode i, Args.zero, 1 :: 1 :: (List.range 254).map fun k => BitVec.ofNat 8 (k + 2)⟩, false, []⟩

theorem witness_RepeatedSeedByteIsReported :
    ∀ i ∈ [Instr.mtfFwd, .mtfInv], ∃ (s : State) (r : Running) (j : Nat), Undisturbed i s r ∧ (i = .mtfFwd ∨ i = .mtfInv) ∧
      RegionsOk s.params ⟨.sym16, r.latch.args.src0Addr.toNat, 2 * r.latch.args.src0Len.toNat⟩ (dstIn .sym16 r.latch.args) ∧
      r.latch.args.src0Len.toNat ≤ r.latch.args.dstCap.toNat ∧ j < r.latch.seed.length ∧
      (∃ q < j, r.latch.seed.getD q 0 = r.latch.seed.getD j 0) ∧
      ∀ k < j, ∀ q < k, r.latch.seed.getD q 0 ≠ r.latch.seed.getD k 0 := by
  intro i hi
  refine ⟨{ State.reset with seq := .busy (badSeedRunning i) }, badSeedRunning i, 1, ⟨rfl, rfl, rfl, rfl⟩, ?_⟩
  simp only [List.mem_cons, List.not_mem_nil, or_false] at hi
  rcases hi with rfl | rfl <;> decide +kernel

/-! ## The host port -/

/-- The first byte past the CSR window, an access that straddles its end, and the first byte past the aperture. -/
theorem witness_UnmappedAccessHasNoEffect :
    ∀ c ∈ [(0x00001000#32, AccessSize.byte), (0x00000FFE#32, .word), (0x01100000#32, .byte)],
      ¬ (∀ k < accessBytes c.2, c.1.toNat + k < 0x1000) ∧
      ¬ (∀ k < accessBytes c.2, 0x01000000 ≤ c.1.toNat + k ∧ c.1.toNat + k < 0x01000000 + State.reset.params.lmemBytes) := by
  decide +kernel

/-- A halfword, a misaligned word, both ends of the first reserved range, and the second reserved range's start and end. -/
theorem witness_WrongOrReservedCsrAccessHasNoEffect :
    ∀ c ∈ [(0x014#32, AccessSize.half), (0x015#32, .word), (0x050#32, .word), (0x0FC#32, .word), (0x200#32, .word), (0xFFC#32, .word)],
      c.1.toNat + accessBytes c.2 ≤ 0x1000 ∧
      (c.2 ≠ .word ∨ c.1.toNat % 4 ≠ 0 ∨ (0x050 ≤ c.1.toNat ∧ c.1.toNat ≤ 0x0FC) ∨ 0x200 ≤ c.1.toNat) := by
  decide +kernel

/-- The last word of LMEM, and a halfword at an odd offset. -/
theorem witness_ApertureStoreReadsBack :
    (∃ (s : State) (o : Nat) (n : AccessSize), s.params.wellFormed = true ∧ o + accessBytes n ≤ s.params.lmemBytes ∧
      o % accessBytes n = 0 ∧ s.seq = .idle ∧ s.lmem.wf = true) ∧
    ∃ (s : State) (o : Nat) (n : AccessSize), s.params.wellFormed = true ∧ o + accessBytes n ≤ s.params.lmemBytes ∧
      o % accessBytes n ≠ 0 :=
  ⟨⟨State.reset, 0xFFFFC, .word, by decide +kernel⟩, ⟨State.reset, 0xFFFFD, .half, by decide +kernel⟩⟩

/-- The first and the last argument register. -/
theorem witness_ArgumentRegistersHoldWhatIsWritten : ∃ k j : Nat, k < 8 ∧ j < 8 ∧ j ≠ k := ⟨0, 7, by decide⟩

theorem witness_SeedWriteReplacesFourEntries : ∃ w i i' : Nat, w < 64 ∧ i < 256 ∧ i / 4 = w ∧ i' < 256 ∧ i' / 4 ≠ w :=
  ⟨63, 255, 251, by decide⟩

/-- A completion, that of an illegal word, an abort's value and a soft reset's, and a hard reset. -/
theorem witness_InterruptFollowsItsTwoBits :
    (∃ (i : Instr) (s t : State) (r : Running), s.seq = .busy r ∧ exec i s = .next t) ∧
    (∃ (s t : State) (r : Running), s.seq = .busy r ∧ engineStep s = .next t) ∧
    (∃ (s : State) (r : Running) (v : Word), s.seq = .busy r ∧ v.getLsbD 0 = false ∧ v.getLsbD 1 = true) ∧
    (∃ v : Word, v.getLsbD 0 = true) ∧ ∃ s t : State, stepEvent (.hardReset []) s = .next t :=
  ⟨⟨.nop, running .nop Args.zero [], _, runningOf .nop Args.zero, rfl, rfl⟩,
    ⟨accept 0x100 State.reset, _, ⟨⟨0x100, Args.zero, []⟩, false, []⟩, rfl, rfl⟩,
    ⟨running .nop Args.zero [], runningOf .nop Args.zero, 2, rfl, rfl, rfl⟩, ⟨1, rfl⟩, ⟨State.reset, _, rfl⟩⟩

theorem witness_HardResetValues : ∃ (s : State) (cells : List Host.Cell) (rest : List Event), s.agenda = .hardReset cells :: rest :=
  ⟨{ State.reset with agenda := [.hardReset [(0, 7)]] }, [(0, 7)], [], rfl⟩

/-- A running command whose `PreCheck` fails, and one whose `PreCheck` passes with a byte outside its `DST`. -/
theorem witness_SoftResetKeepsMemory :
    ∀ cap ∈ [0, 2], ∃ (s : State) (v : Word) (rest : List Event) (o : Nat), v.getLsbD 0 = true ∧
      s.agenda = .access (.write 0x010#32 .word v) :: rest ∧
      ∀ r, s.seq = .busy r → inLatchedDst r.latch o = true → (preCheckLatched s.params r.latch).isSome = true := by
  intro cap hcap
  refine ⟨{ running .pack (operands 9 0 cap) [] with agenda := [.access (.write 0x010#32 .word 1)] }, 1, [], 0x102, rfl, rfl, ?_⟩
  intro r hr
  cases hr
  simp only [List.mem_cons, List.not_mem_nil, or_false] at hcap
  rcases hcap with rfl | rfl <;> decide +kernel

/-- Only reserved bits written; idle; running with a byte outside `DST`; and running with a `PreCheck` that fails after
the host wrote a byte of `DST`. -/
theorem witness_AbortEndsTheRunningCommand :
    (∃ v : Word, v.getLsbD 0 = false ∧ v.getLsbD 1 = false ∧ v ≠ 0) ∧
    (∃ (s : State) (v : Word) (rest : List Event), v.getLsbD 0 = false ∧ v.getLsbD 1 = true ∧
      s.agenda = .access (.write 0x010#32 .word v) :: rest ∧ s.seq = .idle) ∧
    (∃ (s : State) (v : Word) (rest : List Event) (r : Running), v.getLsbD 0 = false ∧ v.getLsbD 1 = true ∧
      s.agenda = .access (.write 0x010#32 .word v) :: rest ∧ s.seq = .busy r ∧ inLatchedDst r.latch 0x102 = false) ∧
    ∃ (s : State) (v : Word) (rest : List Event) (r : Running), v.getLsbD 0 = false ∧ v.getLsbD 1 = true ∧
      s.agenda = .access (.write 0x010#32 .word v) :: rest ∧ s.seq = .busy r ∧ r.dstTouched ≠ [] ∧
      (preCheckLatched s.params r.latch).isSome = true :=
  ⟨⟨4, rfl, rfl, by decide⟩,
    ⟨{ State.reset with agenda := [.access (.write 0x010#32 .word 2)] }, 2, [], rfl, rfl, rfl, rfl⟩,
    ⟨{ running .pack (operands 9 0 2) [] with agenda := [.access (.write 0x010#32 .word 2)] }, 2, [],
      runningOf .pack (operands 9 0 2), rfl, rfl, rfl, rfl, by decide +kernel⟩,
    ⟨{ touchedBelowCapacity with agenda := [.access (.write 0x010#32 .word 2)] }, 2, [],
      { runningOf .pack (operands 9 0 1) with dstTouched := [0x100] }, rfl, rfl, rfl, rfl, by decide, by decide +kernel⟩⟩

/-- The byte just past `DST`, and the last byte before it, which a read may also reach where it is a source's. -/
theorem witness_HostWriteElsewhereIsNoHazard :
    (∃ (s : State) (r : Running) (a : Word) (n : AccessSize) (o : Nat), s.seq = .busy r ∧ s.lmem.wf = true ∧
      target s.params a n = .lmem o ∧
      ∀ k < accessBytes n, inLatchedSrc r.latch (o + k) = false ∧ inLatchedDst r.latch (o + k) = false) ∧
    ∀ c ∈ [(0x010000FF#32, 0xFF), (0x01000008#32, 8)], ∃ (s : State) (r : Running), s.seq = .busy r ∧
      target s.params c.1 .byte = .lmem c.2 ∧ ∀ k < accessBytes .byte, inLatchedDst r.latch (c.2 + k) = false := by
  refine ⟨⟨running .pack (operands 9 0 2) [], runningOf .pack (operands 9 0 2), 0x01000102, .byte, 0x102, rfl,
    by decide +kernel⟩, fun c hc => ⟨running .pack (operands 9 0 2) [], runningOf .pack (operands 9 0 2), rfl, ?_⟩⟩
  simp only [List.mem_cons, List.not_mem_nil, or_false] at hc
  rcases hc with rfl | rfl <;> decide +kernel

/-- The last byte of the source, the last byte of `DST`, a command whose source was written, and one of whose two `DST`
bytes one was. -/
theorem witness_SourceWriteLeavesOtherBytesAlone :
    (∃ (s : State) (r : Running) (a : Word) (n : AccessSize) (o k : Nat), s.seq = .busy r ∧ s.lmem.wf = true ∧
      target s.params a n = .lmem o ∧ k < accessBytes n ∧ inLatchedSrc r.latch (o + k) = true) ∧
    (∃ (s : State) (r : Running) (a : Word) (n : AccessSize) (o k : Nat), s.seq = .busy r ∧ s.lmem.wf = true ∧
      target s.params a n = .lmem o ∧ k < accessBytes n ∧ inLatchedDst r.latch (o + k) = true) ∧
    (∃ (i : Instr) (s : State) (r : Running), s.seq = .busy r ∧ r.latch.cmd = encode i ∧ r.srcTouched = true) ∧
    ∃ (s : State) (r : Running) (o o' : Nat), s.seq = .busy r ∧ r.srcTouched = false ∧ o ∈ r.dstTouched ∧ o' ∉ r.dstTouched :=
  ⟨⟨running .pack (operands 9 0 2) [], runningOf .pack (operands 9 0 2), 0x01000008, .byte, 8, 0, rfl, by decide +kernel⟩,
    ⟨running .pack (operands 9 0 2) [], runningOf .pack (operands 9 0 2), 0x01000100, .half, 0x100, 1, rfl, by decide +kernel⟩,
    ⟨.pack, { State.reset with seq := .busy { runningOf .pack (operands 9 0 2) with srcTouched := true } },
      { runningOf .pack (operands 9 0 2) with srcTouched := true }, rfl, rfl, rfl⟩,
    ⟨{ State.reset with seq := .busy { runningOf .pack (operands 9 0 2) with dstTouched := [0x101] } },
      { runningOf .pack (operands 9 0 2) with dstTouched := [0x101] }, 0x101, 0x100, rfl, rfl, by decide, by decide⟩⟩

/-! ## The whole machine -/

theorem witness_PolledCommandCompletes : ∃ (s : State) (r : Running), s.seq = .busy r ∧ s.agenda ≠ [] ∧
    ∀ e ∈ s.agenda, ∃ a n, e = .access (.read a n) :=
  ⟨{ running .nop Args.zero [] with agenda := [.access (.read 0x18 .word)] }, runningOf .nop Args.zero, rfl, by simp, by simp⟩

theorem witness_InvariantHoldsAtReset : ∃ (p : Params) (m : Memory), p.wellFormed = true ∧ m.wf = true ∧ m.within p.lmemBytes = true :=
  ⟨Params.recommended, bytesAt0 banana, by decide +kernel⟩

/-- The invariant holds of a state with a command running, which has a next state. -/
theorem inv_running : (running .pack (operands 9 0 2) []).Inv := by
  refine ⟨by decide +kernel, rfl, rfl, by decide +kernel, .inl rfl, by decide +kernel, ?_, ?_, ?_, ?_⟩ <;> intro r h <;> cases h
  · decide +kernel
  · rfl
  · rfl
  · intro o ho; cases ho

theorem witness_EveryStepKeepsTheInvariant : ∃ s t : State, s.Inv ∧ step s = .next t :=
  ⟨_, _, inv_running, rfl⟩

theorem witness_NoStepChangesTheParameters : ∃ s t : State, step s = .next t := ⟨State.reset, _, rfl⟩

theorem witness_CommandsKeepTheHostsRegisters :
    ∃ (i : Instr) (s t : State) (r : Running), exec i s = .next t ∧ s.seq = .busy r :=
  ⟨.pack, running .pack (operands 9 0 2) [], _, runningOf .pack (operands 9 0 2), rfl, rfl⟩

theorem witness_CommandsWriteOnlyTheirDestination : ∃ (i : Instr) (s t : State) (r : Running) (o : Nat), s.Inv ∧
    s.seq = .busy r ∧ r.latch.cmd = encode i ∧ exec i s = .next t ∧ inLatchedDst r.latch o = false :=
  ⟨.pack, _, _, runningOf .pack (operands 9 0 2), 0x102, inv_running, rfl, rfl, rfl, by decide +kernel⟩

/-- Two memories that agree on the source and differ elsewhere. -/
theorem witness_OutcomeDependsOnLatchAndSources :
    ∃ (i : Instr) (s₁ s₂ t₁ t₂ : State) (r : Running), Undisturbed i s₁ r ∧ Undisturbed i s₂ r ∧ s₁.params = s₂.params ∧
      s₁.lmem.wf = true ∧ s₂.lmem.wf = true ∧
      (∀ o, inLatchedSrc r.latch o = true → s₁.lmem.read o = s₂.lmem.read o) ∧
      exec i s₁ = .next t₁ ∧ exec i s₂ = .next t₂ ∧ t₁.errCode = 0 ∧ s₁.lmem ≠ s₂.lmem := by
  refine ⟨.pack, running .pack (operands 9 0 2) [(0x200, 1)], running .pack (operands 9 0 2) [(0x200, 2)], _, _,
    runningOf .pack (operands 9 0 2), undisturbed_running _ _ _, undisturbed_running _ _ _, rfl, rfl, rfl, ?_, rfl, rfl,
    by decide +kernel, by decide⟩
  intro o ho
  have hlt : o < 9 := by
    by_contra h
    have : inLatchedSrc (runningOf .pack (operands 9 0 2)).latch o = decide (0 ≤ o ∧ o < 0 + 9) := by
      rw [inLatchedSrc, latchedOp_encode (i := .pack) rfl]
      simp [src0Region, src1Region, Region.covers, runningOf, operands]
    rw [this] at ho
    simp at ho
    omega
  have h : ∀ v : Byte, Memory.read [(0x200, v)] o = 0 := by
    intro v
    have : ¬ (0x200 = o) := by omega
    simp only [Memory.read, if_neg this, Memory.unlisted]
    rfl
  exact (h 1).trans (h 2).symm

/-! ## The algorithms -/

/-- Keys at both ends of the alphabet `[-1, 2]`. -/
theorem witness_RadixPassIsAStableSort :
    ∀ i ∈ [0, 1, 2], -((1 : Nat) : Int) ≤ [2, -1, 2].getD (i + 0) (0 : Int) ∧ [2, -1, 2].getD (i + 0) (0 : Int) ≤ ((2 : Nat) : Int) := by
  decide

/-- V-SA-5, first row; and no real symbol at all. -/
theorem witness_Dc3ComputesTheSuffixArray :
    Dc3Pre [2, 1, 2, 1, 0, -1, -1, -1] 5 2 1 ∧ Dc3Pre [9, 9, 9] 0 9 0 := by decide

theorem witness_MoveToFrontShiftsTheEarlierEntries : ∃ (lst : List Nat) (r q q' : Nat), r < lst.length ∧ 0 < q ∧ q ≤ r ∧ r < q' :=
  ⟨[5, 6, 7], 1, 1, 2, by decide⟩

/-- The last index of the identity list, and the symbols of 43_mtf.md R241's example. -/
theorem witness_MtfRoundTrip : (∃ (lst : List Nat) (r v : Nat), IsRecencyList lst ∧ lst[r]? = some v) ∧
    ∃ seed s : List Nat, IsRecencyList seed ∧ ∀ v ∈ s, v ≤ 256 :=
  ⟨⟨List.range 256, 255, 255, List.Perm.refl _, by decide +kernel⟩, ⟨List.range 256, bananaBwt, List.Perm.refl _, by decide⟩⟩

theorem witness_PackAndUnpackAreInverse : (∀ b ∈ [1, 0, 1], b ≤ 1) ∧ ∀ y ∈ [0xB2, 0xFF], y ≤ 255 := by decide

theorem witness_HuffmanTreeLeavesAndHeaderLength : ∀ v ∈ bananaRanks, v ≤ 256 := by decide

theorem witness_HuffmanCodesArePrefixFree : ∃ (s : List Nat) (u v : Nat), (∀ w ∈ s, w ≤ 256) ∧
    u ∈ treeSymbols (buildTree s) ∧ v ∈ treeSymbols (buildTree s) ∧ u ≠ v :=
  ⟨[1, 1, 2], 1, 257, by decide +kernel⟩

/-- A tree that `buildTree` does not make (`EOS` first), the lone leaf of `EOS`, and V-MTF-1's ranks. -/
theorem witness_HuffmanRoundTrip :
    (∀ c ∈ [(Tree.node (.leaf 257) (.node (.leaf 7) (.leaf 0)), [0, 7, 7]), (.leaf 257, [])],
      (treeSymbols c.1).Nodup ∧ (∀ v ∈ treeSymbols c.1, v ≤ 257) ∧ 257 ∈ treeSymbols c.1 ∧
        (∀ v ∈ c.2, v ∈ treeSymbols c.1 ∧ v ≠ 257) ∧ c.2.length ≤ 3) ∧
    ∃ (s : List Nat) (cap : Nat), (∀ v ∈ s, v ≤ 256) ∧ s.length ≤ cap :=
  ⟨by decide, bananaRanks, 7, by decide⟩

/-- V-SA-1: `IsSuffixArray` of `"banana#"`. -/
theorem witness_BwtRoundTrip : ∃ str sa : List Nat, (∀ b ∈ str, b ≤ 255) ∧ IsSuffixArray (str.map Int.ofNat ++ [-1]) sa :=
  ⟨banana, [6, 5, 3, 1, 0, 4, 2], by decide, by decide, by decide⟩

end Sys2Proof.Machine.Tests
end

section
/-! The proofs of the host port's obligations (20_memory.md). -/

namespace Sys2Proof.Machine

/-- A read that reaches nothing returns 0 (20_memory.md R72 to R74). -/
theorem hostRead_of_target_nothing {a : Word} {n : AccessSize} {s : State} (h : target s.params a n = .nothing) :
    hostRead a n s = { s with rdata := 0 } := by
  simp only [hostRead, h]

/-- A write that reaches nothing is ignored (20_memory.md R72 to R74). -/
theorem hostWrite_of_target_nothing {a : Word} {n : AccessSize} {s : State} (v : Word)
    (h : target s.params a n = .nothing) : hostWrite a n v s = s := by
  simp only [hostWrite, h]

/-- R72's unmapped and straddling accesses reach nothing: one that reaches a CSR or LMEM has all its bytes in the
window or all in the aperture. -/
theorem target_of_unmapped {p : Params} {a : Word} {n : AccessSize}
    (hcsr : ¬ ∀ k < accessBytes n, a.toNat + k < 0x1000)
    (hlmem : ¬ ∀ k < accessBytes n, apertureBase ≤ a.toNat + k ∧ a.toNat + k < apertureBase + p.lmemBytes) :
    target p a n = .nothing := by
  cases ht : target p a n with
  | csr c =>
    obtain ⟨rfl, -, hwindow, -⟩ := target_eq_csr ht
    refine absurd (fun k hk => ?_) hcsr
    have hk : k < 4 := hk
    omega
  | lmem o =>
    obtain ⟨haddr, -, hbound⟩ := target_eq_lmem ht
    exact absurd (fun k hk => ⟨by omega, by omega⟩) hlmem
  | nothing => rfl

/-- Settles O31: an unmapped access has the target `nothing`, which a read answers with 0 and a write ignores. -/
theorem unmappedAccessHasNoEffect : Obligations.UnmappedAccessHasNoEffect := by
  intro s a n v hcsr hlmem
  have ht : target s.params a n = .nothing := target_of_unmapped hcsr hlmem
  exact ⟨hostRead_of_target_nothing ht, hostWrite_of_target_nothing v ht⟩

end Sys2Proof.Machine
end

section
/-! The proof of the encoding's obligation on illegal words (30_encoding.md R102). -/

namespace Sys2Proof.Machine

/-- The opcode map of 30_encoding.md R101 ends at `0x0A`. -/
theorem opcodeMap_eq_none {op : BitVec 8} (h : 0x0B ≤ op.toNat) : opcodeMap op = none := by
  unfold opcodeMap
  split
  case h_12 => rfl
  all_goals omega

/-- The check on `RSVD` reads bits 31:8 of the word (30_encoding.md R100). -/
theorem rsvdOk_commandFields (w : Word) : (commandFields w).rsvdOk = true ↔ w.extractLsb' 8 24 = 0 := by
  simp [commandFields, CommandWord.rsvdOk]

/-- The decoder refuses a word with an opcode above the map or a bit of `RSVD` set (30_encoding.md R102). It checks
`RSVD` first (R103), so a word with both faults is refused for its reserved bits. -/
theorem decode_eq_error_of_illegal {w : Word} (h : 0x0B ≤ (w.extractLsb' 0 8).toNat ∨ w.extractLsb' 8 24 ≠ 0) :
    ∃ e, decode w = .error e := by
  by_cases hrsvd : w.extractLsb' 8 24 = 0
  · have hmap : opcodeMap (commandFields w).opcode = none := opcodeMap_eq_none (h.resolve_right (· hrsvd))
    exact ⟨.badOpcode w, by simp only [decode, rsvdOk_commandFields, if_pos hrsvd, hmap]⟩
  · exact ⟨.reservedBits w, by simp only [decode, rsvdOk_commandFields, if_neg hrsvd]⟩

/-- An aligned word access at `0x014` reaches `CMD` (10_state.md R21). -/
theorem target_cmd (p : Params) : target p 0x014#32 .word = .csr .cmd := rfl

/-- A `CMD` write that comes next at an idle block is accepted, whatever its word (40_command.md R141). -/
theorem step_cmdWrite_idle {s : State} {w : Word} {rest : List Event} (hidle : s.seq = .idle)
    (hnext : s.agenda = .access (.write 0x014#32 .word w) :: rest) :
    step s = .next (accept w { s with agenda := rest }) := by
  simp only [step_cons hnext, stepEvent, hostAccess, hostWrite, target_cmd, writeCsr, writeCmd, hidle]

/-- A block that has accepted a command is busy (40_command.md R141). -/
theorem accept_busy (w : Word) (s : State) : (accept w s).busy = true := rfl

/-- The completion of an accepted illegal word reports `BADOP` with that word (30_encoding.md R102). -/
theorem engineStep_accept_illegal {w : Word} {s : State} {e : DecodeError} (hd : decode w = .error e) :
    engineStep (accept w s) = .next (completeErr .badOp w.toNat (accept w s)) :=
  engineStep_illegal (accept_seq w s) hd

/-- An error completion meets `Failed`, with the error's code (40_command.md R146). -/
theorem failed_completeErr (e : ErrCode) (info : Nat) (s : State) :
    Failed s (completeErr e info s) (errCodeByte e) info := rfl

/-- Settles O5: acceptance makes the block busy with the word in `CMD`; the decoder refuses the word, so the engine
completes it with `BADOP`, and neither step touches LMEM. -/
theorem illegalWordCompletesWithBadop : Obligations.IllegalWordCompletesWithBadop := by
  intro s w rest hidle hnext hillegal
  obtain ⟨e, hd⟩ := decode_eq_error_of_illegal hillegal
  exact ⟨accept w { s with agenda := rest }, step_cmdWrite_idle hidle hnext, accept_busy _ _, accept_cmd _ _,
    _, engineStep_accept_illegal hd, failed_completeErr .badOp _ _, by simp⟩

end Sys2Proof.Machine
end

section
/-! The proof of the command life cycle's obligation on dropped commands (40_command.md R142). -/

namespace Sys2Proof.Machine

/-- An aligned word write at `0x014` is a `CMD` write (10_state.md R21, R28). -/
theorem hostWrite_cmd (w : Word) (s : State) : hostWrite 0x014#32 .word w s = writeCmd w s := by
  simp only [hostWrite, target_cmd, writeCsr]

/-- When a `CMD` write comes next, the step is that write, whether or not a command runs. -/
theorem step_cmdWrite {s : State} {w : Word} {rest : List Event}
    (hnext : s.agenda = .access (.write 0x014#32 .word w) :: rest) :
    step s = .next (writeCmd w { s with agenda := rest }) := by
  simp only [step_cons hnext, stepEvent, hostAccess, hostWrite_cmd]

/-- A `CMD` write that comes next at a busy block is dropped, whatever its word (40_command.md R142). -/
theorem step_cmdWrite_busy {s : State} {r : Running} {w : Word} {rest : List Event} (hbusy : s.seq = .busy r)
    (hnext : s.agenda = .access (.write 0x014#32 .word w) :: rest) :
    step s = .next (dropCommand { s with agenda := rest }) := by
  have hrunning : ({ s with agenda := rest } : State).seq = .busy r := hbusy
  rw [step_cmdWrite hnext, writeCmd_busy hrunning]

/-- Settles O7: the write reaches `CMD`, which a busy block answers with `dropCommand`, and that sets `DROP` alone. -/
theorem commandWriteWhileBusyIsDropped : Obligations.CommandWriteWhileBusyIsDropped := by
  intro s r w rest hbusy hnext
  exact step_cmdWrite_busy hbusy hnext

end Sys2Proof.Machine
end

section
/-! The proof of the Huffman coder's obligation on its codes (44_huffman.md R262, R268). -/

namespace Sys2Proof.Machine

/-- `Assign` extends the path it is given by the path of each leaf (44_huffman.md R262). -/
theorem assignCodes_eq_map_leafPaths (t : Tree) (path : List Bool) :
    assignCodes t path = (leafPaths t).map fun c => (c.1, path ++ c.2) := by
  induction t generalizing path with
  | leaf v => simp [assignCodes, leafPaths]
  | node left right ihl ihr => simp [assignCodes, leafPaths, ihl, ihr, Function.comp_def]

/-- The code table of a tree with two leaves or more is its table of paths (44_huffman.md R262). -/
theorem codes_node (left right : Tree) : codes (.node left right) = leafPaths (.node left right) := by
  simp [codes, assignCodes_eq_map_leafPaths]

/-- Each leaf has one path, and the paths stand in the order of the leaves. -/
theorem map_fst_leafPaths (t : Tree) : (leafPaths t).map Prod.fst = treeSymbols t := by
  induction t with
  | leaf v => rfl
  | node left right ihl ihr => simp [leafPaths, treeSymbols, ← ihl, ← ihr, Function.comp_def]

/-- The code table has one entry for each leaf, in the order of the leaves. -/
theorem map_fst_codes (t : Tree) : (codes t).map Prod.fst = treeSymbols t := by
  cases t with
  | leaf v => rfl
  | node left right => rw [codes_node, map_fst_leafPaths]

/-- The paths of two leaves part where their branches part, so no path begins the path of another leaf
(44_huffman.md R268). -/
theorem eq_of_leafPaths_prefix {t : Tree} {c d : Nat × List Bool} (hc : c ∈ leafPaths t) (hd : d ∈ leafPaths t)
    (hprefix : c.2 <+: d.2) : c = d := by
  induction t generalizing c d with
  | leaf v =>
    simp only [leafPaths, List.mem_singleton] at hc hd
    rw [hc, hd]
  | node left right ihl ihr =>
    simp only [leafPaths, List.mem_append, List.mem_map] at hc hd
    obtain ⟨c, hc, rfl⟩ | ⟨c, hc, rfl⟩ := hc <;> obtain ⟨d, hd, rfl⟩ | ⟨d, hd, rfl⟩ := hd
    · rw [ihl hc hd (by simpa using hprefix)]
    · simp at hprefix
    · simp at hprefix
    · rw [ihr hc hd (by simpa using hprefix)]

/-- The code of a leaf's symbol is an entry of the code table. -/
theorem codeOf_mem_codes {t : Tree} {v : Nat} (hv : v ∈ treeSymbols t) : (v, codeOf t v) ∈ codes t := by
  have hkey : v ∈ (codes t).map Prod.fst := by rwa [map_fst_codes]
  obtain ⟨c, hc, rfl⟩ := List.mem_map.mp hkey
  have hsome : ((codes t).lookup c.1).isSome := List.lookup_isSome_iff.mpr ⟨c, hc, beq_self_eq_true _⟩
  obtain ⟨p, hp⟩ := Option.isSome_iff_exists.mp hsome
  obtain ⟨l₁, l₂, hsplit, -⟩ := List.lookup_eq_some_iff.mp hp
  have hcode : codeOf t c.1 = p := by rw [codeOf, hp, Option.getD_some]
  rw [hcode, hsplit]
  exact List.mem_append_right l₁ List.mem_cons_self

/-- In any tree, one leaf symbol's code begins another's only where the symbols are the same (44_huffman.md R268). -/
theorem eq_of_codeOf_prefix {t : Tree} {u v : Nat} (hu : u ∈ treeSymbols t) (hv : v ∈ treeSymbols t)
    (hprefix : codeOf t u <+: codeOf t v) : u = v := by
  cases t with
  | leaf w =>
    simp only [treeSymbols, List.mem_singleton] at hu hv
    rw [hu, hv]
  | node left right =>
    have hcu := codeOf_mem_codes hu
    have hcv := codeOf_mem_codes hv
    rw [codes_node] at hcu hcv
    exact congrArg Prod.fst (eq_of_leafPaths_prefix hcu hcv hprefix)

/-- Symbols of frequency 0 get no leaf (44_huffman.md R261). -/
theorem qLeaves_append_of_freq_zero {s vs : List Nat} (k : Nat) (ws : List Nat) (h : ∀ v ∈ vs, freq s v = 0) :
    qLeaves s k (vs ++ ws) = qLeaves s k ws := by
  induction vs with
  | nil => rfl
  | cons v vs ih =>
    obtain ⟨hv, hvs⟩ := List.forall_mem_cons.mp h
    rw [List.cons_append, qLeaves, if_pos hv, ih hvs]

/-- The empty input has the one leaf `EOS` (44_huffman.md R260). -/
theorem qLeaves_nil : qLeaves [] 0 (List.range 258) = [⟨1, 0, .leaf 257⟩] := by
  have hzero : ∀ v ∈ List.range 257, freq [] v = 0 := by
    intro v hv
    have hlt : v < 257 := List.mem_range.mp hv
    simp [freq, eos, hlt.ne]
  rw [List.range_succ, qLeaves_append_of_freq_zero 0 _ hzero]
  rfl

/-- The tree of the empty input is degenerate (44_huffman.md R262). -/
theorem buildTree_nil : buildTree [] = .leaf 257 := by
  simp only [buildTree, qLeaves_nil]
  rfl

/-- Settles O57: the code table is the table of root-to-leaf paths, and a path begins another only where they lead to
the same leaf; the tree of the empty input is the lone leaf of `EOS`. -/
theorem huffmanCodesArePrefixFree : Obligations.HuffmanCodesArePrefixFree := by
  refine ⟨fun s u v _ hu hv hne hprefix => hne (eq_of_codeOf_prefix hu hv hprefix), ?_, fun v => rfl, codes_node⟩
  rw [buildTree_nil]
  rfl

end Sys2Proof.Machine
end

section
/-! The proofs of the whole machine's obligations: what a step can do, and what every step keeps. -/

namespace Sys2Proof.Machine

/-! ## What a step can do -/

/-- The latched operation is the one that the decoder reads. -/
theorem latchedOp_of_decode {l : Latch} {i : Instr} (h : decode l.cmd = .ok i) : latchedOp l = some i := by
  simp [latchedOp, h, Except.toOption]

/-- Everything a step of the engine can do: nothing at an idle block, or the completion of the running word, legal or
not (40_command.md R143, 60_exceptions.md R336). -/
theorem engineStep_next {s t : State} (h : engineStep s = .next t) :
    (s.seq = .idle ∧ t = s) ∨ ∃ r, s.seq = .busy r ∧
      ((∃ i, decode r.latch.cmd = .ok i ∧ t = completion i r (execResult i (commandBody i) s.params r.latch s.lmem) s) ∨
        t = completeIllegal r s) := by
  cases hs : s.seq with
  | idle =>
    rw [engineStep_idle hs] at h
    exact .inl ⟨rfl, by simpa using h.symm⟩
  | busy r =>
    refine .inr ⟨r, rfl, ?_⟩
    cases hd : decode r.latch.cmd with
    | ok i =>
      rw [engineStep_legal hs hd, exec_busy hs] at h
      exact .inl ⟨i, rfl, by simpa using h.symm⟩
    | error e =>
      rw [engineStep_illegal hs hd] at h
      exact .inr (by simpa using h.symm)

/-- Everything a step can do: the engine moves, the host accesses the block, or the reset input is taken
(00_scope.md R11), each after what comes next was taken off the agenda. -/
theorem step_next {s t : State} (h : step s = .next t) :
    ∃ rest, engineStep { s with agenda := rest } = .next t ∨ (∃ a, t = hostAccess a { s with agenda := rest }) ∨
      ∃ cells, t = hardResetTo cells { s with agenda := rest } := by
  cases ha : s.agenda with
  | nil =>
    rw [step_nil ha] at h
    exact ⟨s.agenda, .inl h⟩
  | cons e rest =>
    rw [step_cons ha] at h
    refine ⟨rest, ?_⟩
    cases e with
    | access a => exact .inr (.inl ⟨a, by simpa [stepEvent] using h.symm⟩)
    | complete => exact .inl h
    | hardReset cells => exact .inr (.inr ⟨cells, by simpa [stepEvent] using h.symm⟩)

/-! ## The invariant -/

/-- `t` is `s` but for fields that the invariant does not read: the host's own registers, `DROP`, the interrupt bits,
and the model's own fields. -/
def SameForInv (s t : State) : Prop :=
  t = { s with drop := t.drop, doneIE := t.doneIE, doneIP := t.doneIP, args := t.args, mtfSeed := t.mtfSeed,
               agenda := t.agenda, rdata := t.rdata, draws := t.draws }

theorem State.Inv.of_same {s t : State} (h : s.Inv) (hst : SameForInv s t) : t.Inv := by
  rw [hst]
  exact ⟨h.paramsOk, h.lmemCanonical, h.lmemWithin, h.errIffCode, h.codeListed, h.errDone, h.busyClear, h.busyCmd,
    h.busySeed, h.busyTouched⟩

/-- An idle block meets the invariant when its parameters, its memory and its error record are in order. -/
theorem State.Inv.of_idle {t : State} (hidle : t.seq = .idle) (hp : t.params.wellFormed = true)
    (hwf : t.lmem.wf = true) (hin : t.lmem.within t.params.lmemBytes = true) (herr : t.err = true ↔ t.errCode ≠ 0)
    (hcode : t.errCode = 0 ∨ ∃ e : ErrCode, t.errCode = errCodeByte e) (hdone : t.err = true → t.done = true) :
    t.Inv where
  paramsOk := hp
  lmemCanonical := hwf
  lmemWithin := hin
  errIffCode := herr
  codeListed := hcode
  errDone := hdone
  busyClear r hr := by simp [hidle] at hr
  busyCmd r hr := by simp [hidle] at hr
  busySeed r hr := by simp [hidle] at hr
  busyTouched r hr := by simp [hidle] at hr

/-- The state after a reset meets the invariant, whatever LMEM holds (70_reset_and_hazards.md R361, R364). -/
theorem hardReset_inv {p : Params} {m : Memory} (hp : p.wellFormed = true) (hwf : m.wf = true)
    (hin : m.within p.lmemBytes = true) : (State.hardReset p m).Inv :=
  .of_idle rfl hp hwf hin (by simp [State.hardReset]) (.inl rfl) (by simp [State.hardReset])

/-- Settles O45: the recommended parameters are legal, an LMEM with no listed byte is canonical. -/
theorem invariantHoldsAtReset : Obligations.InvariantHoldsAtReset :=
  ⟨hardReset_inv (by decide) rfl rfl, fun _ _ => hardReset_inv⟩

/-- What ends a running command keeps the invariant, if it keeps LMEM canonical and inside its size. -/
theorem CompletionFrame.inv {s t : State} (hf : CompletionFrame s t) (h : s.Inv) (hwf : t.lmem.wf = true)
    (hin : t.lmem.within s.params.lmemBytes = true) : t.Inv :=
  .of_idle hf.seq (hf.params ▸ h.paramsOk) hwf (hf.params ▸ hin) hf.errIffCode hf.codeListed fun _ => hf.done

/-- Writes inside LMEM keep it canonical and inside its size. -/
theorem Memory.WritesOnly.keeps {P : Nat → Prop} {s : State} {m : Memory} (hw : Memory.WritesOnly P s.lmem m)
    (hP : ∀ o, P o → o < s.params.lmemBytes) (h : s.Inv) :
    m.wf = true ∧ m.within s.params.lmemBytes = true :=
  ⟨hw.wf h.lmemCanonical, hw.within _ hP h.lmemWithin⟩

/-- The writes of a legal command's completion, its `PutElem` calls bounded by its `DST` (20_memory.md R88). -/
theorem execCompletion_writesOnly {i : Instr} {r : Running} {s : State} (hop : latchedOp r.latch = some i) :
    Memory.WritesOnly (MayWrite s.params r) s.lmem
      (completion i r (execResult i (commandBody i) s.params r.latch s.lmem) s).lmem := by
  refine completion_writesOnly hop fun out hout => ?_
  obtain ⟨hpre, hbody⟩ := execResult_ok hout
  exact ⟨hpre, (commandBody_output hpre hbody).2⟩

/-- While a command runs, a completion writes inside LMEM only. -/
theorem State.Inv.mayWrite_lt {s : State} {r : Running} (h : s.Inv) (hs : s.seq = .busy r) (o : Nat)
    (ho : MayWrite s.params r o) : o < s.params.lmemBytes :=
  ho.elim (fun hd => hd.2) fun ht => (h.busyTouched r hs o ht).2

theorem engineStep_inv {s t : State} (h : s.Inv) (hstep : engineStep s = .next t) : t.Inv := by
  obtain ⟨-, rfl⟩ | ⟨r, hs, ⟨i, hd, rfl⟩ | rfl⟩ := engineStep_next hstep
  · exact h
  · obtain ⟨hwf, hin⟩ := (execCompletion_writesOnly (latchedOp_of_decode hd)).keeps (h.mayWrite_lt hs) h
    exact (completion_frame i r _ s).inv h hwf hin
  · exact (completeErr_frame _ _ s).inv h h.lmemCanonical h.lmemWithin

theorem hardResetTo_inv {s : State} (cells : List Host.Cell) (h : s.Inv) : (hardResetTo cells s).Inv := by
  obtain ⟨hwf, hin⟩ := Memory.ofCells_wf_within s.params.lmemBytes cells
  exact (hardReset_inv h.paramsOk hwf hin).of_same rfl

/-- What a discarded command leaves in LMEM is canonical and inside its size. -/
theorem discardRunning_keeps {s : State} (h : s.Inv) :
    (discardRunning s).lmem.wf = true ∧ (discardRunning s).lmem.within s.params.lmemBytes = true :=
  (discardRunning_writesOnly s).keeps (fun _ ho => ho.1) h

theorem softReset_inv {s : State} (h : s.Inv) : (softReset s).Inv := by
  obtain ⟨hwf, hin⟩ := discardRunning_keeps h
  exact (hardReset_inv h.paramsOk hwf hin).of_same rfl

theorem abort_inv {s : State} (h : s.Inv) : (abort s).Inv := by
  cases hs : s.seq with
  | idle => rwa [abort_idle hs]
  | busy r =>
    obtain ⟨hwf, hin⟩ := discardRunning_keeps h
    rw [← abort_lmem] at hwf hin
    exact (abort_frame hs).inv h hwf hin

theorem writeCtrl_inv {s : State} (v : Word) (h : s.Inv) : (writeCtrl v s).Inv := by
  unfold writeCtrl
  split
  · exact softReset_inv h
  · split
    · exact abort_inv h
    · exact h

/-- The latched seed is a whole table for the two MTF opcodes, and empty otherwise (40_command.md R141). -/
theorem latchedSeed_length (w : Word) (t : Vector Word 64) :
    (latchedSeed w t).length = if w.extractLsb' 0 8 = 5 ∨ w.extractLsb' 0 8 = 6 then 256 else 0 := by
  unfold latchedSeed
  split
  · next hw => exact (seedTable_length t).trans (if_pos hw).symm
  · next hw => exact (if_neg hw).symm

theorem accept_inv {s : State} (w : Word) (h : s.Inv) : (accept w s).Inv where
  paramsOk := h.paramsOk
  lmemCanonical := h.lmemCanonical
  lmemWithin := h.lmemWithin
  errIffCode := by simp
  codeListed := .inl rfl
  errDone := by simp
  busyClear _ _ := ⟨rfl, rfl, rfl, rfl, rfl⟩
  busyCmd r hr := by obtain rfl := Seq.busy.inj hr; rfl
  busySeed r hr := by obtain rfl := Seq.busy.inj hr; exact latchedSeed_length w _
  busyTouched r hr o ho := by obtain rfl := Seq.busy.inj hr; simp at ho

theorem writeCmd_inv {s : State} (v : Word) (h : s.Inv) : (writeCmd v s).Inv := by
  cases hs : s.seq with
  | idle => rw [writeCmd_idle hs]; exact accept_inv v h
  | busy r => rw [writeCmd_busy hs]; exact h.of_same rfl

theorem writeCsr_inv {s : State} (c : Csr) (v : Word) (h : s.Inv) : (writeCsr c v s).Inv := by
  cases c with
  | ctrl => exact writeCtrl_inv v h
  | cmd => exact writeCmd_inv v h
  | _ => exact h.of_same rfl

@[simp] theorem noteHostWrite_latch (os : List Nat) (r : Running) : (noteHostWrite os r).latch = r.latch := rfl

theorem hostWriteLmem_seq_busy {o n : Nat} {v : Word} {s : State} {r' : Running}
    (h : (hostWriteLmem o n v s).seq = .busy r') :
    ∃ r, s.seq = .busy r ∧ r' = noteHostWrite (byteOffsets o n) r := by
  cases hs : s.seq with
  | idle => simp [hostWriteLmem, hs] at h
  | busy r => exact ⟨r, rfl, by simpa [hostWriteLmem, hs] using h.symm⟩

theorem hostWriteLmem_inv {s : State} {o n : Nat} (v : Word) (hn : o + n ≤ s.params.lmemBytes) (h : s.Inv) :
    (hostWriteLmem o n v s).Inv := by
  obtain ⟨hwf, hin⟩ := (memWrite_writesOnly s.lmem o n v.toNat).keeps (fun a ha => by omega) h
  refine ⟨h.paramsOk, hwf, hin, h.errIffCode, h.codeListed, h.errDone, ?_, ?_, ?_, ?_⟩
  all_goals
    intro r' hr'
    obtain ⟨r, hr, rfl⟩ := hostWriteLmem_seq_busy hr'
  · exact h.busyClear r hr
  · exact h.busyCmd r hr
  · exact h.busySeed r hr
  · intro a ha
    obtain ha | ⟨ha, hdst⟩ := mem_noteHostWrite ha
    · exact h.busyTouched r hr a ha
    · have := mem_byteOffsets.1 ha
      exact ⟨hdst, show a < s.params.lmemBytes by omega⟩

theorem hostWrite_inv {s : State} (a : Word) (n : AccessSize) (v : Word) (h : s.Inv) : (hostWrite a n v s).Inv := by
  unfold hostWrite
  split
  · exact writeCsr_inv _ v h
  · next ht => exact hostWriteLmem_inv v (target_eq_lmem ht).2.2 h
  · exact h

theorem hostRead_sameForInv (a : Word) (n : AccessSize) (s : State) : SameForInv s (hostRead a n s) := by
  unfold SameForInv
  rw [hostRead_frame]

theorem hostAccess_inv {s : State} (a : Transaction) (h : s.Inv) : (hostAccess a s).Inv := by
  cases a with
  | read a n => exact h.of_same (hostRead_sameForInv a n s)
  | write a n v => exact hostWrite_inv a n v h

/-- Settles O46: the engine, the host and the reset input each keep the invariant, and the agenda is not part of it. -/
theorem everyStepKeepsTheInvariant : Obligations.EveryStepKeepsTheInvariant := by
  intro s t hinv hstep
  obtain ⟨rest, hnext⟩ := step_next hstep
  have h : ({ s with agenda := rest } : State).Inv := hinv.of_same rfl
  obtain hengine | ⟨a, rfl⟩ | ⟨cells, rfl⟩ := hnext
  · exact engineStep_inv h hengine
  · exact hostAccess_inv a h
  · exact hardResetTo_inv cells h

end Sys2Proof.Machine
end

section
/-! The proofs of the obligations on the life of a command: which step it takes, what its completion leaves alone, and
that it completes (40_command.md section 1). -/

namespace Sys2Proof.Machine

/-- Settles O4: an empty agenda and a completion slot both give the step to the engine, which runs the latched command. -/
theorem stepRunsTheLatchedCommand : Obligations.StepRunsTheLatchedCommand := by
  intro s r i hs hd _
  refine ⟨fun hempty => ?_, fun rest hslot => ?_⟩
  · rw [step_nil hempty, engineStep_legal hs hd]
  · rw [step_cons hslot]
    exact engineStep_legal (s := { s with agenda := rest }) hs hd

/-- Settles O6: the step of a `CMD` write at an idle block is `accept`. -/
theorem acceptanceLatchesTheOperands : Obligations.AcceptanceLatchesTheOperands := by
  intro s w rest hidle hnext
  exact step_cmdWrite_idle hidle hnext

/-- The engine answers a next state, whatever runs (60_exceptions.md R320, R327). -/
theorem engineStep_answers (s : State) : ∃ t, engineStep s = .next t := by
  cases hs : s.seq with
  | idle => exact ⟨s, engineStep_idle hs⟩
  | busy r =>
    cases hd : decode r.latch.cmd with
    | ok i => exact ⟨_, (engineStep_legal hs hd).trans (exec_busy hs)⟩
    | error e => exact ⟨_, engineStep_illegal hs hd⟩

/-- Settles O43: the host and the reset input always get a next state, and so does the engine. -/
theorem everyStepAnswersANextState : Obligations.EveryStepAnswersANextState := by
  intro s
  cases ha : s.agenda with
  | nil => rw [step_nil ha]; exact engineStep_answers s
  | cons e rest =>
    rw [step_cons ha]
    cases e with
    | access a => exact ⟨_, rfl⟩
    | complete => exact engineStep_answers _
    | hardReset cells => exact ⟨_, rfl⟩

/-! ## The parameters -/

theorem engineStep_params {s t : State} (h : engineStep s = .next t) : t.params = s.params := by
  obtain ⟨-, rfl⟩ | ⟨r, -, ⟨i, -, rfl⟩ | rfl⟩ := engineStep_next h
  · rfl
  · exact (completion_frame i r _ s).params
  · rfl

theorem abort_params (s : State) : (abort s).params = s.params := by
  cases hs : s.seq with
  | idle => rw [abort_idle hs]
  | busy r => exact (abort_frame hs).params

theorem writeCtrl_params (v : Word) (s : State) : (writeCtrl v s).params = s.params := by
  unfold writeCtrl
  split
  · rfl
  · split
    · exact abort_params s
    · rfl

theorem writeCmd_params (v : Word) (s : State) : (writeCmd v s).params = s.params := by
  unfold writeCmd
  split <;> rfl

theorem writeCsr_params (c : Csr) (v : Word) (s : State) : (writeCsr c v s).params = s.params := by
  cases c with
  | ctrl => exact writeCtrl_params v s
  | cmd => exact writeCmd_params v s
  | _ => rfl

theorem hostAccess_params (a : Transaction) (s : State) : (hostAccess a s).params = s.params := by
  cases a with
  | read a n => simp only [hostAccess]; rw [hostRead_frame]
  | write a n v =>
    simp only [hostAccess, hostWrite]
    split
    · exact writeCsr_params _ v s
    · rfl
    · rfl

/-- Settles O47: neither the engine, nor a host access, nor the reset input writes the parameters. -/
theorem noStepChangesTheParameters : Obligations.NoStepChangesTheParameters := by
  intro s t h
  obtain ⟨rest, hengine | ⟨a, rfl⟩ | ⟨cells, rfl⟩⟩ := step_next h
  · have hp := engineStep_params hengine
    exact hp
  · exact hostAccess_params a _
  · rfl

/-! ## What a completion leaves alone -/

/-- Everything `exec` can do: nothing at an idle block, the command's completion at a busy one. -/
theorem exec_next {i : Instr} {s t : State} (h : exec i s = .next t) :
    (s.seq = .idle ∧ t = s) ∨
      ∃ r, s.seq = .busy r ∧ t = completion i r (execResult i (commandBody i) s.params r.latch s.lmem) s :=
  runCommand_next (exec_eq_runCommand i s ▸ h)

/-- Settles O48: an idle block stays as it is, and every completion has the frame that both results and the hazard
rule share. -/
theorem commandsKeepTheHostsRegisters : Obligations.CommandsKeepTheHostsRegisters := by
  intro i s t h
  obtain ⟨hidle, rfl⟩ | ⟨r, -, rfl⟩ := exec_next h
  · exact ⟨rfl, rfl, rfl, rfl, rfl, rfl, rfl, rfl, fun r hr => by simp [hidle] at hr⟩
  · have hf := completion_frame i r (execResult i (commandBody i) s.params r.latch s.lmem) s
    exact ⟨hf.params, hf.args, hf.mtfSeed, hf.cmd, hf.drop, hf.doneIE, hf.agenda, hf.rdata,
      fun _ _ => ⟨hf.seq, hf.done, hf.doneIP, hf.errIffCode⟩⟩

/-- Settles O49: a completion writes `DST` and the `DST` bytes the host wrote, which the invariant places in `DST`. -/
theorem commandsWriteOnlyTheirDestination : Obligations.CommandsWriteOnlyTheirDestination := by
  intro i s t r hinv hs hcmd hexec o ho
  rw [exec_busy hs] at hexec
  obtain rfl := Host.Outcome.next.inj hexec
  refine (execCompletion_writesOnly (latchedOp_encode hcmd)).elsewhere o ?_
  rintro (⟨hdst, -⟩ | htouched)
  · simp [ho] at hdst
  · exact absurd (hinv.busyTouched r hs o htouched).1 (by simp [ho])

/-! ## Completion under polling -/

/-- An engine step of a busy block leaves it idle, with `DONE` and `DONE_IP` set (40_command.md R145, R146). -/
theorem engineStep_completes {s t : State} {r : Running} (hs : s.seq = .busy r) (h : engineStep s = .next t) :
    CompletionFrame s t := by
  obtain ⟨hidle, -⟩ | ⟨r, -, ⟨i, -, rfl⟩ | rfl⟩ := engineStep_next h
  · simp [hs] at hidle
  · exact completion_frame i r _ s
  · exact completeErr_frame _ _ s

theorem run_succ {k : Nat} {s s' : State} (h : step s = .next s') :
    Host.Core.run Sys2Proof.core (k + 1) s = Host.Core.run Sys2Proof.core k s' := by
  have h' : Sys2Proof.core.step s = .next s' := h
  simp only [Host.Core.run, h']

/-- Settles O44: each read takes one event off the agenda and leaves the command running, and the empty agenda then
gives the step to the engine. -/
theorem polledCommandCompletes : Obligations.PolledCommandCompletes := by
  intro s r hs hreads
  induction hagenda : s.agenda generalizing s with
  | nil =>
    obtain ⟨t, ht⟩ := engineStep_answers s
    have hf := engineStep_completes hs ht
    refine ⟨t, run_succ ((step_nil hagenda).trans ht), hf.seq, hf.done, hf.doneIP, hf.agenda.trans hagenda⟩
  | cons e rest ih =>
    rw [hagenda] at hreads
    obtain ⟨⟨a, n, rfl⟩, hrest⟩ := List.forall_mem_cons.1 hreads
    have hread := hostRead_frame a n { s with agenda := rest }
    rw [List.length_cons, run_succ ((step_cons hagenda).trans (by rfl : _ = Host.Outcome.next (hostRead a n { s with agenda := rest })))]
    refine ih _ ?_ ?_ ?_
    all_goals rw [hread]
    · exact hs
    · exact hrest

end Sys2Proof.Machine
end

section
/-! The proofs of the move-to-front obligations (43_mtf.md). -/

namespace Sys2Proof.Machine

theorem moveToFront_perm {lst : List Nat} {r : Nat} (h : r < lst.length) : (moveToFront lst r).Perm lst := by
  rw [moveToFront, List.getD_eq_getElem _ _ h]
  exact List.getElem_cons_eraseIdx_perm h

/-- Settles O53: `MoveToFront` puts entry `r` before the list without it. -/
theorem moveToFrontShiftsTheEarlierEntries : Obligations.MoveToFrontShiftsTheEarlierEntries := by
  intro lst r h
  refine ⟨moveToFront_perm h, by simp [moveToFront], fun q hpos hle => ?_, fun q hlt => ?_⟩
  all_goals
    obtain ⟨q, rfl⟩ : ∃ p, q = p + 1 := ⟨q - 1, by omega⟩
    simp only [moveToFront, List.getD_eq_getElem?_getD, List.getElem?_cons_succ, Nat.add_sub_cancel]
  · rw [List.getElem?_eraseIdx_of_lt (by omega)]
  · rw [List.getElem?_eraseIdx_of_ge (by omega)]

/-- The entries of a recency list are bytes, and there are 256 of them, so neither an entry nor an index is `SENT`
(00_scope.md R12). -/
theorem IsRecencyList.lt {lst : List Nat} {r v : Nat} (h : IsRecencyList lst) (hr : lst[r]? = some v) :
    r < 256 ∧ v < 256 := by
  obtain ⟨hlt, rfl⟩ := List.getElem?_eq_some_iff.1 hr
  exact ⟨by simpa [h.length_eq] using hlt, List.mem_range.1 (h.mem_iff.1 (List.getElem_mem hlt))⟩

theorem IsRecencyList.moveToFront {lst : List Nat} {r : Nat} (h : IsRecencyList lst) (hr : r < lst.length) :
    IsRecencyList (moveToFront lst r) :=
  (moveToFront_perm hr).trans h

/-- A recency list holds each byte once, so the scan for a byte stops at its own index. -/
theorem IsRecencyList.idxOf {lst : List Nat} {r v : Nat} (h : IsRecencyList lst) (hr : lst[r]? = some v) :
    lst.idxOf v = r := by
  obtain ⟨hlt, rfl⟩ := List.getElem?_eq_some_iff.1 hr
  exact List.Nodup.idxOf_getElem (h.nodup_iff.2 List.nodup_range) r hlt

theorem mtfForward_sent (lst vs : List Nat) : mtfForward lst (sent :: vs) = sent :: mtfForward lst vs := by
  simp [mtfForward]

theorem mtfInverse_sent (lst rs : List Nat) : mtfInverse lst (sent :: rs) = sent :: mtfInverse lst rs := by
  simp [mtfInverse]

/-- A byte gives its index in the recency list (43_mtf.md R241). -/
theorem mtfForward_byte {lst : List Nat} {r v : Nat} (h : IsRecencyList lst) (hr : lst[r]? = some v) (vs : List Nat) :
    mtfForward lst (v :: vs) = r :: mtfForward (moveToFront lst r) vs := by
  have hv : v ≠ sent := (h.lt hr).2.ne
  rw [mtfForward, if_neg hv, h.idxOf hr]

/-- An index gives the byte that the recency list has there (43_mtf.md R242). -/
theorem mtfInverse_index {lst : List Nat} {r v : Nat} (h : IsRecencyList lst) (hr : lst[r]? = some v) (rs : List Nat) :
    mtfInverse lst (r :: rs) = v :: mtfInverse (moveToFront lst r) rs := by
  have hne : r ≠ sent := (h.lt hr).1.ne
  rw [mtfInverse, if_neg hne, List.getD_eq_getElem?_getD, hr, Option.getD_some]

/-- Both transforms move the same entry to the front, so they work on the same list at every symbol (43_mtf.md R243). -/
theorem mtfInverse_mtfForward {seed s : List Nat} (hseed : IsRecencyList seed) (hs : ∀ v ∈ s, v ≤ sent) :
    mtfInverse seed (mtfForward seed s) = s := by
  induction s generalizing seed with
  | nil => rfl
  | cons v vs ih =>
    obtain ⟨hv, hvs⟩ := List.forall_mem_cons.1 hs
    obtain rfl | hlt := Nat.eq_or_lt_of_le hv
    · rw [mtfForward_sent, mtfInverse_sent, ih hseed hvs]
    · obtain ⟨r, hr, hget⟩ := List.getElem_of_mem (hseed.mem_iff.2 (List.mem_range.2 hlt))
      have hget : seed[r]? = some v := hget ▸ List.getElem?_eq_getElem hr
      rw [mtfForward_byte hseed hget, mtfInverse_index hseed hget, ih (hseed.moveToFront hr) hvs]

/-- Settles O54: the rules of one symbol, and the round trip by induction over the sequence. -/
theorem mtfRoundTrip : Obligations.MtfRoundTrip :=
  ⟨fun _ => ⟨rfl, rfl⟩, fun lst vs => ⟨mtfForward_sent lst vs, mtfInverse_sent lst vs⟩,
    fun _ vs _ _ hlst hr => ⟨mtfForward_byte hlst hr vs, mtfInverse_index hlst hr vs⟩,
    fun _ _ => mtfInverse_mtfForward⟩

end Sys2Proof.Machine
end

section
/-! The proof of the radix pass's obligation (41_suffix_array.md R171, R173): the tally, the running sums and the scatter
in the original order together group the indices by key and keep their order inside each group. -/

namespace Sys2Proof.Machine

/-! ## The grouping by key -/

/-- The indices grouped by ascending key below `m`, those of one key in the order they came in. -/
def groupByKey (key : Nat → Nat) (m : Nat) (a : List Nat) : List Nat :=
  (List.range m).flatMap fun v => a.filter fun i => key i == v

/-- Where the group of key `v` begins. -/
def groupStart (key : Nat → Nat) (a : List Nat) (v : Nat) : Nat := (groupByKey key v a).length

theorem groupByKey_succ (key : Nat → Nat) (m : Nat) (a : List Nat) :
    groupByKey key (m + 1) a = groupByKey key m a ++ a.filter fun i => key i == m := by
  simp [groupByKey, List.range_succ, List.flatMap_append]

theorem groupStart_succ (key : Nat → Nat) (a : List Nat) (v : Nat) :
    groupStart key a (v + 1) = groupStart key a v + (a.filter fun i => key i == v).length := by
  simp [groupStart, groupByKey_succ]

theorem groupStart_add_le {key : Nat → Nat} {a : List Nat} {v w : Nat} (h : v < w) :
    groupStart key a v + (a.filter fun i => key i == v).length ≤ groupStart key a w := by
  induction w with
  | zero => omega
  | succ w ih =>
    rw [groupStart_succ]
    obtain hlt | rfl := Nat.lt_succ_iff_lt_or_eq.1 h
    · exact (ih hlt).trans (Nat.le_add_right _ _)
    · exact le_refl _

/-- Grouping drops the keys that are out of range and no index else. -/
theorem groupByKey_perm_filter (key : Nat → Nat) (m : Nat) (a : List Nat) :
    (groupByKey key m a).Perm (a.filter fun i => key i < m) := by
  induction m with
  | zero => simp [groupByKey]
  | succ m ih =>
    have hsplit := List.filter_append_perm (fun i => decide (key i < m)) (a.filter fun i => key i < m + 1)
    have hlow : (a.filter fun i => decide (key i < m + 1)).filter (fun i => decide (key i < m)) =
        a.filter fun i => key i < m := by
      rw [List.filter_filter]
      exact List.filter_congr fun i _ => by simp; omega
    have htop : (a.filter fun i => decide (key i < m + 1)).filter (fun i => !decide (key i < m)) =
        a.filter fun i => key i == m := by
      rw [List.filter_filter]
      exact List.filter_congr fun i _ => by
        rw [Bool.eq_iff_iff]
        simp
        omega
    rw [hlow, htop] at hsplit
    rw [groupByKey_succ]
    exact (ih.append_right _).trans hsplit

theorem groupByKey_perm {key : Nat → Nat} {m : Nat} {a : List Nat} (h : ∀ i ∈ a, key i < m) :
    (groupByKey key m a).Perm a := by
  have := groupByKey_perm_filter key m a
  rwa [List.filter_eq_self.2 fun i hi => decide_eq_true (h i hi)] at this

/-- Grouping is stable: it orders by key, and inside one key by what ordered the indices before. -/
theorem groupByKey_pairwise {R : Nat → Nat → Prop} (key : Nat → Nat) (m : Nat) {a : List Nat} (h : a.Pairwise R) :
    (groupByKey key m a).Pairwise fun i j => key i < key j ∨ key i = key j ∧ R i j := by
  rw [groupByKey, List.pairwise_flatMap]
  refine ⟨fun v _ => ?_, ?_⟩
  · refine List.Pairwise.imp_of_mem ?_ (h.filter _)
    intro i j hi hj hij
    have hi : key i = v := by simpa using (List.mem_filter.1 hi).2
    have hj : key j = v := by simpa using (List.mem_filter.1 hj).2
    exact .inr ⟨hi.trans hj.symm, hij⟩
  · refine List.pairwise_lt_range.imp ?_
    intro v w hvw i hi j hj
    have hi : key i = v := by simpa using (List.mem_filter.1 hi).2
    have hj : key j = w := by simpa using (List.mem_filter.1 hj).2
    exact .inl (by omega)

/-- Every place of the grouping is some place of some group. -/
theorem groupByKey_getElem? {key : Nat → Nat} {m : Nat} {a : List Nat} {p : Nat} (hp : p < (groupByKey key m a).length) :
    ∃ v < m, ∃ j, ∃ h : j < (a.filter fun i => key i == v).length, p = groupStart key a v + j ∧
      (groupByKey key m a)[p]? = some (a.filter fun i => key i == v)[j] := by
  induction m with
  | zero => simp [groupByKey] at hp
  | succ m ih =>
    rw [groupByKey_succ] at hp ⊢
    obtain hlt | hge := Nat.lt_or_ge p (groupByKey key m a).length
    · obtain ⟨v, hv, j, hj, hpj, hget⟩ := ih hlt
      exact ⟨v, by omega, j, hj, hpj, (List.getElem?_append_left hlt).trans hget⟩
    · rw [List.length_append] at hp
      refine ⟨m, by omega, p - (groupByKey key m a).length, by omega, by rw [groupStart]; omega, ?_⟩
      rw [List.getElem?_append_right hge, List.getElem?_eq_getElem]

/-! ## The three loops -/

theorem radixTally_getElem? (key : Nat → Nat) (ctr a : List Nat) (v : Nat) :
    (radixTally key ctr a)[v]? = ctr[v]?.map (· + (a.filter fun i => key i == v).length) := by
  induction a generalizing ctr with
  | nil => simp [radixTally]
  | cons i a ih =>
    rw [radixTally, ih, List.getElem?_modify]
    by_cases hv : key i = v
    · simp [hv, Option.map_map, Function.comp_def, Nat.add_assoc, Nat.add_comm 1]
    · simp [hv]

theorem exclusiveSums_getElem? (sum : Nat) (cs : List Nat) {v : Nat} (hv : v < cs.length) :
    (exclusiveSums sum cs)[v]? = some (sum + (cs.take v).sum) := by
  induction cs generalizing sum v with
  | nil => simp at hv
  | cons c cs ih =>
    cases v with
    | zero => simp [exclusiveSums]
    | succ v =>
      have hv : v < cs.length := by simpa using hv
      simp [exclusiveSums, ih _ hv, Nat.add_assoc]

/-- The second loop gives the start of each group. -/
theorem starts_getElem? (key : Nat → Nat) (m : Nat) (a : List Nat) {v : Nat} (hv : v < m) :
    (exclusiveSums 0 (radixTally key (List.replicate m 0) a))[v]? = some (groupStart key a v) := by
  have hget : ∀ w < m, (radixTally key (List.replicate m 0) a)[w]? = some (a.filter fun i => key i == w).length := by
    intro w hw
    simp [radixTally_getElem?, hw]
  have hlen : v < (radixTally key (List.replicate m 0) a).length := (List.getElem?_eq_some_iff.1 (hget v hv)).1
  rw [exclusiveSums_getElem? 0 _ hlen, Nat.zero_add, Option.some_inj]
  clear hlen
  induction v with
  | zero => rfl
  | succ v ih =>
    rw [List.take_add_one, hget v (by omega), List.sum_append, ih (by omega), groupStart_succ]
    simp

@[simp] theorem radixScatter_length (key : Nat → Nat) (ctr b a : List Nat) : (radixScatter key ctr b a).length = b.length := by
  induction a generalizing ctr b with
  | nil => rfl
  | cons i a ih => rw [radixScatter, ih, List.length_set]

/-- The counters `ctr` have room for the indices `a`: the places from each counter on that its group will fill lie inside
`n` and apart from those of the other groups. -/
structure ScatterRoom (key : Nat → Nat) (ctr : List Nat) (n : Nat) (a : List Nat) : Prop where
  inside : ∀ v s, ctr[v]? = some s → s + (a.filter fun i => key i == v).length ≤ n
  apart : ∀ v w s u, ctr[v]? = some s → ctr[w]? = some u → v < w → s + (a.filter fun i => key i == v).length ≤ u ∨
    u + (a.filter fun i => key i == w).length ≤ s

/-- After an index is placed, the counter of its own group is one up, and the others are as they were. -/
theorem counter_of_modify {ctr : List Nat} {q v s : Nat} (h : (ctr.modify q (· + 1))[v]? = some s) :
    (q = v ∧ ∃ s', ctr[v]? = some s' ∧ s = s' + 1) ∨ (q ≠ v ∧ ctr[v]? = some s) := by
  rw [List.getElem?_modify] at h
  by_cases hv : q = v
  · obtain ⟨s', hs', rfl⟩ := by simpa [hv] using h
    exact .inl ⟨hv, s', hs', rfl⟩
  · exact .inr ⟨hv, by simpa [hv] using h⟩

theorem filter_cons_length (key : Nat → Nat) (i v : Nat) (a : List Nat) :
    ((i :: a).filter fun j => key j == v).length = (a.filter fun j => key j == v).length + if key i = v then 1 else 0 := by
  by_cases hv : key i = v <;> simp [hv]

theorem ScatterRoom.tail {key : Nat → Nat} {ctr a : List Nat} {n i : Nat} (h : ScatterRoom key ctr n (i :: a)) :
    ScatterRoom key (ctr.modify (key i) (· + 1)) n a := by
  have hcount : ∀ v s, (ctr.modify (key i) (· + 1))[v]? = some s → ∃ s', ctr[v]? = some s' ∧ s' ≤ s ∧
      s + (a.filter fun j => key j == v).length = s' + ((i :: a).filter fun j => key j == v).length := by
    intro v s hs
    obtain ⟨hv, s', hs', rfl⟩ | ⟨hv, hs⟩ := counter_of_modify hs
    · exact ⟨s', hs', by omega, by rw [filter_cons_length, if_pos hv]; omega⟩
    · exact ⟨s, hs, le_refl s, by rw [filter_cons_length, if_neg hv]; omega⟩
  constructor
  · intro v s hs
    obtain ⟨s', hs', -, hsum⟩ := hcount v s hs
    exact hsum ▸ h.inside v s' hs'
  · intro v w s u hs hu hvw
    obtain ⟨s', hs', hle, hsum⟩ := hcount v s hs
    obtain ⟨u', hu', hle', hsum'⟩ := hcount w u hu
    have := h.apart v w s' u' hs' hu' hvw
    omega

/-- The place that an index takes is filled by no index after it. -/
theorem ScatterRoom.head_free {key : Nat → Nat} {ctr a : List Nat} {n i s₀ : Nat} (h : ScatterRoom key ctr n (i :: a))
    (hs₀ : ctr[key i]? = some s₀) {w u : Nat} (hu : (ctr.modify (key i) (· + 1))[w]? = some u) :
    s₀ < u ∨ u + (a.filter fun j => key j == w).length ≤ s₀ := by
  obtain ⟨rfl, u', hu', rfl⟩ | ⟨hw, hu⟩ := counter_of_modify hu
  · obtain rfl : s₀ = u' := by simpa [hs₀] using hu'
    exact .inl (Nat.lt_succ_self _)
  · obtain hlt | hlt := Nat.lt_or_gt_of_ne hw
    · have := h.apart (key i) w s₀ u hs₀ hu hlt
      rw [filter_cons_length, filter_cons_length, if_pos rfl, if_neg hw] at this
      omega
    · have := h.apart w (key i) u s₀ hu hs₀ hlt
      rw [filter_cons_length, filter_cons_length, if_pos rfl, if_neg hw] at this
      omega

/-- The third loop leaves every place alone that no group will fill. -/
theorem radixScatter_keeps {key : Nat → Nat} {ctr b a : List Nat} {p : Nat}
    (hkey : ∀ i ∈ a, key i < ctr.length)
    (hout : ∀ v s, ctr[v]? = some s → p < s ∨ s + (a.filter fun i => key i == v).length ≤ p) :
    (radixScatter key ctr b a)[p]? = b[p]? := by
  induction a generalizing ctr b with
  | nil => rfl
  | cons i a ih =>
    obtain ⟨hi, ha⟩ := List.forall_mem_cons.1 hkey
    obtain ⟨s₀, hs₀⟩ : ∃ s₀, ctr[key i]? = some s₀ := ⟨_, List.getElem?_eq_getElem hi⟩
    have hhead := hout (key i) s₀ hs₀
    rw [filter_cons_length, if_pos rfl] at hhead
    rw [radixScatter, List.getD_eq_getElem?_getD, hs₀, Option.getD_some, ih (by simpa using ha)]
    · exact List.getElem?_set_ne (by omega)
    · intro v s hs
      obtain ⟨rfl, s', hs', rfl⟩ | ⟨hv, hs⟩ := counter_of_modify hs
      · obtain rfl : s₀ = s' := by simpa [hs₀] using hs'
        omega
      · have := hout v s hs
        rwa [filter_cons_length, if_neg hv] at this

/-- The third loop fills each group in the original order. -/
theorem radixScatter_fills {key : Nat → Nat} {ctr b a : List Nat} {v s j : Nat} (hkey : ∀ i ∈ a, key i < ctr.length)
    (hroom : ScatterRoom key ctr b.length a) (hs : ctr[v]? = some s) (hj : j < (a.filter fun i => key i == v).length) :
    (radixScatter key ctr b a)[s + j]? = some (a.filter fun i => key i == v)[j] := by
  induction a generalizing ctr b s j with
  | nil => simp at hj
  | cons i a ih =>
    obtain ⟨hi, ha⟩ := List.forall_mem_cons.1 hkey
    have hkey' : ∀ i' ∈ a, key i' < (ctr.modify (key i) (· + 1)).length := by simpa using ha
    obtain ⟨s₀, hs₀⟩ : ∃ s₀, ctr[key i]? = some s₀ := ⟨_, List.getElem?_eq_getElem hi⟩
    have hroom' : ScatterRoom key (ctr.modify (key i) (· + 1)) (b.set s₀ i).length a := by simpa using hroom.tail
    rw [radixScatter, List.getD_eq_getElem?_getD, hs₀, Option.getD_some]
    by_cases hv : key i = v
    · subst hv
      obtain rfl : s₀ = s := by simpa [hs₀] using hs
      cases j with
      | zero =>
        have hin := hroom.inside (key i) s₀ hs₀
        rw [filter_cons_length, if_pos rfl] at hin
        rw [Nat.add_zero, radixScatter_keeps hkey' fun w u => hroom.head_free hs₀, List.getElem?_set_self (by omega)]
        simp
      | succ j =>
        have := ih hkey' hroom' (s := s₀ + 1) (j := j) (by simp [hs₀]) (by simpa using hj)
        rw [show s₀ + (j + 1) = s₀ + 1 + j by omega, this]
        simp
    · have := ih hkey' hroom' (s := s) (j := j) (by simp [hv, hs]) (by simpa [hv] using hj)
      simpa [hv] using this

/-! ## The pass -/

theorem exclusiveSums_length (sum : Nat) (cs : List Nat) : (exclusiveSums sum cs).length = cs.length := by
  induction cs generalizing sum with
  | nil => rfl
  | cons c cs ih => simp [exclusiveSums, ih]

theorem radixTally_length (key : Nat → Nat) (ctr a : List Nat) : (radixTally key ctr a).length = ctr.length := by
  induction a generalizing ctr with
  | nil => rfl
  | cons i a ih => rw [radixTally, ih, List.length_modify]

/-- A pass whose keys are all in range groups by key. -/
theorem radixPass_eq_groupByKey {a : List Nat} {x : List Int} {d k off : Nat}
    (h : ∀ i ∈ a, radixKey x d off i < k + off + 1) :
    radixPass a x d k off = groupByKey (radixKey x d off) (k + off + 1) a := by
  have hperm := groupByKey_perm h
  have hlen : (exclusiveSums 0 (radixTally (radixKey x d off) (List.replicate (k + off + 1) 0) a)).length = k + off + 1 := by
    rw [exclusiveSums_length, radixTally_length, List.length_replicate]
  have hstart : ∀ v s, (exclusiveSums 0 (radixTally (radixKey x d off) (List.replicate (k + off + 1) 0) a))[v]? = some s →
      v < k + off + 1 ∧ s = groupStart (radixKey x d off) a v := by
    intro v s hs
    have hv : v < k + off + 1 := hlen ▸ (List.getElem?_eq_some_iff.1 hs).1
    exact ⟨hv, by simpa [starts_getElem? _ _ a hv] using hs.symm⟩
  have hroom : ScatterRoom (radixKey x d off)
      (exclusiveSums 0 (radixTally (radixKey x d off) (List.replicate (k + off + 1) 0) a)) (List.replicate a.length 0).length a := by
    constructor
    · intro v s hs
      obtain ⟨hv, rfl⟩ := hstart v s hs
      rw [List.length_replicate, ← hperm.length_eq]
      exact groupStart_add_le hv
    · intro v w s u hs hu hvw
      obtain ⟨-, rfl⟩ := hstart v s hs
      obtain ⟨-, rfl⟩ := hstart w u hu
      exact .inl (groupStart_add_le hvw)
  apply List.ext_getElem?
  intro p
  obtain hp | hp := Nat.lt_or_ge p (groupByKey (radixKey x d off) (k + off + 1) a).length
  · obtain ⟨v, hv, j, hj, hpj, hget⟩ := groupByKey_getElem? hp
    rw [hget]
    rw [hpj]
    exact radixScatter_fills (fun i hi => by rw [hlen]; exact h i hi) hroom (starts_getElem? _ _ a hv) hj
  · have hp' : (radixPass a x d k off).length ≤ p := by
      simpa [radixPass, ← hperm.length_eq] using hp
    rw [List.getElem?_eq_none hp, List.getElem?_eq_none hp']

/-- Settles O51: a key in `[-OFF, K]` is counted at its sum with `OFF`. -/
theorem radixPassIsAStableSort : Obligations.RadixPassIsAStableSort := by
  intro a x d k off h
  have hkey : ∀ i ∈ a, radixKey x d off i < k + off + 1 := fun i hi => by
    have := h i hi
    rw [radixKey]
    omega
  rw [radixPass_eq_groupByKey hkey]
  simp only [List.pure_def, List.bind_eq_flatMap, List.flatMap_assoc, List.flatMap_singleton]
  refine List.flatMap_congr fun v _ => List.filter_congr fun i hi => ?_
  have := h i hi
  rw [Bool.eq_iff_iff, beq_iff_eq, beq_iff_eq, radixKey]
  omega

end Sys2Proof.Machine
end

section
/-! The order of suffixes (41_suffix_array.md R170), over a sequence that is read past its end as its pad: the list
order of the suffixes, unfolded one symbol at a time. -/

namespace Sys2Proof.Machine

/-- The suffix at `i` is less than the suffix at `j`, as infinite sequences in lexicographic order. -/
def SuffixLt (X : Nat → Int) (i j : Nat) : Prop := toLex (fun t => X (i + t)) < toLex (fun t => X (j + t))

theorem suffixLt_iff_exists {X : Nat → Int} {i j : Nat} :
    SuffixLt X i j ↔ ∃ t, (∀ s < t, X (i + s) = X (j + s)) ∧ X (i + t) < X (j + t) := Iff.rfl

theorem SuffixLt.irrefl (X : Nat → Int) (i : Nat) : ¬ SuffixLt X i i := lt_irrefl _

theorem SuffixLt.trans {X : Nat → Int} {i j k : Nat} (h : SuffixLt X i j) (h' : SuffixLt X j k) : SuffixLt X i k :=
  lt_trans h h'

/-- Two suffixes compare by their first symbols, and then by the suffixes one further on. -/
theorem suffixLt_iff {X : Nat → Int} {i j : Nat} :
    SuffixLt X i j ↔ X i < X j ∨ X i = X j ∧ SuffixLt X (i + 1) (j + 1) := by
  simp only [suffixLt_iff_exists, Nat.add_assoc, Nat.add_comm 1]
  constructor
  · rintro ⟨t, heq, hlt⟩
    cases t with
    | zero => exact .inl hlt
    | succ t => exact .inr ⟨heq 0 (by omega), t, fun s hs => heq (s + 1) (by omega), hlt⟩
  · rintro (hlt | ⟨h0, t, heq, hlt⟩)
    · exact ⟨0, fun s hs => by omega, hlt⟩
    · refine ⟨t + 1, fun s hs => ?_, hlt⟩
      cases s with
      | zero => exact h0
      | succ s => exact heq s (by omega)

/-- From `n` on the sequence holds one value, its pad, which is below every value before. -/
structure EndsLow (X : Nat → Int) (n : Nat) : Prop where
  pad : ∀ i, n ≤ i → X i = X n
  low : ∀ i < n, X n < X i

namespace EndsLow

variable {X : Nat → Int} {n i j : Nat}

theorem pad_iff_of_eq (h : EndsLow X n) (hij : X i = X j) : n ≤ i ↔ n ≤ j := by
  constructor <;> intro hle <;> by_contra hlt
  · have := h.low j (by omega)
    have := h.pad i hle
    omega
  · have := h.low i (by omega)
    have := h.pad j hle
    omega

theorem suffixLt_end (h : EndsLow X n) (hi : i < n) : SuffixLt X n i := suffixLt_iff.2 (.inl (h.low i hi))

theorem not_suffixLt_end (h : EndsLow X n) (hi : i ≤ n) : ¬ SuffixLt X i n := by
  intro hlt
  obtain rfl | hi := Nat.eq_or_lt_of_le hi
  · exact SuffixLt.irrefl X i hlt
  · exact SuffixLt.irrefl X i (hlt.trans (h.suffixLt_end hi))

/-- Two equal triples at two places hold no pad: a pad would stand at the end of the sequence in both. -/
theorem add_two_lt_of_triple_eq (h : EndsLow X n) (hi : i ≤ n) (hj : j ≤ n) (hne : i ≠ j) (h0 : X i = X j)
    (h1 : X (i + 1) = X (j + 1)) (h2 : X (i + 2) = X (j + 2)) : i + 2 < n ∧ j + 2 < n := by
  have h0 := h.pad_iff_of_eq h0
  have h1 := h.pad_iff_of_eq h1
  have h2 := h.pad_iff_of_eq h2
  omega

end EndsLow

/-- A sequence with its pad from `n` on. -/
def padded (x : List Int) (n i : Nat) : Int := if i < n then x.getD i 0 else x.getD n 0

theorem padded_of_lt {x : List Int} {n i : Nat} (h : i < n) : padded x n i = x.getD i 0 := if_pos h

theorem padded_endsLow {x : List Int} {n : Nat} (h : ∀ i < n, x.getD n 0 < x.getD i 0) : EndsLow (padded x n) n where
  pad i hi := by simp [padded, Nat.not_lt.2 hi]
  low i hi := by simpa [padded, hi] using h i hi

theorem take_drop_of_lt {x : List Int} {n i : Nat} (hn : n ≤ x.length) (hi : i < n) :
    (x.take n).drop i = padded x n i :: (x.take n).drop (i + 1) := by
  have hlt : i < (x.take n).length := by simp; omega
  rw [List.drop_eq_getElem_cons hlt, padded_of_lt hi]
  simp [List.getD_eq_getElem?_getD, List.getElem?_eq_getElem (show i < x.length by omega)]

/-- The list order of the suffixes, a proper beginning being smaller (41_suffix_array.md R170), is the order of the padded
suffixes. -/
theorem drop_lt_drop_iff {x : List Int} {n i j : Nat} (hn : n ≤ x.length) (h : EndsLow (padded x n) n) (hi : i ≤ n)
    (hj : j ≤ n) : (x.take n).drop i < (x.take n).drop j ↔ SuffixLt (padded x n) i j := by
  have hend : (x.take n).drop n = [] := by simp
  induction hd : n - i generalizing i j with
  | zero =>
    obtain rfl : i = n := by omega
    obtain rfl | hj := Nat.eq_or_lt_of_le hj
    · simp [SuffixLt.irrefl]
    · rw [hend, take_drop_of_lt hn hj]
      simp [h.suffixLt_end hj]
  | succ d ih =>
    have hi : i < n := by omega
    obtain rfl | hj := Nat.eq_or_lt_of_le hj
    · rw [hend]
      simp [h.not_suffixLt_end hi.le]
    · have hrest := ih (i := i + 1) (j := j + 1) hi hj (by omega)
      rw [take_drop_of_lt hn hi, take_drop_of_lt hn hj, List.cons_lt_cons_iff, suffixLt_iff]
      exact or_congr_right (and_congr_right fun _ => hrest)

end Sys2Proof.Machine
end

section
/-! The proof that DC3 computes the suffix array (41_suffix_array.md R172 to R183). The sample is sorted by its triples
and named, the names are ranked, by recursion where two are equal, and the class-0 suffixes are sorted and merged in by
these ranks. -/

namespace Sys2Proof.Machine

/-! ## Positions and slots -/

/-- The class-12 positions (41_suffix_array.md R176): those below `n`, and the dummy `n` where `n % 3 = 1`. -/
def InSample (n i : Nat) : Prop := i % 3 ≠ 0 ∧ i < n + ((n + 2) / 3 - (n + 1) / 3)

theorem mem_sample12 {n i : Nat} : i ∈ sample12 n ((n + 2) / 3) ((n + 1) / 3) ↔ InSample n i := by
  simp [sample12, InSample, and_comm]

theorem inSample_iff {n i : Nat} : InSample n i ↔ i % 3 ≠ 0 ∧ (i < n ∨ i = n) ∧ (i = n → n % 3 = 1) := by
  unfold InSample
  omega

theorem InSample.le {n i : Nat} (h : InSample n i) : i ≤ n := by
  have := inSample_iff.1 h
  omega

theorem slotOf_posOf (n0 c : Nat) : slotOf n0 (posOf n0 c) = c := by
  unfold posOf slotOf
  split <;> split <;> omega

theorem posOf_slotOf {n i : Nat} (h : i % 3 ≠ 0) (hi : i ≤ n) : posOf ((n + 2) / 3) (slotOf ((n + 2) / 3) i) = i := by
  unfold posOf slotOf
  split <;> split <;> omega

theorem slotOf_lt {n i : Nat} (h : InSample n i) : slotOf ((n + 2) / 3) i < (n + 2) / 3 + n / 3 := by
  have := inSample_iff.1 h
  unfold slotOf
  split <;> omega

theorem inSample_posOf {n c : Nat} (h : c < (n + 2) / 3 + n / 3) : InSample n (posOf ((n + 2) / 3) c) := by
  rw [inSample_iff]
  unfold posOf
  split <;> omega

theorem posOf_injective {n0 c c' : Nat} (h : posOf n0 c = posOf n0 c') : c = c' := by
  rw [← slotOf_posOf n0 c, h, slotOf_posOf]

/-- The slot after a slot whose triple ends before `n` is that of the position three further on, or the first past the
sample, where that position is `n`. -/
theorem posOf_succ {n c : Nat} (hc : c < (n + 2) / 3 + n / 3) (hpos : posOf ((n + 2) / 3) c + 2 < n) :
    (c + 1 < (n + 2) / 3 + n / 3 ∧ posOf ((n + 2) / 3) (c + 1) = posOf ((n + 2) / 3) c + 3) ∨
      (c + 1 = (n + 2) / 3 + n / 3 ∧ posOf ((n + 2) / 3) c + 3 = n) := by
  unfold posOf at *
  split at hpos <;> split <;> omega

/-! ## The radix passes of DC3 -/

/-- Under the precondition of `dc3` a pass over places inside the sequence has its keys in range. -/
theorem radixKey_lt {x : List Int} {n k off d : Nat} (hpre : Dc3Pre x n k off) {a : List Nat}
    (ha : ∀ i ∈ a, i + d < n + 3) : ∀ i ∈ a, 0 ≤ x.getD (i + d) 0 + off ∧ radixKey x d off i < k + off + 1 := by
  intro i hi
  obtain ⟨hlen, halpha, -⟩ := hpre
  have hlt : i + d < x.length := by rw [hlen]; exact ha i hi
  have hmem := halpha (x.getD (i + d) 0) (by simp [List.getD_eq_getElem?_getD, List.getElem?_eq_getElem hlt])
  unfold radixKey
  omega

theorem radixPass_perm {x : List Int} {n k off d : Nat} (hpre : Dc3Pre x n k off) {a : List Nat}
    (ha : ∀ i ∈ a, i + d < n + 3) : (radixPass a x d k off).Perm a := by
  have hkey := fun i hi => (radixKey_lt hpre ha i hi).2
  rw [radixPass_eq_groupByKey hkey]
  exact groupByKey_perm hkey

/-- A pass orders by its digit, and keeps the order among equal digits (41_suffix_array.md R173). -/
theorem radixPass_pairwise {x : List Int} {n k off d : Nat} (hpre : Dc3Pre x n k off) {a : List Nat}
    (ha : ∀ i ∈ a, i + d < n + 3) {R : Nat → Nat → Prop} (hR : a.Pairwise R) :
    (radixPass a x d k off).Pairwise fun i j =>
      x.getD (i + d) 0 < x.getD (j + d) 0 ∨ x.getD (i + d) 0 = x.getD (j + d) 0 ∧ R i j := by
  have hkey := radixKey_lt hpre ha
  have hmem : ∀ i ∈ radixPass a x d k off, 0 ≤ x.getD (i + d) 0 + off := fun i hi =>
    (hkey i ((radixPass_perm hpre ha).mem_iff.1 hi)).1
  have hsort := groupByKey_pairwise (radixKey x d off) (k + off + 1) hR
  rw [← radixPass_eq_groupByKey fun i hi => (hkey i hi).2] at hsort
  refine hsort.imp_of_mem fun hi hj hij => ?_
  have hi := hmem _ hi
  have hj := hmem _ hj
  unfold radixKey at hij
  exact hij.imp (fun h => by omega) fun h => ⟨by omega, h.2⟩

/-! ## The order of the triples -/

/-- The triple at a position, in lexicographic order. -/
def tripleKey (x : List Int) (i : Nat) : Int ×ₗ Int ×ₗ Int := toLex (x.getD i 0, toLex (x.getD (i + 1) 0, x.getD (i + 2) 0))

theorem tripleKey_eq_iff {x : List Int} {i j : Nat} : tripleKey x i = tripleKey x j ↔
    x.getD i 0 = x.getD j 0 ∧ x.getD (i + 1) 0 = x.getD (j + 1) 0 ∧ x.getD (i + 2) 0 = x.getD (j + 2) 0 := by
  simp [tripleKey]

theorem tripleKey_lt_iff {x : List Int} {i j : Nat} : tripleKey x i < tripleKey x j ↔
    x.getD i 0 < x.getD j 0 ∨ x.getD i 0 = x.getD j 0 ∧
      (x.getD (i + 1) 0 < x.getD (j + 1) 0 ∨ x.getD (i + 1) 0 = x.getD (j + 1) 0 ∧
        x.getD (i + 2) 0 < x.getD (j + 2) 0) := by
  simp [tripleKey, Prod.Lex.toLex_lt_toLex]

theorem tripleAt_eq_iff {x : List Int} {i j : Nat} : tripleAt x i = tripleAt x j ↔ tripleKey x i = tripleKey x j := by
  simp [tripleAt, tripleKey_eq_iff]

theorem mem_sample_bound {n d i : Nat} (hd : d ≤ 2) {a : List Nat} (ha : a.Perm (sample12 n ((n + 2) / 3) ((n + 1) / 3)))
    (hi : i ∈ a) : i + d < n + 3 := by
  have := (mem_sample12.1 (ha.mem_iff.1 hi)).le
  omega

theorem tripleSort_perm {x : List Int} {n k off : Nat} (hpre : Dc3Pre x n k off) :
    (tripleSort (sample12 n ((n + 2) / 3) ((n + 1) / 3)) x k off).Perm (sample12 n ((n + 2) / 3) ((n + 1) / 3)) := by
  have h2 := radixPass_perm hpre fun i hi => mem_sample_bound (d := 2) le_rfl (.refl _) hi
  have h1 := (radixPass_perm hpre fun i hi => mem_sample_bound (d := 1) (by omega) h2 hi).trans h2
  exact (radixPass_perm hpre fun i hi => mem_sample_bound (d := 0) (by omega) h1 hi).trans h1

/-- Three stable passes, the last digit first, sort by the triple (41_suffix_array.md R177). -/
theorem tripleSort_pairwise {x : List Int} {n k off : Nat} (hpre : Dc3Pre x n k off) :
    (tripleSort (sample12 n ((n + 2) / 3) ((n + 1) / 3)) x k off).Pairwise fun i j => tripleKey x i ≤ tripleKey x j := by
  have h2 := radixPass_perm hpre fun i hi => mem_sample_bound (d := 2) le_rfl (.refl _) hi
  have h1 := (radixPass_perm hpre fun i hi => mem_sample_bound (d := 1) (by omega) h2 hi).trans h2
  have s2 := radixPass_pairwise (R := fun _ _ => True) hpre
    (fun i hi => mem_sample_bound (d := 2) le_rfl (.refl _) hi) (List.pairwise_of_forall fun _ _ => trivial)
  have s1 := radixPass_pairwise hpre (fun i hi => mem_sample_bound (d := 1) (by omega) h2 hi) s2
  have s0 := radixPass_pairwise hpre (fun i hi => mem_sample_bound (d := 0) (by omega) h1 hi) s1
  refine s0.imp fun h => ?_
  simp only [Nat.add_zero, and_true] at h
  rw [le_iff_lt_or_eq, tripleKey_lt_iff, tripleKey_eq_iff]
  omega

/-! ## Naming -/

/-- The name that a position of the sorted sample gets (41_suffix_array.md R178): a new one unless its triple is that of
the position before. -/
def nextName (x : List Int) (prev : Option Nat) (name i : Nat) : Nat :=
  if prev.map (tripleKey x) = some (tripleKey x i) then name else name + 1

theorem nameLoop_cons (x : List Int) (n0 : Nat) (prev : Option Nat) (name : Nat) (r : List Nat) (i : Nat) (is : List Nat) :
    nameLoop x n0 prev name r (i :: is) =
      nameLoop x n0 (some i) (nextName x prev name i) (r.set (slotOf n0 i) (nextName x prev name i)) is := by
  cases prev with
  | none => simp [nameLoop, nextName]
  | some j =>
    have hfresh : (tripleAt x i != tripleAt x j) = decide (¬ tripleKey x j = tripleKey x i) := by
      rw [Bool.eq_iff_iff]
      simp [tripleAt_eq_iff, eq_comm (a := tripleKey x j)]
    by_cases h : tripleKey x j = tripleKey x i <;> simp [nameLoop, nextName, hfresh, h]

theorem nameLoop_length (x : List Int) (n0 : Nat) (prev : Option Nat) (name : Nat) (r is : List Nat) :
    (nameLoop x n0 prev name r is).1.length = r.length := by
  induction is generalizing prev name r with
  | nil => rfl
  | cons i is ih => rw [nameLoop_cons, ih, List.length_set]

theorem nameLoop_keeps {x : List Int} {n0 : Nat} {prev : Option Nat} {name : Nat} {r is : List Nat} {q : Nat}
    (hq : q ∉ is.map (slotOf n0)) : (nameLoop x n0 prev name r is).1.getD q 0 = r.getD q 0 := by
  induction is generalizing prev name r with
  | nil => rfl
  | cons i is ih =>
    obtain ⟨hi, his⟩ := by simpa only [List.map_cons, List.mem_cons, not_or] using hq
    rw [nameLoop_cons, ih his]
    simp [List.getD_eq_getElem?_getD, List.getElem?_set_ne (Ne.symm hi)]

/-- A name once given is kept, since no slot comes twice. -/
theorem nameLoop_head {x : List Int} {n0 : Nat} {prev : Option Nat} {name : Nat} {r is : List Nat} {i : Nat}
    (hnd : ((i :: is).map (slotOf n0)).Nodup) (hlt : slotOf n0 i < r.length) :
    (nameLoop x n0 prev name r (i :: is)).1.getD (slotOf n0 i) 0 = nextName x prev name i := by
  have hi := (List.nodup_cons.1 hnd).1
  rw [nameLoop_cons, nameLoop_keeps hi]
  simp [List.getD_eq_getElem?_getD, hlt]

theorem nextName_le (x : List Int) (prev : Option Nat) (name i : Nat) :
    name ≤ nextName x prev name i ∧ nextName x prev name i ≤ name + 1 := by
  unfold nextName
  split <;> omega

theorem le_nameLoop_count (x : List Int) (n0 : Nat) (prev : Option Nat) (name : Nat) (r is : List Nat) :
    name ≤ (nameLoop x n0 prev name r is).2 ∧ (nameLoop x n0 prev name r is).2 ≤ name + is.length := by
  induction is generalizing prev name r with
  | nil => simp [nameLoop]
  | cons i is ih =>
    have h := ih (some i) (nextName x prev name i) (r.set (slotOf n0 i) (nextName x prev name i))
    have hn := nextName_le x prev name i
    rw [nameLoop_cons, List.length_cons]
    omega

/-- The names `val` of a list sorted by its triples, when the last name before it is `name`: none is below `name`, and one
is the same as it just for a triple equal to the one before; none is above `count`; names compare as triples do; and if
the count is as high as it can be, every name is new. -/
structure NamesSorted (x : List Int) (prev : Option Nat) (name : Nat) (is : List Nat) (val : Nat → Nat) (count : Nat) :
    Prop where
  above : ∀ i ∈ is, name ≤ val i
  old : ∀ i ∈ is, val i = name ↔ prev.map (tripleKey x) = some (tripleKey x i)
  below : ∀ i ∈ is, val i ≤ count
  order : is.Pairwise fun i j =>
    val i = val j ∧ tripleKey x i = tripleKey x j ∨ val i < val j ∧ tripleKey x i < tripleKey x j
  fresh : name + is.length ≤ count → ∀ t i, is[t]? = some i → val i = name + t + 1

theorem NamesSorted.cons {x : List Int} {prev : Option Nat} {name i : Nat} {is : List Nat} {val : Nat → Nat} {count : Nat}
    (h : NamesSorted x (some i) (nextName x prev name i) is val count) (hval : val i = nextName x prev name i)
    (hcount : nextName x prev name i ≤ count ∧ count ≤ nextName x prev name i + is.length) (hsort : ∀ j ∈ is, tripleKey x i ≤ tripleKey x j)
    (hprev : ∀ p ∈ prev, tripleKey x p ≤ tripleKey x i) : NamesSorted x prev name (i :: is) val count := by
  have hnext := nextName_le x prev name i
  have hnew : nextName x prev name i = name ↔ prev.map (tripleKey x) = some (tripleKey x i) := by
    unfold nextName
    split <;> simp_all
  constructor
  · exact List.forall_mem_cons.2 ⟨by omega, fun j hj => hnext.1.trans (h.above j hj)⟩
  · refine List.forall_mem_cons.2 ⟨hval ▸ hnew, fun j hj => ?_⟩
    have hge := h.above j hj
    constructor
    · intro hj'
      have hji := (h.old j hj).1 (by omega)
      rw [hnew.1 (by omega)]
      simpa using hji
    · intro hj'
      obtain ⟨p, rfl, hp⟩ := Option.map_eq_some_iff.1 hj'
      have hi : tripleKey x i = tripleKey x j := le_antisymm (hsort j hj) (hp ▸ hprev p rfl)
      rw [(h.old j hj).2 (by simp [hi]), hnew.2 (by simp [hp, hi])]
  · exact List.forall_mem_cons.2 ⟨by omega, h.below⟩
  · refine List.pairwise_cons.2 ⟨fun j hj => ?_, h.order⟩
    have hge := h.above j hj
    have hold := h.old j hj
    obtain hlt | hij := lt_or_eq_of_le (hsort j hj)
    · refine .inr ⟨lt_of_le_of_ne (hval ▸ hge) fun heq => hlt.ne ?_, hlt⟩
      simpa using hold.1 (by omega)
    · exact .inl ⟨hval.trans (hold.2 (by simp [hij])).symm, hij⟩
  · intro hfull t j hj
    rw [List.length_cons] at hfull
    cases t with
    | zero =>
      obtain rfl : i = j := by simpa using hj
      omega
    | succ t =>
      have := h.fresh (by omega) t j (by simpa using hj)
      omega

/-- Names order the positions of the list as their triples do. -/
theorem NamesSorted.lt_iff {x : List Int} {prev : Option Nat} {name : Nat} {is : List Nat} {val : Nat → Nat} {count : Nat}
    (h : NamesSorted x prev name is val count) {i j : Nat} (hi : i ∈ is) (hj : j ∈ is) :
    val i < val j ↔ tripleKey x i < tripleKey x j := by
  refine h.order.imp (fun h => ?_) |>.forall_of_forall_of_flip (R := fun i j => val i < val j ↔ tripleKey x i < tripleKey x j)
    (fun _ _ => by simp) (h.order.imp fun h => ?_) hi hj
  · obtain ⟨hv, hk⟩ | ⟨hv, hk⟩ := h
    · simp [hv, hk]
    · simp [hv, hk]
  · obtain ⟨hv, hk⟩ | ⟨hv, hk⟩ := h
    · simp [flip, hv, hk]
    · exact iff_of_false (lt_asymm hv) (lt_asymm hk)

/-- The names of a sorted list of positions with different slots. -/
theorem nameLoop_names {x : List Int} {n0 : Nat} {prev : Option Nat} {name : Nat} {r is : List Nat}
    (hsort : is.Pairwise fun i j => tripleKey x i ≤ tripleKey x j)
    (hprev : ∀ p ∈ prev, ∀ i ∈ is, tripleKey x p ≤ tripleKey x i) (hnd : (is.map (slotOf n0)).Nodup)
    (hlt : ∀ i ∈ is, slotOf n0 i < r.length) :
    NamesSorted x prev name is (fun i => (nameLoop x n0 prev name r is).1.getD (slotOf n0 i) 0)
      (nameLoop x n0 prev name r is).2 := by
  induction is generalizing prev name r with
  | nil => constructor <;> simp
  | cons i is ih =>
    obtain ⟨hhead, htail⟩ := List.pairwise_cons.1 hsort
    obtain ⟨hlti, hltis⟩ := List.forall_mem_cons.1 hlt
    have hval := nameLoop_head (x := x) (prev := prev) (name := name) hnd hlti
    rw [nameLoop_cons] at hval ⊢
    exact (ih htail (by simpa using hhead) (List.nodup_cons.1 hnd).2 (by simpa using hltis)).cons hval
      (le_nameLoop_count _ _ _ _ _ _) hhead fun p hp => hprev p hp i List.mem_cons_self

end Sys2Proof.Machine
end

section
/-! The proof that DC3 computes the suffix array, continued: the names of the sample stand for its suffixes, the ranks order
them, and the merge is by these ranks. -/

namespace Sys2Proof.Machine

/-! ## Triples and suffixes -/

theorem Dc3Pre.endsLow {x : List Int} {n k off : Nat} (h : Dc3Pre x n k off) : EndsLow (padded x n) n :=
  padded_endsLow h.2.2.2.2

/-- Every place that DC3 reads holds the padded sequence. -/
theorem Dc3Pre.padded_eq {x : List Int} {n k off i : Nat} (h : Dc3Pre x n k off) (hi : i < n + 3) :
    padded x n i = x.getD i 0 := by
  obtain ⟨-, -, h1, h2, -⟩ := h
  unfold padded
  split
  · rfl
  · obtain rfl | rfl | rfl : i = n ∨ i = n + 1 ∨ i = n + 2 := by omega
    · rfl
    · exact h1.symm
    · exact h2.symm

theorem tripleKey_eq_padded {x : List Int} {n k off i j : Nat} (hpre : Dc3Pre x n k off) (hi : i ≤ n) (hj : j ≤ n)
    (h : tripleKey x i = tripleKey x j) : padded x n i = padded x n j ∧ padded x n (i + 1) = padded x n (j + 1) ∧
      padded x n (i + 2) = padded x n (j + 2) := by
  simpa only [hpre.padded_eq (show i < n + 3 by omega), hpre.padded_eq (show i + 1 < n + 3 by omega),
    hpre.padded_eq (show i + 2 < n + 3 by omega), hpre.padded_eq (show j < n + 3 by omega),
    hpre.padded_eq (show j + 1 < n + 3 by omega), hpre.padded_eq (show j + 2 < n + 3 by omega)] using tripleKey_eq_iff.1 h

/-- A lesser triple begins a lesser suffix. -/
theorem suffixLt_of_tripleKey_lt {x : List Int} {n k off i j : Nat} (hpre : Dc3Pre x n k off) (hi : i ≤ n) (hj : j ≤ n)
    (h : tripleKey x i < tripleKey x j) : SuffixLt (padded x n) i j := by
  rw [tripleKey_lt_iff] at h
  rw [suffixLt_iff, suffixLt_iff, suffixLt_iff (i := i + 1 + 1), Nat.add_assoc, Nat.add_assoc,
    hpre.padded_eq (show i < n + 3 by omega), hpre.padded_eq (show i + 1 < n + 3 by omega),
    hpre.padded_eq (show i + 2 < n + 3 by omega), hpre.padded_eq (show j < n + 3 by omega),
    hpre.padded_eq (show j + 1 < n + 3 by omega), hpre.padded_eq (show j + 2 < n + 3 by omega)]
  exact h.imp_right (And.imp_right (Or.imp_right (And.imp_right .inl)))

/-- After equal triples the suffixes compare three places further on. -/
theorem suffixLt_of_tripleKey_eq {x : List Int} {n k off i j : Nat} (hpre : Dc3Pre x n k off) (hi : i ≤ n) (hj : j ≤ n)
    (h : tripleKey x i = tripleKey x j) (hlt : SuffixLt (padded x n) (i + 3) (j + 3)) : SuffixLt (padded x n) i j := by
  obtain ⟨h0, h1, h2⟩ := tripleKey_eq_padded hpre hi hj h
  exact suffixLt_iff.2 (.inr ⟨h0, suffixLt_iff.2 (.inr ⟨h1, suffixLt_iff.2 (.inr ⟨h2, hlt⟩)⟩)⟩)

/-! ## The reduced sequence -/

/-- `names` is the reduced sequence of the sample (41_suffix_array.md R178): each slot's name orders it among the slots as
its triple does, and the three pads are 0. -/
structure NamesOf (x : List Int) (n : Nat) (names : List Nat) (count : Nat) : Prop where
  length : names.length = (n + 2) / 3 + n / 3 + 3
  pad : ∀ c, (n + 2) / 3 + n / 3 ≤ c → names.getD c 0 = 0
  pos : ∀ c < (n + 2) / 3 + n / 3, 1 ≤ names.getD c 0 ∧ names.getD c 0 ≤ count
  triple_eq : ∀ c < (n + 2) / 3 + n / 3, ∀ c' < (n + 2) / 3 + n / 3, names.getD c 0 = names.getD c' 0 →
    tripleKey x (posOf ((n + 2) / 3) c) = tripleKey x (posOf ((n + 2) / 3) c')
  triple_lt : ∀ c < (n + 2) / 3 + n / 3, ∀ c' < (n + 2) / 3 + n / 3, names.getD c 0 < names.getD c' 0 →
    tripleKey x (posOf ((n + 2) / 3) c) < tripleKey x (posOf ((n + 2) / 3) c')

/-- The reduced sequence orders its suffixes as the sample's: equal names stand for triples with no pad, so where class 1
runs into class 2, or the sequence ends, the comparison is already decided. -/
theorem NamesOf.suffixLt {x : List Int} {n k off count : Nat} {names : List Nat} (hpre : Dc3Pre x n k off)
    (h : NamesOf x n names count) {c c' : Nat} (hc : c < (n + 2) / 3 + n / 3) (hc' : c' < (n + 2) / 3 + n / 3)
    (hlt : SuffixLt (fun c => (names.getD c 0 : Int)) c c') :
    SuffixLt (padded x n) (posOf ((n + 2) / 3) c) (posOf ((n + 2) / 3) c') := by
  obtain ⟨t, heq, htlt⟩ := suffixLt_iff_exists.1 hlt
  induction t generalizing c c' with
  | zero =>
    exact suffixLt_of_tripleKey_lt hpre (inSample_posOf hc).le (inSample_posOf hc').le
      (h.triple_lt c hc c' hc' (by simpa using htlt))
  | succ t ih =>
    have hne : c ≠ c' := fun heq' => SuffixLt.irrefl _ _ (heq' ▸ hlt)
    have hpos : posOf ((n + 2) / 3) c ≠ posOf ((n + 2) / 3) c' := fun heq' => hne (posOf_injective heq')
    have hle := (inSample_posOf hc).le
    have hle' := (inSample_posOf hc').le
    have htriple := h.triple_eq c hc c' hc' (by simpa using heq 0 (by omega))
    obtain ⟨h0, h1, h2⟩ := tripleKey_eq_padded hpre hle hle' htriple
    obtain ⟨hend, hend'⟩ := hpre.endsLow.add_two_lt_of_triple_eq hle hle' hpos h0 h1 h2
    refine suffixLt_of_tripleKey_eq hpre hle hle' htriple ?_
    have heq1 : ∀ s < t, (names.getD (c + 1 + s) 0 : Int) = names.getD (c' + 1 + s) 0 := fun s hs => by
      simpa [Nat.add_assoc, Nat.add_comm 1] using heq (s + 1) (by omega)
    have htlt1 : (names.getD (c + 1 + t) 0 : Int) < names.getD (c' + 1 + t) 0 := by
      simpa [Nat.add_assoc, Nat.add_comm 1] using htlt
    obtain ⟨hc1, hpos1⟩ | ⟨hc1, hpos1⟩ := posOf_succ hc hend <;>
      obtain ⟨hc1', hpos1'⟩ | ⟨hc1', hpos1'⟩ := posOf_succ hc' hend'
    · rw [← hpos1, ← hpos1']
      exact ih hc1 hc1' ⟨t, heq1, htlt1⟩ heq1 htlt1
    · exfalso
      have hpad := h.pad (c' + 1) hc1'.ge
      have hone := (h.pos (c + 1) hc1).1
      cases t with
      | zero => simp only [Nat.add_zero, hpad] at htlt1; omega
      | succ t => have := heq1 0 (by omega); simp only [Nat.add_zero, hpad] at this; omega
    · rw [hpos1]
      have := (inSample_posOf hc1').le
      exact hpre.endsLow.suffixLt_end (by omega)
    · omega

/-- The reduced sequence meets the precondition of `dc3` (41_suffix_array.md R183). -/
theorem NamesOf.pre {x : List Int} {n count : Nat} {names : List Nat} (h : NamesOf x n names count) :
    Dc3Pre (names.map Int.ofNat) ((n + 2) / 3 + n / 3) count 0 := by
  have hget : ∀ c, (names.map Int.ofNat).getD c 0 = (names.getD c 0 : Int) := fun c => by
    simp [List.getD_eq_getElem?_getD, List.getElem?_map]
    cases names[c]? <;> simp
  refine ⟨by simp [h.length], fun v hv => ?_, ?_, ?_, fun i hi => ?_⟩
  · obtain ⟨m, hm, rfl⟩ := List.mem_map.1 hv
    obtain ⟨c, hc, rfl⟩ := List.getElem_of_mem hm
    have hd : names[c] = names.getD c 0 := by simp [List.getD_eq_getElem?_getD, hc]
    obtain hlt | hge := Nat.lt_or_ge c ((n + 2) / 3 + n / 3)
    · have := h.pos c hlt
      rw [hd, Int.ofNat_eq_natCast]
      omega
    · rw [hd, h.pad c hge]
      simp
  · rw [hget, hget, h.pad _ (by omega), h.pad _ (by omega)]
  · rw [hget, hget, h.pad _ (by omega), h.pad _ (by omega)]
  · have := h.pos i hi
    rw [hget, hget, h.pad _ (by omega)]
    omega

theorem NamesOf.padded_eq {x : List Int} {n count : Nat} {names : List Nat} (h : NamesOf x n names count) :
    padded (names.map Int.ofNat) ((n + 2) / 3 + n / 3) = fun c => (names.getD c 0 : Int) := by
  have hget : ∀ c, (names.map Int.ofNat).getD c 0 = (names.getD c 0 : Int) := fun c => by
    simp [List.getD_eq_getElem?_getD, List.getElem?_map]
    cases names[c]? <;> simp
  funext c
  unfold padded
  split
  · exact hget c
  · rw [hget, h.pad _ (le_refl _), h.pad c (by omega)]

/-! ## The sorted sample and its names -/

/-- The slots of a list of the sample's positions are all the slots. -/
theorem map_slotOf_perm {n : Nat} {is : List Nat} (h : is.Perm (sample12 n ((n + 2) / 3) ((n + 1) / 3))) :
    (is.map (slotOf ((n + 2) / 3))).Perm (List.range ((n + 2) / 3 + n / 3)) := by
  have hmem : ∀ i, i ∈ is ↔ InSample n i := fun i => h.mem_iff.trans mem_sample12
  have hnd : is.Nodup := h.nodup_iff.2 (List.nodup_range.filter _)
  refine (List.perm_ext_iff_of_nodup (hnd.map_on fun i hi j hj hij => ?_) List.nodup_range).2 fun c => ?_
  · have hi := (hmem i).1 hi
    have hj := (hmem j).1 hj
    rw [← posOf_slotOf hi.1 hi.le, hij, posOf_slotOf hj.1 hj.le]
  · simp only [List.mem_map, List.mem_range]
    constructor
    · rintro ⟨i, hi, rfl⟩
      exact slotOf_lt ((hmem i).1 hi)
    · intro hc
      exact ⟨_, (hmem _).2 (inSample_posOf hc), slotOf_posOf _ _⟩

/-- Naming the sorted sample gives the reduced sequence, its count of names is at most the size of the sample, and where it
is the size, the names number the sorted sample (41_suffix_array.md R178, R179). -/
theorem nameTriples_namesOf {x : List Int} {n : Nat} {is : List Nat}
    (hperm : is.Perm (sample12 n ((n + 2) / 3) ((n + 1) / 3)))
    (hsort : is.Pairwise fun i j => tripleKey x i ≤ tripleKey x j) :
    let out := nameTriples is x ((n + 2) / 3) ((n + 2) / 3 + n / 3)
    NamesOf x n out.1 out.2 ∧
      ((n + 2) / 3 + n / 3 ≤ out.2 → ∀ t i, is[t]? = some i → out.1.getD (slotOf ((n + 2) / 3) i) 0 = t + 1) := by
  have hslots := map_slotOf_perm hperm
  have hmem : ∀ c < (n + 2) / 3 + n / 3, posOf ((n + 2) / 3) c ∈ is := fun c hc =>
    hperm.mem_iff.2 (mem_sample12.2 (inSample_posOf hc))
  have hlt : ∀ i ∈ is, slotOf ((n + 2) / 3) i < (n + 2) / 3 + n / 3 := fun i hi =>
    slotOf_lt (mem_sample12.1 (hperm.mem_iff.1 hi))
  have hnames := nameLoop_names (prev := none) (name := 0) (r := List.replicate ((n + 2) / 3 + n / 3 + 3) 0) hsort
    (by simp) (hslots.nodup_iff.2 List.nodup_range) fun i hi => by have := hlt i hi; simp; omega
  have hlen : is.length = (n + 2) / 3 + n / 3 := by simpa using hslots.length_eq
  have hval : ∀ c < (n + 2) / 3 + n / 3, ∃ i ∈ is, posOf ((n + 2) / 3) c = i ∧ slotOf ((n + 2) / 3) i = c := fun c hc =>
    ⟨_, hmem c hc, rfl, slotOf_posOf _ _⟩
  refine ⟨⟨?_, fun c hc => ?_, fun c hc => ?_, fun c hc c' hc' heq => ?_, fun c hc c' hc' hlt => ?_⟩, fun hfull t i hi => ?_⟩
  · simp [nameTriples, nameLoop_length]
  · rw [nameTriples, nameLoop_keeps]
    · by_cases hlt : c < (n + 2) / 3 + n / 3 + 3 <;> simp [List.getD_eq_getElem?_getD, hlt]
    · rw [hslots.mem_iff, List.mem_range]
      omega
  · obtain ⟨i, hi, -, rfl⟩ := hval c hc
    have habove := hnames.above i hi
    have hold := (hnames.old i hi).not.2 (by simp)
    exact ⟨by simp only [nameTriples]; omega, hnames.below i hi⟩
  · obtain ⟨i, hi, hpos, rfl⟩ := hval c hc
    obtain ⟨j, hj, hpos', rfl⟩ := hval c' hc'
    rw [hpos, hpos']
    exact le_antisymm (not_lt.1 fun h => heq.symm.not_lt ((hnames.lt_iff hj hi).2 h))
      (not_lt.1 fun h => heq.not_lt ((hnames.lt_iff hi hj).2 h))
  · obtain ⟨i, hi, hpos, rfl⟩ := hval c hc
    obtain ⟨j, hj, hpos', rfl⟩ := hval c' hc'
    rw [hpos, hpos']
    exact (hnames.lt_iff hi hj).1 hlt
  · exact (hnames.fresh (by rw [hlen, Nat.zero_add]; exact hfull) t i hi).trans (by rw [Nat.zero_add])

end Sys2Proof.Machine
end

section
/-! The proof that DC3 computes the suffix array, concluded: the ranks of the sample, the order of class 0, and the merge. -/

namespace Sys2Proof.Machine

/-! ## Ranks -/

@[simp] theorem invertNames_length (t : Nat) (sa vs : List Nat) : (invertNames t sa vs).length = sa.length := by
  induction vs generalizing t sa with
  | nil => rfl
  | cons v vs ih => rw [invertNames, ih, List.length_set]

theorem invertNames_keeps {t q : Nat} {sa vs : List Nat} (h : ∀ v ∈ vs, v - 1 ≠ q) : (invertNames t sa vs)[q]? = sa[q]? := by
  induction vs generalizing t sa with
  | nil => rfl
  | cons v vs ih =>
    obtain ⟨hv, hvs⟩ := List.forall_mem_cons.1 h
    rw [invertNames, ih hvs, List.getElem?_set_ne hv]

/-- The place of a name holds the slot that has it, if no later slot has it too. -/
theorem invertNames_getElem? {t q v : Nat} {sa vs : List Nat} (hq : vs[q]? = some v) (hv : v - 1 < sa.length)
    (hlast : ∀ p > q, ∀ w, vs[p]? = some w → w - 1 ≠ v - 1) : (invertNames t sa vs)[v - 1]? = some (t + q) := by
  induction vs generalizing t q sa with
  | nil => simp at hq
  | cons u vs ih =>
    cases q with
    | zero =>
      obtain rfl : u = v := by simpa using hq
      rw [invertNames, invertNames_keeps, List.getElem?_set_self hv, Nat.add_zero]
      intro w hw
      obtain ⟨p, hp⟩ := List.getElem?_of_mem hw
      exact hlast (p + 1) (by omega) w (by simpa using hp)
    | succ q =>
      rw [invertNames, ih (by simpa using hq) (by simpa using hv)]
      · congr 1; omega
      · exact fun p hp w hw => hlast (p + 1) (by omega) w (by simpa using hw)

theorem ranksFrom_keeps {t q : Nat} {r ks : List Nat} (h : q ∉ ks) : (ranksFrom t r ks).getD q 0 = r.getD q 0 := by
  induction ks generalizing t r with
  | nil => rfl
  | cons c ks ih =>
    obtain ⟨hc, hks⟩ := by simpa only [List.mem_cons, not_or] using h
    rw [ranksFrom, ih hks]
    simp [List.getD_eq_getElem?_getD, List.getElem?_set_ne (Ne.symm hc)]

/-- The rank of a slot is one more than its place (41_suffix_array.md R179). -/
theorem ranksFrom_getD {t q c : Nat} {r ks : List Nat} (hq : ks[q]? = some c) (hnd : ks.Nodup)
    (hlt : ∀ c ∈ ks, c < r.length) : (ranksFrom t r ks).getD c 0 = t + q + 1 := by
  induction ks generalizing t q r with
  | nil => simp at hq
  | cons d ks ih =>
    obtain ⟨hd, hnd⟩ := List.nodup_cons.1 hnd
    obtain ⟨hltd, hlt⟩ := List.forall_mem_cons.1 hlt
    cases q with
    | zero =>
      obtain rfl : d = c := by simpa using hq
      rw [ranksFrom, ranksFrom_keeps hd]
      simp [List.getD_eq_getElem?_getD, hltd]
    | succ q =>
      rw [ranksFrom, ih (by simpa using hq) hnd (by simpa using hlt)]
      omega

/-- `slots` lists the sample in the order of its suffixes, `ranks` holds for each slot its place in it, counted from 1, and
the pads have rank 0 (41_suffix_array.md R179). -/
structure SampleRanks (X : Nat → Int) (n : Nat) (slots ranks : List Nat) : Prop where
  perm : slots.Perm (List.range ((n + 2) / 3 + n / 3))
  sorted : slots.Pairwise fun c c' => SuffixLt X (posOf ((n + 2) / 3) c) (posOf ((n + 2) / 3) c')
  rank : ∀ t c, slots[t]? = some c → ranks.getD c 0 = t + 1
  pad : ∀ c, (n + 2) / 3 + n / 3 ≤ c → ranks.getD c 0 = 0

/-- Where all names differ they are the ranks. -/
theorem NamesOf.sampleRanks_unique {x : List Int} {n k off count : Nat} {names is : List Nat} (hpre : Dc3Pre x n k off)
    (h : NamesOf x n names count) (hperm : is.Perm (sample12 n ((n + 2) / 3) ((n + 1) / 3)))
    (hnew : ∀ t i, is[t]? = some i → names.getD (slotOf ((n + 2) / 3) i) 0 = t + 1) :
    SampleRanks (padded x n) n
      (invertNames 0 (List.replicate ((n + 2) / 3 + n / 3) 0) (names.take ((n + 2) / 3 + n / 3))) names := by
  have hslots := map_slotOf_perm hperm
  have hlt : ∀ c ∈ is.map (slotOf ((n + 2) / 3)), c < (n + 2) / 3 + n / 3 := fun c hc =>
    List.mem_range.1 (hslots.mem_iff.1 hc)
  have hrank : ∀ t c, (is.map (slotOf ((n + 2) / 3)))[t]? = some c → names.getD c 0 = t + 1 := by
    intro t c hc
    obtain ⟨i, hi, rfl⟩ := by simpa using hc
    exact hnew t i hi
  have hget : ∀ c v, (names.take ((n + 2) / 3 + n / 3))[c]? = some v ↔ c < (n + 2) / 3 + n / 3 ∧ names.getD c 0 = v := by
    intro c v
    have hlen := h.length
    rw [List.getElem?_take, List.getD_eq_getElem?_getD]
    split
    · rw [List.getElem?_eq_getElem (show c < names.length by omega)]
      simp [*]
    · simp [*]
  have hinv : invertNames 0 (List.replicate ((n + 2) / 3 + n / 3) 0) (names.take ((n + 2) / 3 + n / 3)) =
      is.map (slotOf ((n + 2) / 3)) := by
    apply List.ext_getElem?
    intro t
    obtain ht | ht := Nat.lt_or_ge t (is.map (slotOf ((n + 2) / 3))).length
    · have htc := List.getElem?_eq_getElem ht
      generalize (is.map (slotOf ((n + 2) / 3)))[t] = c at htc
      have hc := hlt c (List.mem_of_getElem? htc)
      have ht' : t < (n + 2) / 3 + n / 3 := by simpa [hslots.length_eq] using ht
      rw [htc]
      refine (invertNames_getElem? (t := 0) ((hget c (t + 1)).2 ⟨hc, hrank t c htc⟩) (by simpa using ht') ?_).trans (by simp)
      intro p hp w hw heq
      obtain ⟨hplt, rfl⟩ := (hget p w).1 hw
      obtain ⟨u, hu⟩ := List.getElem?_of_mem (hslots.mem_iff.2 (List.mem_range.2 hplt))
      rw [hrank u p hu] at heq
      obtain rfl : u = t := by simpa using heq
      rw [htc] at hu
      exact hp.ne (Option.some.inj hu)
    · have ht' : (n + 2) / 3 + n / 3 ≤ t := by simpa [hslots.length_eq] using ht
      rw [List.getElem?_eq_none ht, List.getElem?_eq_none (by simpa using ht')]
  rw [hinv]
  refine ⟨hslots, ?_, hrank, h.pad⟩
  rw [List.pairwise_iff_getElem]
  intro s t hs ht hst
  have hs' := hlt _ (List.getElem_mem hs)
  have ht' := hlt _ (List.getElem_mem ht)
  refine suffixLt_of_tripleKey_lt hpre (inSample_posOf hs').le (inSample_posOf ht').le (h.triple_lt _ hs' _ ht' ?_)
  rw [hrank s _ (List.getElem?_eq_getElem hs), hrank t _ (List.getElem?_eq_getElem ht)]
  omega

/-- Where two names are equal, the suffix array of the reduced sequence gives the order and the ranks. -/
theorem NamesOf.sampleRanks_recursive {x : List Int} {n k off count : Nat} {names slots : List Nat}
    (hpre : Dc3Pre x n k off) (h : NamesOf x n names count) (hperm : slots.Perm (List.range ((n + 2) / 3 + n / 3)))
    (hsort : slots.Pairwise (SuffixLt (padded (names.map Int.ofNat) ((n + 2) / 3 + n / 3)))) :
    SampleRanks (padded x n) n slots (ranksFrom 0 names slots) := by
  have hlt : ∀ c ∈ slots, c < (n + 2) / 3 + n / 3 := fun c hc => List.mem_range.1 (hperm.mem_iff.1 hc)
  rw [h.padded_eq] at hsort
  refine ⟨hperm, hsort.imp_of_mem fun hc hc' => h.suffixLt hpre (hlt _ hc) (hlt _ hc'), fun t c hc => ?_, fun c hc => ?_⟩
  · rw [ranksFrom_getD hc (hperm.nodup_iff.2 List.nodup_range) fun c hc => by have := hlt c hc; rw [h.length]; omega]
    omega
  · rw [ranksFrom_keeps fun hmem => by have := hlt c hmem; omega, h.pad c hc]

/-! ## Comparing by ranks -/

/-- Ranks order the sample's suffixes, and the suffix at `n`. -/
theorem SampleRanks.suffixLt {X : Nat → Int} {n : Nat} {slots ranks : List Nat} (h : SampleRanks X n slots ranks)
    (hX : EndsLow X n) {p q : Nat} (hp : p % 3 ≠ 0) (hq : q % 3 ≠ 0) (hpn : p ≤ n) (hqn : q ≤ n) (hne : p ≠ q)
    (hle : ranks.getD (slotOf ((n + 2) / 3) p) 0 ≤ ranks.getD (slotOf ((n + 2) / 3) q) 0) : SuffixLt X p q := by
  obtain rfl | hpn := Nat.eq_or_lt_of_le hpn
  · exact hX.suffixLt_end (by omega)
  have hget : ∀ {i}, InSample n i → ∃ t, slots[t]? = some (slotOf ((n + 2) / 3) i) := fun hi =>
    List.getElem?_of_mem (h.perm.mem_iff.2 (List.mem_range.2 (slotOf_lt hi)))
  obtain ⟨s, hs⟩ := hget (inSample_iff.2 ⟨hp, .inl hpn, by omega⟩)
  rw [h.rank s _ hs] at hle
  by_cases hsample : InSample n q
  · obtain ⟨t, ht⟩ := hget hsample
    rw [h.rank t _ ht] at hle
    obtain ⟨hslen, hsget⟩ := List.getElem?_eq_some_iff.1 hs
    obtain ⟨htlen, htget⟩ := List.getElem?_eq_some_iff.1 ht
    obtain rfl | hst := Nat.eq_or_lt_of_le (Nat.le_of_succ_le_succ hle)
    · have hslot := hsget.symm.trans htget
      rw [← posOf_slotOf hp hpn.le, hslot, posOf_slotOf hq hqn] at hne
      exact absurd rfl hne
    · have := List.pairwise_iff_getElem.1 h.sorted s t hslen htlen hst
      rwa [hsget, htget, posOf_slotOf hp hpn.le, posOf_slotOf hq hqn] at this
  · have hpad := h.pad (slotOf ((n + 2) / 3) q) (by
      rw [inSample_iff] at hsample
      unfold slotOf
      split <;> omega)
    omega

/-- The comparison of two suffixes by one symbol and a rank (41_suffix_array.md R181). -/
theorem SampleRanks.suffixLt_of_pair {X : Nat → Int} {n : Nat} {slots ranks : List Nat} (h : SampleRanks X n slots ranks)
    (hX : EndsLow X n) {p q : Nat} (hp : (p + 1) % 3 ≠ 0) (hq : (q + 1) % 3 ≠ 0) (hpn : p < n) (hqn : q < n) (hne : p ≠ q)
    (hle : X p < X q ∨ X p = X q ∧
      ranks.getD (slotOf ((n + 2) / 3) (p + 1)) 0 ≤ ranks.getD (slotOf ((n + 2) / 3) (q + 1)) 0) : SuffixLt X p q :=
  suffixLt_iff.2 (hle.imp_right (And.imp_right fun hr => h.suffixLt hX hp hq hpn hqn (by omega) hr))

/-- The comparison of two suffixes by two symbols and a rank (41_suffix_array.md R181). -/
theorem SampleRanks.suffixLt_of_triple {X : Nat → Int} {n : Nat} {slots ranks : List Nat} (h : SampleRanks X n slots ranks)
    (hX : EndsLow X n) {p q : Nat} (hp : (p + 2) % 3 ≠ 0) (hq : (q + 2) % 3 ≠ 0) (hpn : p < n) (hqn : q < n) (hne : p ≠ q)
    (hle : X p < X q ∨ X p = X q ∧ (X (p + 1) < X (q + 1) ∨ X (p + 1) = X (q + 1) ∧
      ranks.getD (slotOf ((n + 2) / 3) (p + 2)) 0 ≤ ranks.getD (slotOf ((n + 2) / 3) (q + 2)) 0)) : SuffixLt X p q := by
  refine suffixLt_iff.2 (hle.imp_right (And.imp_right fun hr => ?_))
  obtain hlt | ⟨heq, hr⟩ := hr
  · exact suffixLt_iff.2 (.inl hlt)
  · have hpad := hX.pad_iff_of_eq heq
    exact h.suffixLt_of_pair hX hp hq (by omega) (by omega) (by omega) (.inr ⟨heq, hr⟩)

theorem lePair_iff {a b : Int × Nat} : lePair a b = true ↔ a.1 < b.1 ∨ a.1 = b.1 ∧ a.2 ≤ b.2 := by simp [lePair]

theorem leTriple_iff {a b : Int × Int × Nat} :
    leTriple a b = true ↔ a.1 < b.1 ∨ a.1 = b.1 ∧ (a.2.1 < b.2.1 ∨ a.2.1 = b.2.1 ∧ a.2.2 ≤ b.2.2) := by
  simp [leTriple, lePair_iff]

theorem mergeLe_class1 {x : List Int} {r : List Nat} {n0 c j : Nat} (hc : c < n0) : mergeLe x r n0 c j = true ↔
    x.getD (3 * c + 1) 0 < x.getD j 0 ∨ x.getD (3 * c + 1) 0 = x.getD j 0 ∧ r.getD (c + n0) 0 ≤ r.getD (j / 3) 0 := by
  rw [mergeLe, if_pos hc, lePair_iff, posOf, if_pos hc]

theorem mergeLe_class2 {x : List Int} {r : List Nat} {n0 c j : Nat} (hc : ¬ c < n0) : mergeLe x r n0 c j = true ↔
    x.getD (3 * (c - n0) + 2) 0 < x.getD j 0 ∨ x.getD (3 * (c - n0) + 2) 0 = x.getD j 0 ∧
      (x.getD (3 * (c - n0) + 2 + 1) 0 < x.getD (j + 1) 0 ∨ x.getD (3 * (c - n0) + 2 + 1) 0 = x.getD (j + 1) 0 ∧
        r.getD (c - n0 + 1) 0 ≤ r.getD (j / 3 + n0) 0) := by
  rw [mergeLe, if_neg hc, leTriple_iff, posOf, if_neg hc]

/-- The merge comparison is right: what it puts first is the lesser suffix. -/
theorem mergeLe_suffixLt {x : List Int} {n k off : Nat} {slots ranks : List Nat} (hpre : Dc3Pre x n k off)
    (h : SampleRanks (padded x n) n slots ranks) {c j : Nat} (hc : posOf ((n + 2) / 3) c < n) (hj : j < n)
    (hj0 : j % 3 = 0) :
    if mergeLe x ranks ((n + 2) / 3) c j then SuffixLt (padded x n) (posOf ((n + 2) / 3) c) j
    else SuffixLt (padded x n) j (posOf ((n + 2) / 3) c) := by
  have hX := hpre.endsLow
  have hslot1 : slotOf ((n + 2) / 3) (j + 1) = j / 3 := by unfold slotOf; split <;> omega
  have hslot2 : slotOf ((n + 2) / 3) (j + 2) = j / 3 + (n + 2) / 3 := by unfold slotOf; split <;> omega
  have hj' := hpre.padded_eq (show j < n + 3 by omega)
  have hj1' := hpre.padded_eq (show j + 1 < n + 3 by omega)
  by_cases hclass : c < (n + 2) / 3
  · have hpos : posOf ((n + 2) / 3) c = 3 * c + 1 := if_pos hclass
    rw [hpos] at hc ⊢
    have hslot : slotOf ((n + 2) / 3) (3 * c + 1 + 1) = c + (n + 2) / 3 := by unfold slotOf; split <;> omega
    have hi' := hpre.padded_eq (show 3 * c + 1 < n + 3 by omega)
    have hcmp := mergeLe_class1 (x := x) (r := ranks) (j := j) hclass
    split
    · next hle =>
      refine h.suffixLt_of_pair hX (by omega) (by omega) hc hj (by omega) ?_
      rw [hslot, hslot1, hi', hj']
      exact hcmp.1 hle
    · next hle =>
      refine h.suffixLt_of_pair hX (by omega) (by omega) hj hc (by omega) ?_
      rw [hslot, hslot1, hi', hj']
      have := hcmp.not.1 hle
      omega
  · have hpos : posOf ((n + 2) / 3) c = 3 * (c - (n + 2) / 3) + 2 := if_neg hclass
    rw [hpos] at hc ⊢
    have hslot : slotOf ((n + 2) / 3) (3 * (c - (n + 2) / 3) + 2 + 2) = c - (n + 2) / 3 + 1 := by
      unfold slotOf; split <;> omega
    have hi' := hpre.padded_eq (show 3 * (c - (n + 2) / 3) + 2 < n + 3 by omega)
    have hi1' := hpre.padded_eq (show 3 * (c - (n + 2) / 3) + 2 + 1 < n + 3 by omega)
    have hcmp := mergeLe_class2 (x := x) (r := ranks) (j := j) hclass
    split
    · next hle =>
      refine h.suffixLt_of_triple hX (by omega) (by omega) hc hj (by omega) ?_
      rw [hslot, hslot2, hi', hj', hi1', hj1']
      exact hcmp.1 hle
    · next hle =>
      refine h.suffixLt_of_triple hX (by omega) (by omega) hj hc (by omega) ?_
      rw [hslot, hslot2, hi', hj', hi1', hj1']
      have := hcmp.not.1 hle
      omega

/-! ## The merge -/

/-- A merge of two sorted lists whose comparison is right holds what both hold, and is sorted. -/
theorem mergeLoop_sorted {x : List Int} {r : List Nat} {n0 fuel : Nat} {cs js : List Nat} {R : Nat → Nat → Prop}
    (htrans : ∀ {a b c}, R a b → R b c → R a c) (hfuel : cs.length + js.length ≤ fuel)
    (hcs : (cs.map (posOf n0)).Pairwise R) (hjs : js.Pairwise R)
    (hcmp : ∀ c ∈ cs, ∀ j ∈ js, if mergeLe x r n0 c j then R (posOf n0 c) j else R j (posOf n0 c)) :
    (mergeLoop x r n0 fuel cs js).Perm (cs.map (posOf n0) ++ js) ∧ (mergeLoop x r n0 fuel cs js).Pairwise R := by
  induction fuel generalizing cs js with
  | zero =>
    obtain rfl : cs = [] := List.length_eq_zero_iff.1 (by omega)
    obtain rfl : js = [] := List.length_eq_zero_iff.1 (by omega)
    simp [mergeLoop]
  | succ fuel ih =>
    cases cs with
    | nil => cases js <;> exact ⟨.refl _, hjs⟩
    | cons c cs =>
      cases js with
      | nil => simpa [mergeLoop] using hcs
      | cons j js =>
        obtain ⟨hc, hcs'⟩ := List.pairwise_cons.1 hcs
        obtain ⟨hj, hjs'⟩ := List.pairwise_cons.1 hjs
        have hcj := hcmp c List.mem_cons_self j List.mem_cons_self
        rw [mergeLoop]
        split
        · next hle =>
          rw [if_pos hle] at hcj
          obtain ⟨hperm, hsort⟩ := ih (cs := cs) (js := j :: js) (by simp at hfuel ⊢; omega) hcs' hjs
            fun c' hc' => hcmp c' (List.mem_cons_of_mem c hc')
          refine ⟨hperm.cons _, List.pairwise_cons.2 ⟨fun i hi => ?_, hsort⟩⟩
          obtain hi | rfl | hi := by simpa only [List.mem_append, List.mem_cons] using hperm.mem_iff.1 hi
          · exact hc i hi
          · exact hcj
          · exact htrans hcj (hj i hi)
        · next hle =>
          rw [if_neg hle] at hcj
          obtain ⟨hperm, hsort⟩ := ih (cs := c :: cs) (js := js) (by simp at hfuel ⊢; omega) hcs hjs'
            fun c' hc' j' hj' => hcmp c' hc' j' (List.mem_cons_of_mem j hj')
          refine ⟨(hperm.cons _).trans List.perm_middle.symm, List.pairwise_cons.2 ⟨fun i hi => ?_, hsort⟩⟩
          obtain (rfl | hi) | hi := by
            simpa only [List.mem_append, List.map_cons, List.mem_cons] using hperm.mem_iff.1 hi
          · exact hcj
          · exact htrans hcj (hc i hi)
          · exact hj i hi

/-- The dummy, where there is one, is the least of the sample, so what the merge starts with is the sample without it. -/
theorem SampleRanks.mem_drop_iff {X : Nat → Int} {n : Nat} {slots ranks : List Nat} (h : SampleRanks X n slots ranks)
    (hX : EndsLow X n) (c : Nat) : c ∈ slots.drop ((n + 2) / 3 - (n + 1) / 3) ↔ c ∈ slots ∧ posOf ((n + 2) / 3) c < n := by
  have hsample : ∀ {c}, c ∈ slots → InSample n (posOf ((n + 2) / 3) c) := fun hc =>
    inSample_posOf (List.mem_range.1 (h.perm.mem_iff.1 hc))
  by_cases hn : n % 3 = 1
  · have hdummy : InSample n n := inSample_iff.2 ⟨by omega, by omega, fun _ => hn⟩
    have hpos : posOf ((n + 2) / 3) (slotOf ((n + 2) / 3) n) = n := posOf_slotOf hdummy.1 le_rfl
    have hmem : slotOf ((n + 2) / 3) n ∈ slots := h.perm.mem_iff.2 (List.mem_range.2 (slotOf_lt hdummy))
    have hnd : slots.Nodup := h.perm.nodup_iff.2 List.nodup_range
    rw [show (n + 2) / 3 - (n + 1) / 3 = 1 by omega]
    obtain ⟨-, hsorted, -, -⟩ := h
    cases slots with
    | nil => simp at hmem
    | cons d ds =>
      obtain ⟨hd, -⟩ := List.pairwise_cons.1 hsorted
      obtain ⟨hdmem, -⟩ := List.nodup_cons.1 hnd
      obtain heq | hin := List.mem_cons.1 hmem
      · rw [List.drop_succ_cons, List.drop_zero, List.mem_cons, ← heq]
        constructor
        · intro hc
          refine ⟨.inr hc, lt_of_le_of_ne (hsample (List.mem_cons_of_mem d hc)).le fun hcn => hdmem ?_⟩
          rwa [← heq, ← posOf_injective (hcn.trans hpos.symm)]
        · rintro ⟨rfl | hc, hlt⟩
          · omega
          · exact hc
      · have := hd _ hin
        rw [hpos] at this
        exact absurd this (hX.not_suffixLt_end (hsample List.mem_cons_self).le)
  · rw [show (n + 2) / 3 - (n + 1) / 3 = 0 by omega, List.drop_zero]
    refine ⟨fun hc => ⟨hc, ?_⟩, And.left⟩
    have := inSample_iff.1 (hsample hc)
    omega

/-- The class-0 positions, sorted (41_suffix_array.md R180). -/
theorem classZero_sorted {x : List Int} {n k off : Nat} {slots ranks : List Nat} (hpre : Dc3Pre x n k off)
    (h : SampleRanks (padded x n) n slots ranks) :
    (∀ j, j ∈ classZero slots x ((n + 2) / 3) k off ↔ j % 3 = 0 ∧ j < n) ∧
      (classZero slots x ((n + 2) / 3) k off).Pairwise (SuffixLt (padded x n)) := by
  have hmem : ∀ j, j ∈ (slots.filter fun c => c < (n + 2) / 3).map (fun c => 3 * c) ↔ j % 3 = 0 ∧ j < n := by
    intro j
    simp only [List.mem_map, List.mem_filter, h.perm.mem_iff, List.mem_range, decide_eq_true_eq]
    constructor
    · rintro ⟨c, ⟨-, hc⟩, rfl⟩
      omega
    · intro hj
      exact ⟨j / 3, by omega, by omega⟩
  have hbound : ∀ j ∈ (slots.filter fun c => c < (n + 2) / 3).map (fun c => 3 * c), j + 0 < n + 3 := fun j hj => by
    have := (hmem j).1 hj
    omega
  have hperm := radixPass_perm hpre hbound
  refine ⟨fun j => hperm.mem_iff.trans (hmem j), ?_⟩
  have hnext : ((slots.filter fun c => c < (n + 2) / 3).map fun c => 3 * c).Pairwise fun i j =>
      SuffixLt (padded x n) (i + 1) (j + 1) := by
    rw [List.pairwise_map]
    refine (h.sorted.filter _).imp_of_mem fun {c c'} hc hc' hlt => ?_
    have hc : c < (n + 2) / 3 := by simpa using (List.mem_filter.1 hc).2
    have hc' : c' < (n + 2) / 3 := by simpa using (List.mem_filter.1 hc').2
    rwa [posOf, posOf, if_pos hc, if_pos hc'] at hlt
  refine (radixPass_pairwise hpre hbound hnext).imp_of_mem fun {i j} hi hj hij => ?_
  have hi := (hmem i).1 (hperm.mem_iff.1 hi)
  have hj := (hmem j).1 (hperm.mem_iff.1 hj)
  rw [suffixLt_iff, hpre.padded_eq (show i < n + 3 by omega), hpre.padded_eq (show j < n + 3 by omega)]
  exact hij

/-- Merging class 0 into the ranked sample gives all positions in the order of their suffixes. -/
theorem mergeSuffixes_sorted {x : List Int} {n k off : Nat} {slots ranks : List Nat} (hpre : Dc3Pre x n k off)
    (h : SampleRanks (padded x n) n slots ranks) :
    let sa := mergeSuffixes slots (classZero slots x ((n + 2) / 3) k off) ranks x ((n + 2) / 3) ((n + 1) / 3)
    sa.Perm (List.range n) ∧ sa.Pairwise (SuffixLt (padded x n)) := by
  obtain ⟨hzero, hzsort⟩ := classZero_sorted hpre h
  have hdrop := h.mem_drop_iff hpre.endsLow
  obtain ⟨hperm, hsort⟩ := mergeLoop_sorted (x := x) (r := ranks) (n0 := (n + 2) / 3)
    (fuel := slots.length + (classZero slots x ((n + 2) / 3) k off).length)
    (cs := slots.drop ((n + 2) / 3 - (n + 1) / 3)) (R := SuffixLt (padded x n)) SuffixLt.trans (by simp)
    (List.pairwise_map.2 (h.sorted.sublist (List.drop_sublist _ _))) hzsort
    fun c hc j hj => mergeLe_suffixLt hpre h ((hdrop c).1 hc).2 ((hzero j).1 hj).2 ((hzero j).1 hj).1
  have hnd : (mergeSuffixes slots (classZero slots x ((n + 2) / 3) k off) ranks x ((n + 2) / 3) ((n + 1) / 3)).Nodup :=
    hsort.imp fun hlt => by rintro rfl; exact SuffixLt.irrefl _ _ hlt
  refine ⟨(List.perm_ext_iff_of_nodup hnd List.nodup_range).2 fun i => ?_, hsort⟩
  rw [mergeSuffixes, hperm.mem_iff, List.mem_append, hzero, List.mem_map, List.mem_range]
  constructor
  · rintro (⟨c, hc, rfl⟩ | hi)
    · exact ((hdrop c).1 hc).2
    · exact hi.2
  · intro hi
    by_cases hi0 : i % 3 = 0
    · exact .inr ⟨hi0, hi⟩
    · have hslot := slotOf_lt (inSample_iff.2 ⟨hi0, .inl hi, by omega⟩)
      have hpos := posOf_slotOf hi0 hi.le
      exact .inl ⟨_, (hdrop _).2 ⟨h.perm.mem_iff.2 (List.mem_range.2 hslot), hpos.symm ▸ hi⟩, hpos⟩

/-! ## The recursion -/

/-- With fuel for its length `dc3` sorts the suffixes of the padded sequence: each recursive call is on the shorter
reduced sequence (41_suffix_array.md R183). -/
theorem dc3_sorted {fuel n k off : Nat} {x : List Int} (hfuel : n ≤ fuel) (hpre : Dc3Pre x n k off) :
    (dc3 fuel x n k off).Perm (List.range n) ∧ (dc3 fuel x n k off).Pairwise (SuffixLt (padded x n)) := by
  induction fuel generalizing x n k off with
  | zero =>
    obtain rfl : n = 0 := by omega
    simp [dc3]
  | succ fuel ih =>
    by_cases h0 : n = 0
    · simp [dc3, h0]
    by_cases h1 : n = 1
    · simp [dc3, h1]
    have hperm := tripleSort_perm hpre
    obtain ⟨hnames, hnew⟩ := nameTriples_namesOf hperm (tripleSort_pairwise hpre)
    rw [dc3, if_neg h0, if_neg h1]
    dsimp only
    by_cases hcount : (nameTriples (tripleSort (sample12 n ((n + 2) / 3) ((n + 1) / 3)) x k off) x ((n + 2) / 3)
        ((n + 2) / 3 + n / 3)).2 < (n + 2) / 3 + n / 3
    · rw [if_pos hcount, if_pos hcount]
      obtain ⟨hrec, hrecsort⟩ := ih (by omega) hnames.pre
      exact mergeSuffixes_sorted hpre (hnames.sampleRanks_recursive hpre hrec hrecsort)
    · rw [if_neg hcount, if_neg hcount]
      exact mergeSuffixes_sorted hpre (hnames.sampleRanks_unique hpre hperm (hnew (by omega)))

/-- Settles O52: `dc3` sorts the padded suffixes, which compare as the suffixes do. -/
theorem dc3ComputesTheSuffixArray : Obligations.Dc3ComputesTheSuffixArray := by
  intro x n k off hpre
  have hn : n ≤ x.length := by rw [hpre.1]; omega
  obtain ⟨hperm, hsort⟩ := dc3_sorted le_rfl hpre
  have hlt : ∀ i ∈ dc3 n x n k off, i ≤ n := fun i hi => (List.mem_range.1 (hperm.mem_iff.1 hi)).le
  refine ⟨by rwa [List.length_take_of_le hn], hsort.imp_of_mem fun hi hj hij => ?_⟩
  exact (drop_lt_drop_iff hn hpre.endsLow (hlt _ hi) (hlt _ hj)).2 hij

end Sys2Proof.Machine
end

section
/-! The proof of the BWT round trip (42_bwt.md R220 to R225): the walk's step leads from the row of a suffix to the row of
the suffix one longer. -/

namespace Sys2Proof.Machine

/-! ## The walk -/

/-- The base of a symbol counts the elements below it (42_bwt.md R222). -/
theorem bwtBase_eq_countP (t : List Nat) (c : Nat) : bwtBase t c = t.countP fun v => decide (v < c) := by
  induction c with
  | zero => simp [bwtBase]
  | succ c ih =>
    have hsplit : t.countP (fun v => decide (v < c + 1)) = t.countP (fun v => decide (v < c)) + t.count c := by
      clear ih
      induction t with
      | nil => rfl
      | cons v t ih =>
        simp only [List.countP_cons, List.count_cons, ih, decide_eq_true_eq, beq_iff_eq]
        split <;> split <;> split <;> omega
    rw [hsplit, ← ih]
    simp [bwtBase, List.range_succ]

/-- Where a symbol leads to: past the first row, the elements below it and the equal ones before it (42_bwt.md R222,
R223). -/
def bwtNext (t : List Nat) (pos c : Nat) : Nat := 1 + t.countP (fun v => decide (v < c)) + (t.take pos).count c

/-- One step of the walk (42_bwt.md R223). -/
theorem bwtWalk_succ {t : List Nat} {pos c : Nat} (fuel : Nat) (h : t[pos]? = some c) :
    bwtWalk t (fuel + 1) pos = if c = sent then [] else c :: bwtWalk t fuel (bwtNext t pos c) := by
  have hget : ∀ d, t.getD pos d = c := fun d => by rw [List.getD_eq_getElem?_getD, h, Option.getD_some]
  rw [bwtWalk, hget, bwtBase_eq_countP, bwtRank, hget, bwtNext]

/-! ## Counting the rows before a row -/

/-- In a sorted list the elements before an element are those that are less. -/
theorem countP_lt_eq_take {R : Nat → Nat → Prop} [DecidableRel R] (hirr : ∀ a, ¬ R a a) (hasymm : ∀ a b, R a b → ¬ R b a)
    {l : List Nat} (hl : l.Pairwise R) {q a : Nat} (hq : l[q]? = some a) (P : Nat → Bool) :
    l.countP (fun b => decide (R b a) && P b) = (l.take q).countP P := by
  induction l generalizing q with
  | nil => simp at hq
  | cons b l ih =>
    obtain ⟨hb, hl⟩ := List.pairwise_cons.1 hl
    cases q with
    | zero =>
      obtain rfl : b = a := by simpa using hq
      rw [List.take_zero, List.countP_nil, List.countP_eq_zero]
      intro c hc
      obtain rfl | hc := List.mem_cons.1 hc
      · simp [hirr]
      · simp [hasymm _ _ (hb c hc)]
    | succ q =>
      have hq : l[q]? = some a := by simpa using hq
      rw [List.take_succ_cons, List.countP_cons, List.countP_cons, ih hl hq]
      simp [hb a (List.mem_of_getElem? hq)]

/-- Counting over the positions `0 .. n` what holds of the successors is counting over `0 .. n - 1`. -/
theorem countP_range_succ_shift (n : Nat) (P : Nat → Bool) :
    (List.range (n + 1)).countP (fun k => decide (k ≠ 0) && P (k - 1)) = (List.range n).countP P := by
  rw [List.range_succ_eq_map, List.countP_cons, List.countP_map]
  simp [Function.comp_def]

theorem countP_and_add_countP_and {P Q : Nat → Bool} (l : List Nat) (h : ∀ a ∈ l, ¬ (P a = true ∧ Q a = true)) :
    l.countP (fun a => P a || Q a) = l.countP P + l.countP Q := by
  induction l with
  | nil => rfl
  | cons a l ih =>
    obtain ⟨ha, hl⟩ := List.forall_mem_cons.1 h
    rw [List.countP_cons, List.countP_cons, List.countP_cons, ih hl]
    cases hP : P a <;> cases hQ : Q a <;> simp_all <;> omega

/-! ## The rows of the BWT string -/

/-- The byte string with its sentinel (42_bwt.md R220). -/
def withSentinel (str : List Nat) : List Int := str.map Int.ofNat ++ [-1]

theorem withSentinel_length (str : List Nat) : (withSentinel str).length = str.length + 1 := by simp [withSentinel]

theorem withSentinel_drop {str : List Nat} {i : Nat} (hi : i < str.length) :
    (withSentinel str).drop i = (str.getD i 0 : Int) :: (withSentinel str).drop (i + 1) := by
  have hlt : i < (withSentinel str).length := by rw [withSentinel_length]; omega
  rw [List.drop_eq_getElem_cons hlt]
  simp [withSentinel, List.getD_eq_getElem?_getD, hi]

theorem withSentinel_drop_last (str : List Nat) : (withSentinel str).drop str.length = [-1] := by simp [withSentinel]

/-- The sentinel is the least suffix, and other suffixes compare by their first bytes and then by the suffixes one further
on. -/
theorem withSentinel_drop_lt_iff {str : List Nat} {i j : Nat} (hi : i ≤ str.length) (hj : j < str.length) :
    (withSentinel str).drop i < (withSentinel str).drop j ↔ i = str.length ∨ i < str.length ∧
      (str.getD i 0 < str.getD j 0 ∨ str.getD i 0 = str.getD j 0 ∧
        (withSentinel str).drop (i + 1) < (withSentinel str).drop (j + 1)) := by
  rw [withSentinel_drop hj]
  obtain rfl | hi := Nat.eq_or_lt_of_le hi
  · rw [withSentinel_drop_last, List.cons_lt_cons_iff]
    exact iff_of_true (.inl (by omega)) (.inl rfl)
  · rw [withSentinel_drop hi, List.cons_lt_cons_iff]
    simp [hi, hi.ne]

/-- The symbol of a row is the one before its suffix, or `SENT` (42_bwt.md R220). -/
theorem bwtString_eq_iff {str : List Nat} {k c : Nat} (hc : c < sent) :
    (if k = 0 then sent else str.getD (k - 1) 0) = c ↔ (decide (k ≠ 0) && (str.getD (k - 1) 0 == c)) = true := by
  by_cases h0 : k = 0
  · simp [h0, hc.ne']
  · simp [h0]

theorem count_bwtString_take (str sa : List Nat) (q : Nat) {c : Nat} (hc : c < sent) :
    ((bwtString str sa).take q).count c = (sa.take q).countP fun k => decide (k ≠ 0) && (str.getD (k - 1) 0 == c) := by
  rw [bwtString, ← List.map_take, List.count, List.countP_map]
  refine List.countP_congr fun k _ => ?_
  rw [Function.comp, beq_iff_eq]
  exact bwtString_eq_iff hc

section
variable {str sa : List Nat} (hsa : IsSuffixArray (withSentinel str) sa)
include hsa

theorem suffixArray_perm : sa.Perm (List.range (str.length + 1)) := withSentinel_length str ▸ hsa.1

/-- How many rows lie before a row, among those that satisfy a condition on their suffix. -/
theorem countP_rows_before {q k : Nat} (hq : sa[q]? = some k) (P : Nat → Bool) :
    (List.range (str.length + 1)).countP
      (fun j => decide ((withSentinel str).drop j < (withSentinel str).drop k) && P j) = (sa.take q).countP P := by
  rw [← (suffixArray_perm hsa).countP_eq]
  exact countP_lt_eq_take (R := fun i j => (withSentinel str).drop i < (withSentinel str).drop j)
    (fun _ => lt_irrefl _) (fun _ _ => lt_asymm) hsa.2 hq P

theorem countP_lt_bwtString {c : Nat} (hc : c < sent) :
    (bwtString str sa).countP (fun v => decide (v < c)) =
      (List.range str.length).countP fun j => decide (str.getD j 0 < c) := by
  rw [← countP_range_succ_shift, bwtString, List.countP_map, (suffixArray_perm hsa).countP_eq]
  refine List.countP_congr fun k _ => ?_
  by_cases h0 : k = 0
  · simp [h0, hc.le]
  · simp [h0]

/-- The first row is that of the sentinel. -/
theorem suffixArray_head : sa[0]? = some str.length := by
  obtain ⟨q, hq⟩ := List.getElem?_of_mem ((suffixArray_perm hsa).mem_iff.2 (List.mem_range.2 (Nat.lt_succ_self str.length)))
  cases q with
  | zero => exact hq
  | succ q =>
    exfalso
    obtain ⟨hlen, hget⟩ := List.getElem?_eq_some_iff.1 hq
    have hlt := List.pairwise_iff_getElem.1 hsa.2 0 (q + 1) (by omega) hlen (by omega)
    have hmem := List.mem_range.1 ((suffixArray_perm hsa).mem_iff.1 (List.getElem_mem (show 0 < sa.length by omega)))
    obtain heq | hne := Nat.eq_or_lt_of_le (Nat.le_of_lt_succ hmem)
    · rw [hget, heq] at hlt
      exact lt_irrefl _ hlt
    · rw [hget] at hlt
      have := (withSentinel_drop_lt_iff (str := str) (i := str.length) le_rfl hne).2 (.inl rfl)
      exact lt_asymm hlt this

variable (hstr : ∀ b ∈ str, b ≤ 255)
include hstr

/-- The step of the walk leads from the row of a suffix to the row of the suffix one longer (42_bwt.md R223, R225): that
row has before it the row of the sentinel, one row for each lesser byte, and one for each equal byte that stands before a
lesser suffix. -/
theorem getElem?_bwtNext {p k : Nat} (hp : sa[p]? = some (k + 1)) :
    sa[bwtNext (bwtString str sa) p (str.getD k 0)]? = some k := by
  have hperm := suffixArray_perm hsa
  have hk : k < str.length := by
    have := List.mem_range.1 (hperm.mem_iff.1 (List.mem_of_getElem? hp))
    omega
  have hc : str.getD k 0 < sent := by
    have := hstr (str.getD k 0) (by simp [List.getD_eq_getElem?_getD, hk])
    unfold sent
    omega
  obtain ⟨q, hq⟩ := List.getElem?_of_mem (hperm.mem_iff.2 (List.mem_range.2 (show k < str.length + 1 by omega)))
  suffices hnext : bwtNext (bwtString str sa) p (str.getD k 0) = q by rw [hnext, hq]
  have hequal : ((bwtString str sa).take p).count (str.getD k 0) = (List.range str.length).countP fun j =>
      decide ((withSentinel str).drop (j + 1) < (withSentinel str).drop (k + 1)) && (str.getD j 0 == str.getD k 0) := by
    rw [count_bwtString_take str sa p hc, ← countP_rows_before hsa hp]
    refine (List.countP_congr fun i _ => ?_).trans (countP_range_succ_shift _ _)
    cases i <;> simp
  have hqlen : q ≤ sa.length := (List.getElem?_eq_some_iff.1 hq).1.le
  have hrow := countP_rows_before hsa hq fun _ => true
  rw [List.countP_true, List.length_take_of_le hqlen] at hrow
  rw [bwtNext, countP_lt_bwtString hsa hc, hequal, ← hrow, List.range_succ, List.countP_append, Nat.add_assoc,
    ← countP_and_add_countP_and, Nat.add_comm]
  · congr 1
    · refine List.countP_congr fun j hj => ?_
      have hj := List.mem_range.1 hj
      have := withSentinel_drop_lt_iff (i := j) hj.le hk
      simp [this, hj, hj.ne, and_comm]
    · have := withSentinel_drop_lt_iff (i := str.length) le_rfl hk
      simp [this]
  · intro j _
    simp only [Bool.and_eq_true, decide_eq_true_eq, beq_iff_eq]
    omega

/-- From the row of the suffix at `k` the walk spells the first `k` bytes backwards (42_bwt.md R225). -/
theorem bwtWalk_row {fuel p k : Nat} (hp : sa[p]? = some k) (hfuel : k < fuel) :
    bwtWalk (bwtString str sa) fuel p = (str.take k).reverse := by
  induction k generalizing fuel p with
  | zero =>
    obtain ⟨fuel, rfl⟩ : ∃ f, fuel = f + 1 := ⟨fuel - 1, by omega⟩
    rw [bwtWalk_succ (c := sent) fuel (by simp [bwtString, hp])]
    simp
  | succ k ih =>
    obtain ⟨fuel, rfl⟩ : ∃ f, fuel = f + 1 := ⟨fuel - 1, by omega⟩
    have hk : k < str.length := by
      have := List.mem_range.1 ((suffixArray_perm hsa).mem_iff.1 (List.mem_of_getElem? hp))
      omega
    have hget : str[k]? = some (str.getD k 0) := by simp [List.getD_eq_getElem?_getD, hk]
    have hne : str.getD k 0 ≠ sent := by
      have := hstr _ (List.mem_of_getElem? hget)
      unfold sent
      omega
    rw [bwtWalk_succ (c := str.getD k 0) fuel (by simp [bwtString, hp]), if_neg hne,
      ih (getElem?_bwtNext hsa hstr hp) (by omega), List.take_add_one, hget]
    simp

end

/-- The rows that hold `SENT` are those of the whole string (42_bwt.md R220). -/
theorem bwtString_eq_sent_iff {str : List Nat} (hstr : ∀ b ∈ str, b ≤ 255) (k : Nat) :
    (if k = 0 then sent else str.getD (k - 1) 0) = sent ↔ k = 0 := by
  have hle : str.getD (k - 1) 0 ≠ sent := by
    unfold sent
    rw [List.getD_eq_getElem?_getD]
    cases h : str[k - 1]? with
    | none => simp
    | some b => have := hstr b (List.mem_of_getElem? h); simp; omega
  by_cases h0 : k = 0 <;> simp [h0]
  simpa using hle

theorem count_sent_bwtString {str : List Nat} (hstr : ∀ b ∈ str, b ≤ 255) (sa : List Nat) :
    (bwtString str sa).count sent = sa.count 0 := by
  rw [bwtString, List.count, List.countP_map, List.count]
  exact List.countP_congr fun k _ => by simpa using bwtString_eq_sent_iff hstr k

theorem idxOf_sent_bwtString {str : List Nat} (hstr : ∀ b ∈ str, b ≤ 255) (sa : List Nat) :
    (bwtString str sa).idxOf sent = sa.idxOf 0 := by
  induction sa with
  | nil => rfl
  | cons k sa ih =>
    have hk : ((if k = 0 then sent else str.getD (k - 1) 0) == sent) = (k == 0) := by
      rw [Bool.eq_iff_iff, beq_iff_eq, beq_iff_eq, bwtString_eq_sent_iff hstr]
    rw [bwtString, List.map_cons, List.idxOf_cons, List.idxOf_cons, ← bwtString, ih, hk]

/-- Settles O59: the walk starts at the row of the sentinel and spells the string backwards. -/
theorem bwtRoundTrip : Obligations.BwtRoundTrip := by
  intro str sa hstr hsa
  have hsa' : IsSuffixArray (withSentinel str) sa := hsa
  have hperm := suffixArray_perm hsa'
  refine ⟨?_, idxOf_sent_bwtString hstr sa, ?_⟩
  · rw [← sent, count_sent_bwtString hstr, hperm.count_eq]
    exact List.count_eq_one_of_mem List.nodup_range (by simp)
  · rw [bwtWalk_row hsa' hstr (suffixArray_head hsa') (Nat.lt_succ_self _)]
    simp

end Sys2Proof.Machine
end

section
/-! The proofs of the Huffman obligations on the tree and its header (44_huffman.md R260 to R263). -/

namespace Sys2Proof.Machine

/-! ## The queue -/

theorem qBefore_iff {x y : QNode} : qBefore x y = true ↔ x.PopsBefore y := by
  simp [qBefore, QNode.PopsBefore]

theorem qInsert_perm (x : QNode) (q : List QNode) : (qInsert x q).Perm (x :: q) := by
  induction q with
  | nil => exact .refl _
  | cons y q ih =>
    rw [qInsert]
    split
    · exact .refl _
    · exact (ih.cons y).trans (.swap x y q)

theorem QNode.PopsBefore.trans {x y z : QNode} (h : x.PopsBefore y) (h' : y.PopsBefore z) : x.PopsBefore z := by
  unfold QNode.PopsBefore at *
  omega

/-- Nodes with different sequence numbers leave the queue in one order or the other. -/
theorem QNode.PopsBefore.total {x y : QNode} (hne : x.seq ≠ y.seq) (h : ¬ x.PopsBefore y) : y.PopsBefore x := by
  unfold QNode.PopsBefore at *
  omega

/-- An insertion keeps the queue in the order in which it is popped (44_huffman.md R261). -/
theorem qInsert_sorted {x : QNode} {q : List QNode} (hx : ∀ y ∈ q, x.seq ≠ y.seq) (hq : q.Pairwise QNode.PopsBefore) :
    (qInsert x q).Pairwise QNode.PopsBefore := by
  induction q with
  | nil => simp [qInsert]
  | cons y q ih =>
    obtain ⟨hxy, hxq⟩ := List.forall_mem_cons.1 hx
    obtain ⟨hy, hq'⟩ := List.pairwise_cons.1 hq
    rw [qInsert]
    split
    · next h =>
      have hxy' := qBefore_iff.1 h
      exact List.pairwise_cons.2 ⟨List.forall_mem_cons.2 ⟨hxy', fun z hz => hxy'.trans (hy z hz)⟩, hq⟩
    · next h =>
      refine List.pairwise_cons.2 ⟨fun z hz => ?_, ih hxq hq'⟩
      obtain rfl | hz := List.mem_cons.1 ((qInsert_perm x q).mem_iff.1 hz)
      · exact .total hxy fun hb => h (qBefore_iff.2 hb)
      · exact hy z hz

/-- The queue after all leaves were inserted. -/
theorem foldl_qInsert {xs q : List QNode} (hnd : (xs.map QNode.seq).Nodup) (hq : q.Pairwise QNode.PopsBefore)
    (hne : ∀ x ∈ xs, ∀ y ∈ q, x.seq ≠ y.seq) :
    (xs.foldl (fun q x => qInsert x q) q).Perm (xs ++ q) ∧
      (xs.foldl (fun q x => qInsert x q) q).Pairwise QNode.PopsBefore := by
  induction xs generalizing q with
  | nil => exact ⟨.refl _, hq⟩
  | cons x xs ih =>
    obtain ⟨hx, hnd⟩ := List.nodup_cons.1 (List.map_cons ▸ hnd)
    obtain ⟨hxq, hxsq⟩ := List.forall_mem_cons.1 hne
    obtain ⟨hperm, hsort⟩ := ih hnd (qInsert_sorted hxq hq) fun z hz y hy => by
      obtain rfl | hy := List.mem_cons.1 ((qInsert_perm x q).mem_iff.1 hy)
      · exact fun heq => hx (List.mem_map.2 ⟨z, hz, heq⟩)
      · exact hxsq z hz y hy
    exact ⟨hperm.trans (((qInsert_perm x q).append_left xs).trans List.perm_middle), hsort⟩

/-! ## The merge loop -/

/-- The merge loop sees what the queue holds and not in which order it is written down. -/
theorem MergesTo.of_perm {k : Nat} {q q' : List QNode} {t : Tree} (h : MergesTo k q t) (hq : q'.Perm q) :
    MergesTo k q' t := by
  cases h with
  | root _ x => rw [List.perm_singleton.1 hq]; exact .root k x
  | merge _ _ a b rest _ holds first second next => exact .merge k q' a b rest t (hq.trans holds) first second next

/-- The model's loop over a queue in order is the merge loop of 44_huffman.md R261. -/
theorem qMerge_mergesTo {fuel k : Nat} {q : List QNode} (hfuel : q.length ≤ fuel) (hne : q ≠ [])
    (hq : q.Pairwise QNode.PopsBefore) (hk : ∀ x ∈ q, x.seq < k) : MergesTo k q (qMerge fuel k q) := by
  induction fuel generalizing k q with
  | zero => exact absurd (List.length_eq_zero_iff.1 (by omega)) hne
  | succ fuel ih =>
    match q, hne with
    | [a], _ => exact .root k a
    | a :: b :: rest, _ =>
      obtain ⟨ha, hbrest⟩ := List.pairwise_cons.1 hq
      obtain ⟨hb, hrest⟩ := List.pairwise_cons.1 hbrest
      have hkrest : ∀ x ∈ rest, x.seq < k := fun x hx => hk x (by simp [hx])
      have hperm := qInsert_perm ⟨a.fr + b.fr, k, .node a.tree b.tree⟩ rest
      refine .merge k _ a b rest _ (.refl _) ha hb (MergesTo.of_perm ?_ hperm.symm)
      refine ih ?_ ?_ (qInsert_sorted (fun x hx => (hkrest x hx).ne') hrest) fun x hx => ?_
      · have := hperm.length_eq
        simp only [List.length_cons] at this hfuel
        omega
      · exact fun hnil => by simpa [hnil] using hperm.length_eq
      · obtain rfl | hx := List.mem_cons.1 (hperm.mem_iff.1 hx)
        · exact Nat.lt_succ_self k
        · exact (hkrest x hx).trans (Nat.lt_succ_self k)

/-- Merging neither loses nor makes a leaf. -/
theorem MergesTo.treeSymbols_perm {k : Nat} {q : List QNode} {t : Tree} (h : MergesTo k q t) :
    (treeSymbols t).Perm (q.flatMap fun x => treeSymbols x.tree) := by
  induction h with
  | root k x => simp
  | merge k q a b rest t holds _ _ _ ih =>
    refine ih.trans ?_
    simpa [treeSymbols] using (holds.flatMap_right fun x => treeSymbols x.tree).symm

/-! ## The leaves -/

/-- The symbols that get a leaf: those of the input, and `EOS` (44_huffman.md R260). -/
def leafSymbols (s : List Nat) : List Nat := (List.range 258).filter fun v => v == 257 || s.contains v

/-- A leaf of the queue with its count and its number (44_huffman.md R261). -/
def leafNode (s : List Nat) (c : Nat × Nat) : QNode := { fr := if c.1 = 257 then 1 else s.count c.1, seq := c.2, tree := .leaf c.1 }

theorem qLeaves_eq (s : List Nat) (k : Nat) (vs : List Nat) :
    qLeaves s k vs = ((vs.filter fun v => v == 257 || s.contains v).zipIdx k).map (leafNode s) := by
  induction vs generalizing k with
  | nil => rfl
  | cons v vs ih =>
    have hzero : freq s v = 0 ↔ (v == 257 || s.contains v) = false := by
      by_cases hv : v = 257 <;> simp [freq, eos, hv, List.count_eq_zero]
    rw [qLeaves, List.filter_cons]
    by_cases h : freq s v = 0
    · rw [if_pos h, hzero.1 h, ih]
      rfl
    · have hin : (v == 257 || s.contains v) = true := Bool.eq_true_of_not_eq_false (hzero.not.1 h)
      rw [if_neg h, if_pos hin, List.zipIdx_cons, List.map_cons, ih]
      rfl

theorem eos_mem_leafSymbols (s : List Nat) : 257 ∈ leafSymbols s := by simp [leafSymbols]

/-- The tree is what the merge loop makes of the leaves. -/
theorem buildTree_mergesTo (s : List Nat) :
    MergesTo (leafSymbols s).length ((leafSymbols s).zipIdx.map (leafNode s)) (buildTree s) := by
  have hleaves : qLeaves s 0 (List.range 258) = (leafSymbols s).zipIdx.map (leafNode s) := qLeaves_eq s 0 _
  have hseq : ((leafSymbols s).zipIdx.map (leafNode s)).map QNode.seq = List.range' 0 (leafSymbols s).length := by
    rw [List.map_map]
    exact List.zipIdx_map_snd 0 _
  obtain ⟨hperm, hsort⟩ := foldl_qInsert (xs := (leafSymbols s).zipIdx.map (leafNode s)) (q := [])
    (by rw [hseq]; exact List.nodup_range') .nil (by simp)
  rw [List.append_nil] at hperm
  have hlen : ((leafSymbols s).zipIdx.map (leafNode s)).length = (leafSymbols s).length := by simp
  rw [buildTree, hleaves, hlen]
  refine MergesTo.of_perm (qMerge_mergesTo ?_ ?_ hsort fun x hx => ?_) hperm.symm
  · rw [hperm.length_eq, hlen]
  · intro hnil
    have := hperm.length_eq
    rw [hnil, hlen] at this
    exact absurd (eos_mem_leafSymbols s) (by simp [List.length_eq_zero_iff.1 this.symm])
  · have hmem : x.seq ∈ List.range' 0 (leafSymbols s).length := hseq ▸ List.mem_map_of_mem (hperm.mem_iff.1 hx)
    simpa using hmem

theorem treeSymbols_buildTree_perm (s : List Nat) : (treeSymbols (buildTree s)).Perm (leafSymbols s) := by
  refine (buildTree_mergesTo s).treeSymbols_perm.trans (.of_eq ?_)
  rw [List.flatMap_map]
  have hleaf : (fun c : Nat × Nat => treeSymbols (leafNode s c).tree) = fun c => [c.1] := rfl
  rw [hleaf, ← List.map_eq_flatMap, List.zipIdx_map_fst]

/-! ## The header -/

theorem one_le_treeSymbols_length (t : Tree) : 1 ≤ (treeSymbols t).length := by
  induction t with
  | leaf v => exact le_rfl
  | node left right ihl _ => rw [treeSymbols, List.length_append]; omega

theorem bin9_length (v : Nat) : (bin9 v).length = 9 := by simp [bin9]

/-- A header has ten bits a leaf and one an internal node, of which there is one less (44_huffman.md R263). -/
theorem serialize_length (t : Tree) : (serialize t).length = 11 * (treeSymbols t).length - 1 := by
  induction t with
  | leaf v => simp [serialize, bin9_length, treeSymbols]
  | node left right ihl ihr =>
    have hl := one_le_treeSymbols_length left
    have hr := one_le_treeSymbols_length right
    simp only [serialize, treeSymbols, List.length_cons, List.length_append, ihl, ihr]
    omega

theorem bin9_eq_testBit (v : Nat) : bin9 v = (List.range 9).map fun q => v.testBit (8 - q) := by
  refine List.map_congr_left fun q _ => ?_
  rw [Nat.testBit_eq_decide_div_mod_eq]
  rfl

/-- Settles O56: the queue is in order throughout, so the loop merges as R261 says, and a merge keeps the leaves. -/
theorem huffmanTreeLeavesAndHeaderLength : Obligations.HuffmanTreeLeavesAndHeaderLength :=
  ⟨fun s _ => ⟨treeSymbols_buildTree_perm s, buildTree_mergesTo s⟩,
    fun v => congrArg (true :: ·) (bin9_eq_testBit v), fun _ _ => rfl, serialize_length⟩

end Sys2Proof.Machine
end

section
/-! The proof of the Huffman round trip (44_huffman.md R265 to R269): the decoder reads a tree back from its header, and a
symbol back from its code. -/

namespace Sys2Proof.Machine

/-! ## Bits in the source -/

/-- The source holds the bits from a position on. -/
def BitsAt (src : List Nat) : Nat → List Bool → Prop
  | _, [] => True
  | pos, b :: bits => bitAt src pos = .ok b ∧ BitsAt src (pos + 1) bits

theorem bitsAt_append {src : List Nat} {pos : Nat} {as bs : List Bool} :
    BitsAt src pos (as ++ bs) ↔ BitsAt src pos as ∧ BitsAt src (pos + as.length) bs := by
  induction as generalizing pos with
  | nil => simp [BitsAt]
  | cons a as ih =>
    rw [List.cons_append, BitsAt, BitsAt, ih, and_assoc, List.length_cons, Nat.add_assoc, Nat.add_comm 1]

theorem bitAt_of_getElem? {src : List Nat} {pos : Nat} {b : Bool} (h : src[pos]? = some (bitByte b)) :
    bitAt src pos = .ok b := by
  rw [bitAt, h]
  cases b <;> rfl

/-- The bits written one a byte, after anything and before anything, are there. -/
theorem bitsAt_of_append (before : List Nat) (bits : List Bool) (after : List Nat) :
    BitsAt (before ++ bits.map bitByte ++ after) before.length bits := by
  induction bits generalizing before with
  | nil => trivial
  | cons b bits ih =>
    refine ⟨bitAt_of_getElem? (by simp), ?_⟩
    simpa using ih (before ++ [bitByte b])

theorem bitsAt_zero (bits : List Bool) (after : List Nat) : BitsAt (bits.map bitByte ++ after) 0 bits :=
  bitsAt_of_append [] bits after

/-! ## The header -/

theorem readValue_of_bitsAt {src : List Nat} {pos : Nat} {bits : List Bool} (h : BitsAt src pos bits) (v : Nat) :
    readValue src bits.length pos v = .ok (bits.foldl (fun v b => 2 * v + bitByte b) v) := by
  induction bits generalizing pos v with
  | nil => rfl
  | cons b bits ih =>
    obtain ⟨hb, hbits⟩ := h
    rw [List.length_cons, readValue, hb]
    exact ih hbits _

theorem bitByte_beq_one (n : Nat) : bitByte (n % 2 == 1) = n % 2 := by
  obtain h | h := Nat.mod_two_eq_zero_or_one n <;> simp [bitByte, h]

/-- Bits read most significant first give back the low bits of the value they were taken from. -/
theorem foldl_bits (v k a : Nat) : ((List.range k).map fun q => v / 2 ^ (k - 1 - q) % 2 == 1).foldl
    (fun v b => 2 * v + bitByte b) a = a * 2 ^ k + v % 2 ^ k := by
  induction k generalizing a with
  | zero => simp [Nat.mod_one]
  | succ k ih =>
    have htail : (fun q => v / 2 ^ (k + 1 - 1 - (q + 1)) % 2 == 1) = fun q => v / 2 ^ (k - 1 - q) % 2 == 1 := by
      funext q
      rw [show k + 1 - 1 - (q + 1) = k - 1 - q by omega]
    rw [List.range_succ_eq_map, List.map_cons, List.foldl_cons, bitByte_beq_one, List.map_map, Function.comp_def, htail, ih,
      Nat.mod_pow_succ, Nat.pow_succ]
    simp only [Nat.sub_zero, Nat.add_sub_cancel]
    ring

/-- Nine bits hold a value below 512 (44_huffman.md R263). -/
theorem foldl_bin9 {v : Nat} (hv : v < 512) : (bin9 v).foldl (fun v b => 2 * v + bitByte b) 0 = v := by
  have h := foldl_bits v 9 0
  rw [Nat.zero_mul, Nat.zero_add, Nat.mod_eq_of_lt (show v < 2 ^ 9 from hv)] at h
  exact h

theorem readValue_bin9 {src : List Nat} {pos v : Nat} (hv : v < 512) (h : BitsAt src pos (bin9 v)) :
    readValue src 9 pos 0 = .ok v := by
  have := readValue_of_bitsAt h 0
  rwa [bin9_length, foldl_bin9 hv] at this

/-- A leaf that is new and in range is read (44_huffman.md R265). -/
theorem parseTree_leaf {src : List Nat} {pos v : Nat} {st : ParseState} (fuel : Nat)
    (h : BitsAt src pos (serialize (.leaf v))) (hv : v ≤ 257) (hnew : v ∉ st.leaves) :
    parseTree src (fuel + 1) pos st = .ok (.leaf v, pos + 10, { st with leaves := v :: st.leaves }) := by
  obtain ⟨htag, hval⟩ := h
  rw [parseTree, htag]
  simp only [readValue_bin9 (show v < 512 by omega) hval]
  exact if_neg (not_or.2 ⟨Nat.not_lt.2 hv, hnew⟩)

/-- A leaf that is out of range or was met before is refused at its tag (44_huffman.md R265). -/
theorem parseTree_bad_leaf {src : List Nat} {pos v : Nat} {st : ParseState} (fuel : Nat)
    (h : BitsAt src pos (serialize (.leaf v))) (hv : v < 512) (hbad : 257 < v ∨ v ∈ st.leaves) :
    parseTree src (fuel + 1) pos st = .error (.badHdr, pos) := by
  obtain ⟨htag, hval⟩ := h
  rw [parseTree, htag]
  simp only [readValue_bin9 hv hval]
  exact if_pos hbad

/-- What `Parse` carries on after a tree: one internal node less than leaves, and the leaves (44_huffman.md R265). -/
def ParseState.after (st : ParseState) (t : Tree) : ParseState :=
  { internals := st.internals + ((treeSymbols t).length - 1), leaves := (treeSymbols t).reverse ++ st.leaves }

theorem ParseState.after_node (st : ParseState) (left right : Tree) :
    (({ st with internals := st.internals + 1 } : ParseState).after left).after right = st.after (.node left right) := by
  have hl := one_le_treeSymbols_length left
  have hr := one_le_treeSymbols_length right
  simp only [ParseState.after, treeSymbols, List.length_append, List.reverse_append, List.append_assoc, ParseState.mk.injEq,
    and_true]
  omega

/-- A tree with distinct leaves is read back from its header (44_huffman.md R265, R269). -/
theorem parseTree_serialize {src : List Nat} {t : Tree} {fuel pos : Nat} {st : ParseState}
    (h : BitsAt src pos (serialize t)) (hfuel : (treeSymbols t).length ≤ fuel)
    (hint : st.internals + (treeSymbols t).length ≤ 258) (hle : ∀ v ∈ treeSymbols t, v ≤ 257)
    (hnd : (treeSymbols t ++ st.leaves).Nodup) :
    parseTree src fuel pos st = .ok (t, pos + (serialize t).length, st.after t) := by
  induction t generalizing fuel pos st with
  | leaf v =>
    obtain ⟨fuel, rfl⟩ : ∃ f, fuel = f + 1 := ⟨fuel - 1, by simp [treeSymbols] at hfuel; omega⟩
    rw [parseTree_leaf fuel h (hle v (by simp [treeSymbols])) (List.nodup_cons.1 hnd).1]
    simp [ParseState.after, treeSymbols, serialize, bin9_length]
  | node left right ihl ihr =>
    have hl := one_le_treeSymbols_length left
    have hr := one_le_treeSymbols_length right
    simp only [treeSymbols, List.length_append] at hfuel hint
    obtain ⟨fuel, rfl⟩ : ∃ f, fuel = f + 1 := ⟨fuel - 1, by omega⟩
    obtain ⟨htag, hrest⟩ := h
    obtain ⟨hleft, hright⟩ := bitsAt_append.1 hrest
    have hndl : (treeSymbols left ++ st.leaves).Nodup := by
      refine hnd.sublist ?_
      rw [treeSymbols, List.append_assoc]
      exact (List.sublist_append_right _ _).append_left _
    have hndr : (treeSymbols right ++ ((treeSymbols left).reverse ++ st.leaves)).Nodup := by
      refine (List.Perm.nodup_iff ?_).1 hnd
      rw [treeSymbols, List.append_assoc]
      exact List.perm_append_comm_assoc _ _ _ |>.trans (((List.reverse_perm _).symm.append_right _).append_left _)
    have hlrec := ihl (fuel := fuel) (st := { st with internals := st.internals + 1 }) hleft (by omega)
      (by dsimp only; omega) (fun v hv => hle v (by simp [treeSymbols, hv])) hndl
    have hrrec := ihr (fuel := fuel) (st := ({ st with internals := st.internals + 1 } : ParseState).after left) hright
      (by omega) (by simp only [ParseState.after]; omega) (fun v hv => hle v (by simp [treeSymbols, hv])) hndr
    rw [parseTree, htag]
    simp only [hlrec, hrrec]
    rw [if_neg (by omega)]
    rw [ParseState.after_node]
    simp only [serialize, List.length_append, List.length_cons]
    congr 3
    omega

/-! ## The payload -/

/-- A path leads the walk to its leaf (44_huffman.md R262, R266). -/
theorem walkTree_of_leafPaths {src : List Nat} {t : Tree} {pos v : Nat} {path : List Bool} (hmem : (v, path) ∈ leafPaths t)
    (h : BitsAt src pos path) : walkTree src t pos = .ok (v, pos + path.length) := by
  induction t generalizing pos path with
  | leaf w =>
    obtain ⟨rfl, rfl⟩ := by simpa [leafPaths] using hmem
    rfl
  | node left right ihl ihr =>
    simp only [leafPaths, List.mem_append, List.mem_map, Prod.mk.injEq] at hmem
    obtain ⟨⟨w, p⟩, hp, rfl, rfl⟩ | ⟨⟨w, p⟩, hp, rfl, rfl⟩ := hmem <;> obtain ⟨hb, hbits⟩ := h <;> rw [walkTree, hb]
    · simp only [ihl hp hbits, List.length_cons, Nat.add_assoc, Nat.add_comm 1]
    · simp only [ihr hp hbits, List.length_cons, Nat.add_assoc, Nat.add_comm 1]

/-- A symbol's code is read back as the symbol (44_huffman.md R266). -/
theorem decodeSymbol_codeOf {src : List Nat} {t : Tree} {pos v : Nat} (hv : v ∈ treeSymbols t)
    (h : BitsAt src pos (codeOf t v)) : decodeSymbol src t pos = .ok (v, pos + (codeOf t v).length) := by
  have hmem := codeOf_mem_codes hv
  cases t with
  | leaf w =>
    obtain ⟨rfl, hcode⟩ := by simpa [codes] using hmem
    rw [hcode] at h ⊢
    simp [decodeSymbol, h.1]
  | node left right =>
    rw [codes_node] at hmem
    exact walkTree_of_leafPaths hmem h

/-- No code is empty (44_huffman.md R262). -/
theorem codeOf_length_pos {t : Tree} {v : Nat} (hv : v ∈ treeSymbols t) : 0 < (codeOf t v).length := by
  have hmem := codeOf_mem_codes hv
  cases t with
  | leaf w =>
    obtain ⟨rfl, hcode⟩ := by simpa [codes] using hmem
    simp [hcode]
  | node left right =>
    simp only [codes_node, leafPaths, List.mem_append, List.mem_map, Prod.mk.injEq] at hmem
    obtain ⟨_, -, -, hcode⟩ | ⟨_, -, -, hcode⟩ := hmem <;> simp [← hcode]

/-- A stream of codes that ends with that of `EOS` is read back as its symbols (44_huffman.md R266, R269). -/
theorem decodePayload_codes {src : List Nat} {t : Tree} {cap fuel pos n : Nat} {s : List Nat} (heos : eos ∈ treeSymbols t)
    (hs : ∀ v ∈ s, v ∈ treeSymbols t ∧ v ≠ eos) (hcap : n + s.length ≤ cap) (hfuel : s.length < fuel)
    (h : BitsAt src pos (s.flatMap (codeOf t) ++ codeOf t eos)) :
    decodePayload src t cap fuel pos n = .ok (s, pos + (s.flatMap (codeOf t) ++ codeOf t eos).length) := by
  induction s generalizing fuel pos n with
  | nil =>
    obtain ⟨fuel, rfl⟩ : ∃ f, fuel = f + 1 := ⟨fuel - 1, by omega⟩
    rw [decodePayload, decodeSymbol_codeOf heos h]
    simp
  | cons v s ih =>
    obtain ⟨fuel, rfl⟩ : ∃ f, fuel = f + 1 := ⟨fuel - 1, by omega⟩
    obtain ⟨⟨hv, hne⟩, hs⟩ := List.forall_mem_cons.1 hs
    rw [List.flatMap_cons, List.append_assoc, bitsAt_append] at h
    rw [List.length_cons] at hcap hfuel
    rw [decodePayload, decodeSymbol_codeOf hv h.1]
    simp only [ih (fuel := fuel) (n := n + 1) hs (by omega) (by omega) h.2]
    rw [if_neg hne, if_neg (by omega)]
    simp [Nat.add_assoc]

theorem length_le_flatMap_codeOf {t : Tree} {s : List Nat} (hs : ∀ v ∈ s, v ∈ treeSymbols t) :
    s.length ≤ (s.flatMap (codeOf t)).length := by
  induction s with
  | nil => exact le_rfl
  | cons v s ih =>
    obtain ⟨hv, hs⟩ := List.forall_mem_cons.1 hs
    have := ih hs
    have := codeOf_length_pos hv
    simp only [List.length_cons, List.flatMap_cons, List.length_append]
    omega

/-! ## The round trip -/

/-- Distinct symbols up to 257 are at most 258. -/
theorem treeSymbols_length_le {t : Tree} (hnd : (treeSymbols t).Nodup) (hle : ∀ v ∈ treeSymbols t, v ≤ 257) :
    (treeSymbols t).length ≤ 258 := by
  have hsub : treeSymbols t ⊆ List.range 258 := fun v hv => List.mem_range.2 (Nat.lt_succ_of_le (hle v hv))
  simpa using (List.subperm_of_subset hnd hsub).length_le

/-- A header parses back to its tree and is consumed exactly (44_huffman.md R265). -/
theorem parseTree_header {src : List Nat} {t : Tree} (hnd : (treeSymbols t).Nodup) (hle : ∀ v ∈ treeSymbols t, v ≤ 257)
    (h : BitsAt src 0 (serialize t)) :
    parseTree src 258 0 ⟨0, []⟩ = .ok (t, (serialize t).length, ParseState.after ⟨0, []⟩ t) := by
  have hlen := treeSymbols_length_le hnd hle
  rw [parseTree_serialize h hlen (by simpa using hlen) hle (by simpa using hnd), Nat.zero_add]

/-- A header and codes that end with that of `EOS` are decoded to the symbols and consumed exactly (44_huffman.md R267). -/
theorem hufDecode_codes {t : Tree} {s after : List Nat} {cap : Nat} (hnd : (treeSymbols t).Nodup)
    (hle : ∀ v ∈ treeSymbols t, v ≤ 257) (heos : eos ∈ treeSymbols t) (hs : ∀ v ∈ s, v ∈ treeSymbols t ∧ v ≠ eos)
    (hcap : s.length ≤ cap) :
    hufDecode ((serialize t ++ s.flatMap (codeOf t) ++ codeOf t eos).map bitByte ++ after) cap =
      .ok (s, (serialize t ++ s.flatMap (codeOf t) ++ codeOf t eos).length) := by
  have hbits := bitsAt_zero (serialize t ++ s.flatMap (codeOf t) ++ codeOf t eos) after
  generalize hsrc : (serialize t ++ s.flatMap (codeOf t) ++ codeOf t eos).map bitByte ++ after = src at hbits ⊢
  have hlen : s.length ≤ src.length := by
    have := length_le_flatMap_codeOf fun v hv => (hs v hv).1
    rw [← hsrc]
    simp only [List.length_append, List.length_map]
    omega
  rw [List.append_assoc, bitsAt_append, Nat.zero_add] at hbits
  simp only [hufDecode, parseTree_header hnd hle hbits.1]
  rw [decodePayload_codes heos hs (by omega) (by omega) hbits.2]
  simp

/-- The tree that the encoder makes has distinct leaves up to `EOS`, with `EOS` and each symbol of the input among them. -/
theorem buildTree_leaves {s : List Nat} (hs : ∀ v ∈ s, v ≤ 256) :
    (treeSymbols (buildTree s)).Nodup ∧ (∀ v ∈ treeSymbols (buildTree s), v ≤ 257) ∧ eos ∈ treeSymbols (buildTree s) ∧
      ∀ v ∈ s, v ∈ treeSymbols (buildTree s) ∧ v ≠ eos := by
  have hperm := treeSymbols_buildTree_perm s
  refine ⟨hperm.nodup_iff.2 (List.nodup_range.filter _), fun v hv => ?_, hperm.mem_iff.2 (eos_mem_leafSymbols s),
    fun v hv => ?_⟩
  · have := List.mem_range.1 (List.mem_filter.1 (hperm.mem_iff.1 hv)).1
    omega
  · have := hs v hv
    refine ⟨hperm.mem_iff.2 (List.mem_filter.2 ⟨List.mem_range.2 (by omega), by simp [hv]⟩), ?_⟩
    unfold eos
    omega

/-- Settles O58: the decoder reads back the header of any tree with distinct leaves and the codes of its symbols, and the
encoder's tree is one. -/
theorem huffmanRoundTrip : Obligations.HuffmanRoundTrip := by
  refine ⟨fun root after hnd hle => ⟨⟨_, parseTree_header hnd hle (bitsAt_zero _ _)⟩, ?_⟩, ?_⟩
  · intro s cap heos hs hcap
    exact hufDecode_codes hnd hle heos hs hcap
  · intro s after cap hs hcap
    obtain ⟨hnd, hle, heos, hmem⟩ := buildTree_leaves hs
    exact hufDecode_codes hnd hle heos hmem hcap

end Sys2Proof.Machine
end

section
/-! The proof of where the Huffman decoder stops on a corrupt stream (44_huffman.md R265, R266). It reads its source from
front to back, so a source that ends, or holds no bit, at a place that the decoder would read stops it there. -/

namespace Sys2Proof.Machine

/-! ## What a successful step of the decoder did -/

/-- A tree that was parsed is an internal node with two subtrees that were parsed one after the other, or a leaf whose
value was read and accepted (44_huffman.md R265). -/
theorem parseTree_ok {src : List Nat} {fuel pos pos' : Nat} {st st' : ParseState} {t : Tree}
    (h : parseTree src (fuel + 1) pos st = .ok (t, pos', st')) :
    (bitAt src pos = .ok false ∧ ¬ 257 < st.internals + 1 ∧ ∃ left pos1 st1 right, t = .node left right ∧
      parseTree src fuel (pos + 1) { st with internals := st.internals + 1 } = .ok (left, pos1, st1) ∧
      parseTree src fuel pos1 st1 = .ok (right, pos', st')) ∨
    (bitAt src pos = .ok true ∧ ∃ v, readValue src 9 (pos + 1) 0 = .ok v ∧ ¬ (eos < v ∨ v ∈ st.leaves) ∧ t = .leaf v ∧
      pos' = pos + 10 ∧ st' = { st with leaves := v :: st.leaves }) := by
  rw [parseTree] at h
  split at h
  · cases h
  · next hb =>
    split at h
    · cases h
    · next hint =>
      split at h
      · cases h
      · next left pos1 st1 hl =>
        split at h
        · cases h
        · next right pos2 st2 hr =>
          cases h
          exact .inl ⟨hb, hint, left, pos1, st1, right, rfl, hl, hr⟩
  · next hb =>
    split at h
    · cases h
    · next v hv =>
      split at h
      · cases h
      · next hgood =>
        cases h
        exact .inr ⟨hb, v, hv, hgood, rfl, rfl, rfl⟩

theorem parseTree_lt {src : List Nat} {fuel pos pos' : Nat} {st st' : ParseState} {t : Tree}
    (h : parseTree src fuel pos st = .ok (t, pos', st')) : pos < pos' := by
  induction fuel generalizing pos pos' st st' t with
  | zero => simp [parseTree] at h
  | succ fuel ih =>
    obtain ⟨-, -, left, pos1, st1, right, -, hl, hr⟩ | ⟨-, v, -, -, -, rfl, -⟩ := parseTree_ok h
    · have := ih hl
      have := ih hr
      omega
    · omega

/-- A symbol that was decoded was met on the walk from the root, or is that of the lone leaf (44_huffman.md R266). -/
theorem walkTree_le {src : List Nat} {t : Tree} {pos pos' v : Nat} (h : walkTree src t pos = .ok (v, pos')) : pos ≤ pos' := by
  induction t generalizing pos with
  | leaf w => cases h; exact le_rfl
  | node left right ihl ihr =>
    rw [walkTree] at h
    split at h
    · cases h
    · have := ihl h
      omega
    · have := ihr h
      omega

theorem decodeSymbol_lt {src : List Nat} {t : Tree} {pos pos' v : Nat} (h : decodeSymbol src t pos = .ok (v, pos')) :
    pos < pos' := by
  cases t with
  | leaf w =>
    simp only [decodeSymbol] at h
    split at h <;> cases h
    exact Nat.lt_succ_self pos
  | node left right =>
    simp only [decodeSymbol, walkTree] at h
    split at h
    · cases h
    · exact walkTree_le h
    · exact walkTree_le h

/-- A payload that was decoded began with a symbol that was `EOS`, or was emitted within the capacity and followed by the
rest (44_huffman.md R266). -/
theorem decodePayload_ok {src : List Nat} {root : Tree} {cap fuel pos n pos' : Nat} {out : List Nat}
    (h : decodePayload src root cap (fuel + 1) pos n = .ok (out, pos')) :
    ∃ v pos1, decodeSymbol src root pos = .ok (v, pos1) ∧ ((v = eos ∧ out = [] ∧ pos' = pos1) ∨
      (v ≠ eos ∧ n ≠ cap ∧ ∃ vs, out = v :: vs ∧ decodePayload src root cap fuel pos1 (n + 1) = .ok (vs, pos'))) := by
  rw [decodePayload] at h
  split at h
  · cases h
  · next v pos1 hv =>
    refine ⟨v, pos1, hv, ?_⟩
    split at h
    · next heos => cases h; exact .inl ⟨heos, rfl, rfl⟩
    · next heos =>
      split at h
      · cases h
      · next hcap =>
        split at h
        · cases h
        · next vs pos2 hrest => cases h; exact .inr ⟨heos, hcap, vs, rfl, hrest⟩

/-! ## A source that breaks off -/

/-- `src'` holds what `src` holds before `k`, and its place `k` cannot be read as a bit. -/
structure BreaksAt (src src' : List Nat) (k : Nat) (e : ErrCode × Nat) : Prop where
  same : ∀ j < k, bitAt src' j = bitAt src j
  stops : bitAt src' k = .error e

namespace BreaksAt

variable {src src' : List Nat} {k : Nat} {e : ErrCode × Nat}

/-- A value whose bits lie before the break is read as it was, and one that reaches it is not. -/
theorem readValue_eq (hbreak : BreaksAt src src' k e) {count pos v w : Nat} (h : readValue src count pos v = .ok w)
    (hpos : pos ≤ k) : readValue src' count pos v = if pos + count ≤ k then .ok w else .error e := by
  induction count generalizing pos v with
  | zero => simpa [readValue, hpos] using h
  | succ count ih =>
    rw [readValue] at h ⊢
    obtain rfl | hlt := Nat.eq_or_lt_of_le hpos
    · rw [hbreak.stops, if_neg (by omega)]
    · rw [hbreak.same pos hlt]
      split at h
      · cases h
      · rw [ih h hlt, Nat.add_assoc, Nat.add_comm 1]

/-- A header that ends before the break is parsed as it was, and one that reaches it is not. -/
theorem parseTree_eq (hbreak : BreaksAt src src' k e) {fuel pos pos' : Nat} {st st' : ParseState} {t : Tree}
    (h : parseTree src fuel pos st = .ok (t, pos', st')) (hpos : pos ≤ k) :
    parseTree src' fuel pos st = if pos' ≤ k then .ok (t, pos', st') else .error e := by
  induction fuel generalizing pos pos' st st' t with
  | zero => simp [parseTree] at h
  | succ fuel ih =>
    have hadvance := parseTree_lt h
    rw [parseTree]
    obtain rfl | hlt := Nat.eq_or_lt_of_le hpos
    · simp only [hbreak.stops, if_neg (show ¬ pos' ≤ pos by omega)]
    · rw [hbreak.same pos hlt]
      obtain ⟨hb, hint, left, pos1, st1, right, rfl, hl, hr⟩ | ⟨hb, v, hv, hgood, rfl, rfl, rfl⟩ := parseTree_ok h
      · have hadvance' := parseTree_lt hr
        simp only [hb, if_neg hint, ih hl hlt]
        by_cases hpos1 : pos1 ≤ k
        · simp only [if_pos hpos1, ih hr hpos1]
          by_cases hpos' : pos' ≤ k
          · simp only [if_pos hpos']
          · simp only [if_neg hpos']
        · simp only [if_neg hpos1, if_neg (show ¬ pos' ≤ k by omega)]
      · simp only [hb, hbreak.readValue_eq hv hlt, Nat.add_assoc]
        by_cases hend : pos + 10 ≤ k
        · simp only [if_pos hend, Nat.reduceAdd, if_neg hgood]
        · simp only [if_neg hend, Nat.reduceAdd]

theorem walkTree_eq (hbreak : BreaksAt src src' k e) {t : Tree} {pos pos' v : Nat}
    (h : walkTree src t pos = .ok (v, pos')) (hpos : pos ≤ k) :
    walkTree src' t pos = if pos' ≤ k then .ok (v, pos') else .error e := by
  induction t generalizing pos with
  | leaf w => cases h; rw [walkTree, if_pos hpos]
  | node left right ihl ihr =>
    rw [walkTree] at h ⊢
    obtain rfl | hlt := Nat.eq_or_lt_of_le hpos
    · rw [hbreak.stops]
      split at h
      · cases h
      · have := walkTree_le h
        rw [if_neg (by omega)]
      · have := walkTree_le h
        rw [if_neg (by omega)]
    · rw [hbreak.same pos hlt]
      split at h
      · cases h
      · exact ihl h hlt
      · exact ihr h hlt

/-- A symbol whose code ends before the break is decoded as it was, and one whose code reaches it is not. -/
theorem decodeSymbol_eq (hbreak : BreaksAt src src' k e) {t : Tree} {pos pos' v : Nat}
    (h : decodeSymbol src t pos = .ok (v, pos')) (hpos : pos ≤ k) :
    decodeSymbol src' t pos = if pos' ≤ k then .ok (v, pos') else .error e := by
  cases t with
  | node left right => exact hbreak.walkTree_eq h hpos
  | leaf w =>
    have hadvance := decodeSymbol_lt h
    simp only [decodeSymbol] at h ⊢
    obtain rfl | hlt := Nat.eq_or_lt_of_le hpos
    · rw [hbreak.stops, if_neg (by omega)]
    · rw [hbreak.same pos hlt]
      split at h
      · cases h
      · cases h
      · cases h
        simp only [if_pos (show pos + 1 ≤ k from hlt)]

/-- A payload that reaches the break stops there. -/
theorem decodePayload_eq (hbreak : BreaksAt src src' k e) {root : Tree} {cap fuel fuel' pos n pos' : Nat} {out : List Nat}
    (h : decodePayload src root cap fuel pos n = .ok (out, pos')) (hpos : pos ≤ k) (hend : k < pos')
    (hfuel : k - pos < fuel') : decodePayload src' root cap fuel' pos n = .error e := by
  induction fuel generalizing fuel' pos n out with
  | zero => simp [decodePayload] at h
  | succ fuel ih =>
    obtain ⟨fuel', rfl⟩ : ∃ f, fuel' = f + 1 := ⟨fuel' - 1, by omega⟩
    obtain ⟨v, pos1, hv, hrest⟩ := decodePayload_ok h
    have hadvance := decodeSymbol_lt hv
    rw [decodePayload, hbreak.decodeSymbol_eq hv hpos]
    obtain ⟨-, -, rfl⟩ | ⟨hne, hcap, vs, -, hrest⟩ := hrest
    · simp only [if_neg (show ¬ pos' ≤ k by omega)]
    · by_cases hpos1 : pos1 ≤ k
      · simp only [if_pos hpos1, if_neg hne, if_neg hcap, ih hrest hpos1 (show k - pos1 < fuel' by omega)]
      · simp only [if_neg hpos1]

/-- A source that breaks off before the end of the stream is refused where it breaks. -/
theorem hufDecode_eq (hbreak : BreaksAt src src' k e) {cap pos' : Nat} {out : List Nat}
    (h : hufDecode src cap = .ok (out, pos')) (hend : k < pos') (hlen : k ≤ src'.length) :
    hufDecode src' cap = .error e := by
  simp only [hufDecode] at h ⊢
  split at h
  · cases h
  · next root pos st hparse =>
    rw [hbreak.parseTree_eq hparse (Nat.zero_le k)]
    by_cases hpos : pos ≤ k
    · simp only [if_pos hpos]
      exact hbreak.decodePayload_eq h hpos hend (by omega)
    · simp only [if_neg hpos]

end BreaksAt

theorem bitAt_eq_trunc {src : List Nat} {j : Nat} (h : src[j]? = none) : bitAt src j = .error (.trunc, j) := by
  simp [bitAt, h]

theorem bitAt_eq_badBit {src : List Nat} {j b : Nat} (h : src[j]? = some (b + 2)) : bitAt src j = .error (.badBit, j) := by
  simp [bitAt, h]

theorem bitAt_append_left {src after : List Nat} {j : Nat} (hj : j < src.length) : bitAt (src ++ after) j = bitAt src j := by
  rw [bitAt, bitAt, List.getElem?_append_left hj]

/-- After the first `k` bits comes what follows them. -/
theorem getElem?_take_end {bits : List Bool} (after : List Nat) {k : Nat} (hk : k < bits.length) :
    ((bits.take k).map bitByte ++ after)[k]? = after[0]? := by
  have hlen : ((bits.take k).map bitByte).length = k := by rw [List.length_map, List.length_take_of_le hk.le]
  rw [List.getElem?_append_right hlen.le, hlen, Nat.sub_self]

/-- A stream cut off after `k` bits, and what may then follow. -/
theorem breaksAt_take (bits : List Bool) (after : List Nat) {k : Nat} (hk : k < bits.length) {e : ErrCode × Nat}
    (he : bitAt ((bits.take k).map bitByte ++ after) k = .error e) :
    BreaksAt (bits.map bitByte) ((bits.take k).map bitByte ++ after) k e where
  stops := he
  same j hj := by
    rw [bitAt_append_left (by simp; omega), bitAt, bitAt, List.map_take, List.getElem?_take_of_lt hj]

/-- A stream of any input is decoded, with room for it (44_huffman.md R269). -/
theorem hufDecode_hufStream {s after : List Nat} {cap : Nat} (hs : ∀ v ∈ s, v ≤ 256) (hcap : s.length ≤ cap) :
    hufDecode ((hufStream s).map bitByte ++ after) cap = .ok (s, (hufStream s).length) :=
  huffmanRoundTrip.2 s after cap hs hcap

theorem hufDecode_cut {s after : List Nat} {cap k : Nat} {e : ErrCode × Nat} (hs : ∀ v ∈ s, v ≤ 256) (hcap : s.length ≤ cap)
    (hk : k < (hufStream s).length) (he : bitAt (((hufStream s).take k).map bitByte ++ after) k = .error e) :
    hufDecode (((hufStream s).take k).map bitByte ++ after) cap = .error e := by
  refine (breaksAt_take _ after hk he).hufDecode_eq (by simpa using hufDecode_hufStream (after := []) hs hcap) hk ?_
  simp
  omega

/-! ## Too many symbols -/

/-- More symbols than there is room for end the payload at the first one too many (44_huffman.md R266). -/
theorem decodePayload_overflow {src : List Nat} {t : Tree} {cap fuel pos n : Nat} {s : List Nat}
    (hs : ∀ v ∈ s, v ∈ treeSymbols t ∧ v ≠ eos) (hn : n ≤ cap) (hcap : cap < n + s.length) (hfuel : s.length ≤ fuel)
    (h : BitsAt src pos (s.flatMap (codeOf t))) : decodePayload src t cap fuel pos n = .error (.overflow, cap) := by
  induction s generalizing fuel pos n with
  | nil => simp at hcap; omega
  | cons v s ih =>
    rw [List.length_cons] at hcap hfuel
    obtain ⟨fuel, rfl⟩ : ∃ f, fuel = f + 1 := ⟨fuel - 1, by omega⟩
    obtain ⟨⟨hv, hne⟩, hs⟩ := List.forall_mem_cons.1 hs
    rw [List.flatMap_cons, bitsAt_append] at h
    rw [decodePayload, decodeSymbol_codeOf hv h.1]
    simp only [if_neg hne]
    by_cases hfull : n = cap
    · rw [if_pos hfull]
    · simp only [if_neg hfull, ih hs (show n + 1 ≤ cap by omega) (by omega) (show s.length ≤ fuel by omega) h.2]

theorem hufDecode_overflow {s after : List Nat} {cap : Nat} (hs : ∀ v ∈ s, v ≤ 256) (hcap : cap < s.length) :
    hufDecode ((hufStream s).map bitByte ++ after) cap = .error (.overflow, cap) := by
  obtain ⟨hnd, hle, -, hmem⟩ := buildTree_leaves hs
  have hbits := bitsAt_zero (hufStream s) after
  have hlen : s.length ≤ ((hufStream s).map bitByte ++ after).length := by
    have := length_le_flatMap_codeOf fun v hv => (hmem v hv).1
    simp only [hufStream, List.length_append, List.length_map]
    omega
  rw [hufStream, List.append_assoc, bitsAt_append, Nat.zero_add, bitsAt_append, ← List.append_assoc] at hbits
  have hparse := parseTree_header hnd hle hbits.1
  simp only [hufDecode]
  rw [← hufStream] at hbits hparse
  rw [hparse]
  exact decodePayload_overflow hmem (Nat.zero_le _) (by omega) (by omega) hbits.2.1

/-! ## Bad codes and headers -/

/-- In a degenerate tree a `1` is no code, after any number of the tree's symbol (44_huffman.md R266). -/
theorem decodePayload_badCode {src : List Nat} {v cap fuel pos n m : Nat} (hv : v = eos → m = 0) (hcap : n + m ≤ cap)
    (hfuel : m < fuel) (h : BitsAt src pos (List.replicate m false ++ [true])) :
    decodePayload src (.leaf v) cap fuel pos n = .error (.badCode, pos + m) := by
  induction m generalizing fuel pos n with
  | zero =>
    obtain ⟨fuel, rfl⟩ : ∃ f, fuel = f + 1 := ⟨fuel - 1, by omega⟩
    simp [decodePayload, decodeSymbol, h.1]
  | succ m ih =>
    obtain ⟨fuel, rfl⟩ : ∃ f, fuel = f + 1 := ⟨fuel - 1, by omega⟩
    have hne : v ≠ eos := fun heq => by simpa using hv heq
    have hrec := ih (fuel := fuel) (n := n + 1) (fun heq => absurd heq hne) (by omega) (by omega) h.2
    simp only [decodePayload, decodeSymbol, h.1, if_neg hne, if_neg (show n ≠ cap by omega), hrec]
    rw [Nat.add_assoc, Nat.add_comm 1]

theorem hufDecode_badCode {v m cap : Nat} (after : List Nat) (hv : v ≤ 257) (hm : v = eos → m = 0) (hcap : m ≤ cap) :
    hufDecode ((serialize (.leaf v)).map bitByte ++ List.replicate m 0 ++ 1 :: after) cap = .error (.badCode, 10 + m) := by
  have hsrc : (serialize (.leaf v)).map bitByte ++ List.replicate m 0 ++ 1 :: after =
      (serialize (.leaf v) ++ (List.replicate m false ++ [true])).map bitByte ++ after := by simp [bitByte]
  rw [hsrc]
  have hbits := bitsAt_zero (serialize (.leaf v) ++ (List.replicate m false ++ [true])) after
  have hlen : m < ((serialize (.leaf v) ++ (List.replicate m false ++ [true])).map bitByte ++ after).length + 1 := by
    simp
    omega
  generalize (serialize (.leaf v) ++ (List.replicate m false ++ [true])).map bitByte ++ after = src at hbits hlen ⊢
  rw [bitsAt_append, Nat.zero_add, serialize_length] at hbits
  simp only [hufDecode, parseTree_leaf (st := ⟨0, []⟩) 257 hbits.1 hv (by simp)]
  exact decodePayload_badCode hm (by omega) hlen hbits.2

theorem hufDecode_bad_leaf {v cap : Nat} (after : List Nat) (hv : 257 < v) (hv' : v < 512) :
    hufDecode ((serialize (.leaf v)).map bitByte ++ after) cap = .error (.badHdr, 0) := by
  simp only [hufDecode, parseTree_bad_leaf (st := ⟨0, []⟩) 257 (bitsAt_zero _ after) hv' (.inl hv)]

theorem hufDecode_bad_right_leaf {left : Tree} {v cap : Nat} (after : List Nat) (hnd : (treeSymbols left).Nodup)
    (hle : ∀ u ∈ treeSymbols left, u ≤ 257) (hlen : (treeSymbols left).length ≤ 257) (hv : v < 512)
    (hbad : 257 < v ∨ v ∈ treeSymbols left) :
    hufDecode ((serialize (.node left (.leaf v))).map bitByte ++ after) cap = .error (.badHdr, 1 + (serialize left).length) := by
  obtain ⟨htag, hrest⟩ := bitsAt_zero (serialize (.node left (.leaf v))) after
  obtain ⟨hleft, hright⟩ := bitsAt_append.1 hrest
  generalize (serialize (.node left (.leaf v))).map bitByte ++ after = src at htag hleft hright ⊢
  have hl := parseTree_serialize (fuel := 257) (st := ⟨1, []⟩) hleft hlen (by simpa using (by omega)) hle (by simpa using hnd)
  have hr := parseTree_bad_leaf (st := ParseState.after ⟨1, []⟩ left) 256 hright hv
    (by simpa [ParseState.after] using hbad)
  simp only [Nat.zero_add, Nat.reduceAdd] at hl hr
  rw [hufDecode, parseTree, htag]
  simp only [Nat.zero_add, hl, hr]
  rfl

/-- The 258th internal node on a path is refused (44_huffman.md R265). -/
theorem parseTree_too_deep {src : List Nat} {j d : Nat} (hj : j + d = 257) (leaves : List Nat)
    (h : BitsAt src d (List.replicate (j + 1) false)) :
    parseTree src (j + 1) d ⟨d, leaves⟩ = .error (.badHdr, 257) := by
  induction j generalizing d with
  | zero =>
    obtain rfl : d = 257 := by omega
    simp [parseTree, h.1]
  | succ j ih =>
    rw [parseTree, h.1]
    simp only [if_neg (show ¬ 257 < d + 1 by omega), ih (d := d + 1) (by omega) h.2]

theorem hufDecode_too_deep (cap : Nat) (after : List Nat) :
    hufDecode ((List.replicate 258 false).map bitByte ++ after) cap = .error (.badHdr, 257) := by
  simp only [hufDecode, parseTree_too_deep (j := 257) (d := 0) rfl [] (bitsAt_zero _ after)]

/-- Settles O60: a stream that breaks off is decoded up to the break, and each of the other faults is met by the step that
checks for it. -/
theorem hufDecReportsTheFirstFault : Obligations.HufDecReportsTheFirstFault := by
  refine ⟨fun s cap k hs hcap hk => ⟨?_, fun b after hb => ?_⟩, fun s after cap hs hcap => hufDecode_overflow hs hcap,
    fun v m cap after hv hm hcap => ?_, fun v cap after hv hv' => hufDecode_bad_leaf after hv hv',
    fun left v cap after hnd hle hlen hv hbad => hufDecode_bad_right_leaf after hnd hle hlen hv hbad,
    fun cap after => ?_⟩
  · have hcut := hufDecode_cut (after := []) hs hcap hk (bitAt_eq_trunc (getElem?_take_end [] hk))
    rw [List.append_nil] at hcut
    exact hcut
  · obtain ⟨b, rfl⟩ : ∃ c, b = c + 2 := ⟨b - 2, by omega⟩
    exact hufDecode_cut hs hcap hk (bitAt_eq_badBit (getElem?_take_end _ hk))
  · exact hufDecode_badCode after hv hm hcap
  · have hdeep := hufDecode_too_deep cap after
    rw [List.map_replicate] at hdeep
    exact hdeep

end Sys2Proof.Machine
end

section
/-! The proof that packing and unpacking are inverse (45_bitstream.md R300 to R302). -/

namespace Sys2Proof.Machine

/-- Bit `7 - j` of a byte is the `j`-th of the bits it was made of, absent ones being 0 (30_encoding.md R108). -/
theorem byteOfBits_digit {bits : List Nat} (hbits : ∀ b ∈ bits, b ≤ 1) {j : Nat} (hj : j < 8) :
    byteOfBits bits / 2 ^ (7 - j) % 2 = bits.getD j 0 := by
  have hle : ∀ i, bits.getD i 0 ≤ 1 := fun i => by
    rw [List.getD_eq_getElem?_getD]
    cases h : bits[i]? with
    | none => simp
    | some b => exact hbits b (List.mem_of_getElem? h)
  have hbyte : byteOfBits bits = bits.getD 0 0 * 128 + bits.getD 1 0 * 64 + bits.getD 2 0 * 32 + bits.getD 3 0 * 16 +
      bits.getD 4 0 * 8 + bits.getD 5 0 * 4 + bits.getD 6 0 * 2 + bits.getD 7 0 := by
    simp [byteOfBits, List.range_succ]
  have h0 := hle 0
  have h1 := hle 1
  have h2 := hle 2
  have h3 := hle 3
  have h4 := hle 4
  have h5 := hle 5
  have h6 := hle 6
  have h7 := hle 7
  rw [hbyte]
  interval_cases j <;> simp only [Nat.reduceSub, Nat.reducePow] <;> omega

theorem bitsOfByte_getElem? (y : Nat) {q : Nat} (hq : q < 8) : (bitsOfByte y)[q]? = some (y / 2 ^ (7 - q) % 2) := by
  simp [bitsOfByte, hq]

theorem unpackBytes_cons (y : Nat) (ys : List Nat) : unpackBytes (y :: ys) = bitsOfByte y ++ unpackBytes ys := rfl

/-- Bit `8k + q` of a byte sequence is bit `7 - q` of byte `k` (45_bitstream.md R301). -/
theorem unpackBytes_getElem? {ys : List Nat} {k y q : Nat} (hk : ys[k]? = some y) (hq : q < 8) :
    (unpackBytes ys)[8 * k + q]? = some (y / 2 ^ (7 - q) % 2) := by
  induction ys generalizing k with
  | nil => simp at hk
  | cons z ys ih =>
    rw [unpackBytes_cons]
    cases k with
    | zero =>
      obtain rfl : z = y := by simpa using hk
      rw [List.getElem?_append_left (by rw [bitsOfByte_length]; omega), Nat.mul_zero, Nat.zero_add, bitsOfByte_getElem? _ hq]
    | succ k =>
      rw [List.getElem?_append_right (by rw [bitsOfByte_length]; omega), bitsOfByte_length,
        show 8 * (k + 1) + q - 8 = 8 * k + q by omega]
      exact ih (by simpa using hk)

theorem packBits_getElem? (bits : List Nat) {k m : Nat} (hk : k < m) :
    (packBits bits m)[k]? = some (byteOfBits ((bits.drop (8 * k)).take 8)) := by
  simp [packBits, hk]

/-- Bit `7 - q` of packed byte `k` is bit `8k + q` of the sequence, or 0 past its end (30_encoding.md R108). -/
theorem packed_digit {bits : List Nat} (hbits : ∀ b ∈ bits, b ≤ 1) (k : Nat) {q : Nat} (hq : q < 8) :
    byteOfBits ((bits.drop (8 * k)).take 8) / 2 ^ (7 - q) % 2 = bits.getD (8 * k + q) 0 := by
  rw [byteOfBits_digit (fun b hb => hbits b (List.mem_of_mem_drop (List.mem_of_mem_take hb))) hq,
    List.getD_eq_getElem?_getD, List.getD_eq_getElem?_getD, List.getElem?_take_of_lt hq, List.getElem?_drop]

theorem unpackBytes_packBits {bits : List Nat} (hbits : ∀ b ∈ bits, b ≤ 1) {m : Nat} (hm : bits.length ≤ 8 * m) :
    unpackBytes (packBits bits m) = bits ++ List.replicate (8 * m - bits.length) 0 := by
  apply List.ext_getElem?
  intro i
  obtain hi | hi := Nat.lt_or_ge i (8 * m)
  · obtain ⟨k, q, hq, rfl⟩ : ∃ k q, q < 8 ∧ i = 8 * k + q := ⟨i / 8, i % 8, by omega, by omega⟩
    rw [unpackBytes_getElem? (packBits_getElem? bits (by omega)) hq, packed_digit hbits k hq, List.getD_eq_getElem?_getD]
    obtain hlt | hge := Nat.lt_or_ge (8 * k + q) bits.length
    · simp [List.getElem?_append_left hlt, hlt]
    · rw [List.getElem?_append_right hge, List.getElem?_eq_none hge, List.getElem?_replicate, if_pos (by omega)]
      rfl
  · rw [List.getElem?_eq_none (by simpa using hi), List.getElem?_eq_none (by simp; omega)]

theorem byteOfBits_bitsOfByte {y : Nat} (hy : y ≤ 255) : byteOfBits (bitsOfByte y) = y := by
  simp [byteOfBits, bitsOfByte, List.range_succ]
  omega

theorem packBits_append {as : List Nat} (has : as.length = 8) (bs : List Nat) (m : Nat) :
    packBits (as ++ bs) (m + 1) = byteOfBits as :: packBits bs m := by
  rw [packBits, List.range_succ_eq_map, List.map_cons, List.map_map, Nat.mul_zero, List.drop_zero, List.take_left' has]
  refine congrArg (_ :: ·) (List.map_congr_left fun k _ => ?_)
  rw [Function.comp, Nat.mul_succ, Nat.add_comm, ← List.drop_drop, List.drop_left' has]

theorem packBits_unpackBytes {ys : List Nat} (hys : ∀ y ∈ ys, y ≤ 255) : packBits (unpackBytes ys) ys.length = ys := by
  induction ys with
  | nil => rfl
  | cons y ys ih =>
    obtain ⟨hy, hys⟩ := List.forall_mem_cons.1 hys
    rw [unpackBytes_cons, List.length_cons, packBits_append (bitsOfByte_length y), byteOfBits_bitsOfByte hy, ih hys]

/-- Settles O55: each packed byte has the digits it was made of, and each eight digits make their byte. -/
theorem packAndUnpackAreInverse : Obligations.PackAndUnpackAreInverse :=
  ⟨fun _ hbits => unpackBytes_packBits hbits (by omega), fun _ hys => packBits_unpackBytes hys⟩

end Sys2Proof.Machine
end

section
/-! What an undisturbed command does: the outcome of its `PreCheck`, an error of its own checks, or its output
(40_command.md R143 to R149). The obligations on `PreCheck` follow. -/

namespace Sys2Proof.Machine

/-! ## The completion of an undisturbed command -/

theorem exec_undisturbed {i : Instr} {s : State} {r : Running} (h : Undisturbed i s r) :
    exec i s = .next (applyResult i r.latch (execResult i (commandBody i) s.params r.latch s.lmem) s) := by
  obtain ⟨hs, -, hsrc, hdst⟩ := h
  rw [exec_busy hs, completion_undisturbed hsrc hdst]

/-- An error of class P leaves LMEM alone (60_exceptions.md R323). -/
theorem applyResult_errorP {i : Instr} {l : Latch} {e : ErrCode} {info : Nat} (s : State) (he : errIsW e = false) :
    applyResult i l (.error (e, info)) s = completeErr e info s := by
  simp [applyResult, he]

/-- An error is recorded with its code; of class P it leaves LMEM alone, of class W it changes only `DST`. -/
theorem applyResult_error (i : Instr) (l : Latch) (e : ErrCode) (info : Nat) (s : State) :
    Failed s (applyResult i l (.error (e, info)) s) (errCodeByte e) info ∧
      (errIsW e = false → (applyResult i l (.error (e, info)) s).lmem = s.lmem) ∧
      ∀ o, inLatchedDst l o = false → (applyResult i l (.error (e, info)) s).lmem.read o = s.lmem.read o := by
  cases he : errIsW e with
  | false =>
    rw [applyResult_errorP s he]
    exact ⟨rfl, fun _ => rfl, fun _ _ => rfl⟩
  | true =>
    have happly : applyResult i l (.error (e, info)) s = completeErr e info (scrambleDst l s) := by simp [applyResult, he]
    rw [happly]
    exact ⟨rfl, fun h => Bool.noConfusion h, fun o ho =>
      (scrambleDst_writesOnly l s).elsewhere o fun hw => by simp [ho] at hw⟩

/-- The bytes that the `PutElem` calls of a success leave (40_command.md R149). -/
theorem wrote_putElems {m : Memory} (hm : m.wf = true) (f : Fmt) (base : Nat) (vs : List Nat) :
    Wrote m (putElems f base 0 vs m) f base vs := by
  refine ⟨fun i hi => by simpa using elem_putElems hm f base vs 0 hi, fun o ho => ?_⟩
  refine (putElems_writesOnly f base 0 vs m).elsewhere o fun h => ?_
  simp only [Nat.mul_zero, Nat.add_zero, Nat.zero_add] at h
  omega

section
variable {i : Instr} {s : State} {r : Running} (h : Undisturbed i s r)
include h

theorem exec_preCheck_error {e : ErrCode} {info : Nat} (hpre : preCheck s.params i r.latch = some (e, info)) :
    exec i s = .next (completeErr e info s) := by
  rw [exec_undisturbed h, execResult_fail hpre, applyResult_errorP s (preCheck_isP hpre)]

/-- An error of `PreCheck` is recorded and leaves LMEM unchanged (40_command.md R147). -/
theorem exec_reports_preCheck {e : ErrCode} {info : Nat} (hpre : preCheck s.params i r.latch = some (e, info)) :
    ∃ t, exec i s = .next t ∧ Failed s t (errCodeByte e) info ∧ t.lmem = s.lmem :=
  ⟨_, exec_preCheck_error h hpre, rfl, rfl⟩

/-- An error of the command's own checks is recorded; of class W it changes at most `DST` (60_exceptions.md R323). -/
theorem exec_reports_body {e : ErrCode} {info : Nat} (hpre : preCheck s.params i r.latch = none)
    (hbody : commandBody i r.latch s.lmem = .error (e, info)) :
    ∃ t, exec i s = .next t ∧ Failed s t (errCodeByte e) info ∧ (errIsW e = false → t.lmem = s.lmem) ∧
      ∀ o, inLatchedDst r.latch o = false → t.lmem.read o = s.lmem.read o := by
  refine ⟨_, exec_undisturbed h, ?_⟩
  rw [execResult_pass hpre, hbody]
  exact applyResult_error i r.latch e info s

/-- The same, for statements that say nothing of LMEM. -/
theorem exec_reports_failed {e : ErrCode} {info : Nat} (hpre : preCheck s.params i r.latch = none)
    (hbody : commandBody i r.latch s.lmem = .error (e, info)) :
    ∃ t, exec i s = .next t ∧ Failed s t (errCodeByte e) info := by
  obtain ⟨t, ht, hfailed, -⟩ := exec_reports_body h hpre hbody
  exact ⟨t, ht, hfailed⟩

/-- The same, for statements about the bytes outside `DST`. -/
theorem exec_reports_outside {e : ErrCode} {info : Nat} (hpre : preCheck s.params i r.latch = none)
    (hbody : commandBody i r.latch s.lmem = .error (e, info)) :
    ∃ t, exec i s = .next t ∧ Failed s t (errCodeByte e) info ∧
      ∀ o, inLatchedDst r.latch o = false → t.lmem.read o = s.lmem.read o := by
  obtain ⟨t, ht, hfailed, -, hout⟩ := exec_reports_body h hpre hbody
  exact ⟨t, ht, hfailed, hout⟩

/-- A success reports its results and writes its values into `DST` and nothing else (40_command.md R145, R149). -/
theorem exec_succeeds {out : Output} {f : Fmt} (hm : s.lmem.wf = true) (hf : dstFmt i = some f)
    (hpre : preCheck s.params i r.latch = none) (hbody : commandBody i r.latch s.lmem = .ok out) :
    ∃ t, exec i s = .next t ∧ Succeeded s t out.r0 out.r1 ∧
      Wrote s.lmem t.lmem f r.latch.args.dstAddr.toNat out.values := by
  refine ⟨_, exec_undisturbed h, ?_⟩
  rw [execResult_pass hpre, hbody]
  simp only [applyResult, writeOutput, hf]
  exact ⟨rfl, wrote_putElems hm f _ _⟩

end

/-- Settles O19: the errors of `PreCheck` are all of class P. -/
theorem preCheckErrorLeavesMemoryUnchanged : Obligations.PreCheckErrorLeavesMemoryUnchanged := by
  intro i s r e info h hpre
  exact ⟨preCheck_isP hpre, exec_reports_preCheck h hpre⟩

/-- Settles O20: class W makes `DST` unspecified, class P changes nothing. -/
theorem workErrorChangesOnlyTheDestination : Obligations.WorkErrorChangesOnlyTheDestination := by
  intro i s r e info h hpre hbody
  exact exec_reports_body h hpre hbody

/-! ## The steps of `PreCheck` -/

theorem firstFailing_nil : firstFailing [] = none := rfl

theorem firstFailing_cons (c : Check) (cs : List Check) :
    firstFailing (c :: cs) = if c.fails then some (c.code, c.info) else firstFailing cs := by
  cases hc : c.fails <;> simp [firstFailing, hc]

/-- `PreCheck` reports the first of its steps that fails (40_command.md R147). -/
theorem preCheck_eq_or (p : Params) (i : Instr) (l : Latch) :
    preCheck p i l = ((((((((firstFailing [checkOp l.cmd]).or (firstFailing (checkLimits p i l.args ++ checkLength i l.args))).or
      (firstFailing (checkRegion p 0 (src0Region i l.args)))).or (firstFailing (checkRegion p 1 (src1Region i l.args)))).or
      (firstFailing (checkRegion p 2 (dstRegion i l.args)))).or
      (firstFailing (checkOverlap 0 (dstRegion i l.args) (src0Region i l.args)))).or
      (firstFailing (checkOverlap 1 (dstRegion i l.args) (src1Region i l.args)))).or
      (firstFailing (checkCapacity i l.args))).or (firstFailing (checkSeed i l)) := by
  simp only [preCheck, preChecks, firstFailing_append, Option.or_assoc]

/-- Step 1 passes for every command of the map (40_command.md R147). -/
theorem checkOp_passes {l : Latch} {i : Instr} (h : l.cmd = encode i) : firstFailing [checkOp l.cmd] = none := by
  rw [h]
  cases i <;> rfl

/-- Step 4 passes for a region that fits, and for one that is not there. -/
theorem checkRegion_passes {p : Params} {id : Nat} {g : Option Region} (h : ∀ r, g = some r → RegionFits p r) :
    firstFailing (checkRegion p id g) = none := by
  cases g with
  | none => rfl
  | some g =>
    obtain hzero | ⟨halign, hrange⟩ := h g rfl
    · simp [checkRegion, firstFailing_cons, firstFailing_nil, hzero]
    · simp [checkRegion, firstFailing_cons, firstFailing_nil, halign, hrange]

/-- Step 4 reports a region that is not aligned (20_memory.md R84). -/
theorem checkRegion_align {p : Params} {id : Nat} {g : Region} (hsize : g.bytes ≠ 0) (h : g.addr % fmtSize g.fmt ≠ 0) :
    firstFailing (checkRegion p id (some g)) = some (.align, id) := by
  simp [checkRegion, firstFailing_cons, hsize, h]

/-- Step 4 reports an aligned region that leaves LMEM (20_memory.md R85). -/
theorem checkRegion_range {p : Params} {id : Nat} {g : Region} (hsize : g.bytes ≠ 0) (halign : g.addr % fmtSize g.fmt = 0)
    (h : p.lmemBytes < g.addr + g.bytes) : firstFailing (checkRegion p id (some g)) = some (.range, id) := by
  simp [checkRegion, firstFailing_cons, hsize, halign, h]

/-- The overlap test of 20_memory.md R86, as a condition on the two regions. -/
theorem overlaps_eq_false_iff {d g : Region} : d.overlaps g = false ↔ RegionsApart d g := by
  simp only [Region.overlaps, Bool.and_eq_false_iff, bne_eq_false_iff_eq, decide_eq_false_iff_not, Nat.not_lt]
  omega

/-- Step 5 passes where `DST` and the source lie apart, and where one is not there. -/
theorem checkOverlap_passes {id : Nat} {dst src : Option Region}
    (h : ∀ d g, dst = some d → src = some g → RegionsApart d g) : firstFailing (checkOverlap id dst src) = none := by
  cases dst with
  | none => rfl
  | some d =>
    cases src with
    | none => rfl
    | some g => simp [checkOverlap, firstFailing_cons, firstFailing_nil, overlaps_eq_false_iff.2 (h d g rfl rfl)]

/-- Step 5 reports a `DST` over a source (20_memory.md R86). -/
theorem checkOverlap_overlap {id : Nat} {d g : Region} (h : ¬ RegionsApart d g) :
    firstFailing (checkOverlap id (some d) (some g)) = some (.overlap, id) := by
  have : d.overlaps g = true := by simpa using overlaps_eq_false_iff.not.2 h
  simp [checkOverlap, firstFailing_cons, this]

/-- Step 6 passes where `dst_cap` is what the command needs, or it needs nothing. -/
theorem checkCapacity_passes {i : Instr} {a : Args} (h : ∀ req, requiredCap i a = some req → req ≤ a.dstCap.toNat) :
    firstFailing (checkCapacity i a) = none := by
  unfold checkCapacity
  cases hr : requiredCap i a with
  | none => rfl
  | some req => simp [firstFailing_cons, firstFailing_nil, h req hr]

/-- Step 6 reports what is required (40_command.md R147). -/
theorem checkCapacity_short {i : Instr} {a : Args} {req : Nat} (hreq : requiredCap i a = some req)
    (h : a.dstCap.toNat < req) : firstFailing (checkCapacity i a) = some (.capacity, req) := by
  simp [checkCapacity, hreq, firstFailing_cons, h]

theorem firstFailing_passes {cs : List Check} (h : ∀ c ∈ cs, c.fails = false) : firstFailing cs = none :=
  (firstFailing_eq_none_iff cs).2 h

/-- Settles O21: the limits and the length relation are the steps after the word itself. -/
theorem lengthAboveLimitIsReportedFirst : Obligations.LengthAboveLimitIsReportedFirst := by
  intro i s r h
  have hop := checkOp_passes h.2.1
  have report : ∀ {e info}, firstFailing (checkLimits s.params i r.latch.args ++ checkLength i r.latch.args) = some (e, info) →
      ∃ t, exec i s = .next t ∧ Failed s t (errCodeByte e) info ∧ t.lmem = s.lmem := fun hfirst =>
    exec_reports_preCheck h (by rw [preCheck_eq_or, hop, hfirst]; rfl)
  refine ⟨fun hlimit => report (e := .limit) ?_, fun hi hn halpha => report (e := .limit) ?_,
    fun hi hn hlen => report (e := .badLen) ?_⟩
  · obtain ⟨rfl | rfl, hn⟩ | ⟨rfl, hn⟩ | ⟨rfl, hn⟩ := hlimit <;> simp [checkLimits, firstFailing_cons, hn]
  · subst hi
    simp [checkLimits, checkLength, firstFailing_cons, Nat.not_lt.2 hn, halpha]
  · subst hi
    simp [checkLimits, checkLength, firstFailing_cons, Nat.not_lt.2 hn, hlen]

/-- Settles O22: a step is reported when those before it pass. -/
theorem overlapWithSourceIsReported : Obligations.OverlapWithSourceIsReported := by
  intro i s r h
  dsimp only
  intro hlimits
  have hop := checkOp_passes h.2.1
  have hlim := firstFailing_passes hlimits
  have report : ∀ {e info}, preCheck s.params i r.latch = some (e, info) →
      ∃ t, exec i s = .next t ∧ Failed s t (errCodeByte e) info ∧ t.lmem = s.lmem := fun hpre => exec_reports_preCheck h hpre
  refine ⟨fun id hid g hg hsize hbefore => ?_, fun hfits src dst hsrc hdst => ?_⟩
  · have hsteps : ∀ {e}, firstFailing (checkRegion s.params id (some g)) = some (e, id) →
        preCheck s.params i r.latch = some (e, id) := by
      intro e hfirst
      rw [preCheck_eq_or, hop, hlim]
      obtain rfl | rfl | rfl : id = 0 ∨ id = 1 ∨ id = 2 := by omega
      · have hg : src0Region i r.latch.args = some g := hg
        rw [hg, hfirst]
        rfl
      · have hg : src1Region i r.latch.args = some g := hg
        have fits0 : ∀ g, src0Region i r.latch.args = some g → RegionFits s.params g := hbefore 0 (by omega)
        rw [checkRegion_passes fits0, hg, hfirst]
        rfl
      · have hg : dstRegion i r.latch.args = some g := hg
        have fits0 : ∀ g, src0Region i r.latch.args = some g → RegionFits s.params g := hbefore 0 (by omega)
        have fits1 : ∀ g, src1Region i r.latch.args = some g → RegionFits s.params g := hbefore 1 (by omega)
        rw [checkRegion_passes fits0, checkRegion_passes fits1, hg, hfirst]
        rfl
    exact ⟨fun halign => report (e := .align) (hsteps (checkRegion_align hsize halign)),
      fun halign hrange => report (e := .range) (hsteps (checkRegion_range hsize halign hrange))⟩
  · have fits0 : ∀ g, src0Region i r.latch.args = some g → RegionFits s.params g := hfits 0 (by omega)
    have fits1 : ∀ g, src1Region i r.latch.args = some g → RegionFits s.params g := hfits 1 (by omega)
    have fits2 : ∀ g, dstRegion i r.latch.args = some g → RegionFits s.params g := hfits 2 (by omega)
    have hsrc : src0Region i r.latch.args = some src := hsrc
    have hdst : dstRegion i r.latch.args = some dst := hdst
    have hregions : preCheck s.params i r.latch =
        (((firstFailing (checkOverlap 0 (some dst) (some src))).or
          (firstFailing (checkOverlap 1 (some dst) (src1Region i r.latch.args)))).or
          (firstFailing (checkCapacity i r.latch.args))).or (firstFailing (checkSeed i r.latch)) := by
      rw [preCheck_eq_or, hop, hlim, checkRegion_passes fits0, checkRegion_passes fits1, checkRegion_passes fits2, hdst, hsrc]
      rfl
    have hapart0 : RegionsApart dst src → firstFailing (checkOverlap 0 (some dst) (some src)) = none := fun hapart =>
      checkOverlap_passes fun d g hd hg => by cases hd; cases hg; exact hapart
    refine ⟨fun hover => report (e := .overlap) ?_, fun hapart src1 hsrc1 hover => report (e := .overlap) ?_,
      fun hapart hapart1 req hreq hshort => report (e := .capacity) ?_⟩
    · rw [hregions, checkOverlap_overlap hover]
      rfl
    · have hsrc1 : src1Region i r.latch.args = some src1 := hsrc1
      rw [hregions, hapart0 hapart, hsrc1, checkOverlap_overlap hover]
      rfl
    · have hpass1 : firstFailing (checkOverlap 1 (some dst) (src1Region i r.latch.args)) = none :=
        checkOverlap_passes fun d g hd hg => by cases hd; exact hapart1 g hg
      have hcap : requiredCap i r.latch.args = some req := by
        obtain ⟨rfl | rfl | rfl, rfl⟩ | ⟨rfl, rfl⟩ | ⟨rfl, rfl⟩ | ⟨rfl, rfl⟩ | ⟨rfl, rfl⟩ | ⟨rfl, rfl⟩ := hreq <;> rfl
      rw [hregions, hapart0 hapart, hpass1, checkCapacity_short hcap hshort]
      rfl

end Sys2Proof.Machine
end

section
/-! The errors of the commands' own checks (40_command.md R143), and `BADSEED`. -/

namespace Sys2Proof.Machine

/-! ## Scans for the first bad element -/

/-- The scan of a whole list finds the lowest index that is bad given the elements before it (60_exceptions.md R324). -/
theorem firstBad_zero_eq_some_iff {α : Type} (bad : List α → α → Bool) (xs : List α) (j : Nat) :
    firstBad bad [] 0 xs = some j ↔ ∃ h : j < xs.length, bad (xs.take j).reverse xs[j] = true ∧
      ∀ q (hq : q < j), bad (xs.take q).reverse xs[q] = false := by
  simp [firstBad_eq_some_iff]

/-- The elements before `j` that the scan has seen. -/
theorem contains_take_reverse_iff {α : Type} [BEq α] [LawfulBEq α] {xs : List α} {j : Nat} (hj : j ≤ xs.length) (v : α) :
    (xs.take j).reverse.contains v = true ↔ ∃ q, ∃ hq : q < j, xs[q] = v := by
  rw [List.contains_iff_mem, List.mem_reverse, List.mem_take_iff_getElem]
  simp [Nat.min_eq_left hj]

theorem firstAbove_elems {top j n : Nat} {f : Fmt} {m : Memory} {base : Nat} (hj : j < n)
    (habove : top < elem f m base j) (hbefore : ∀ q < j, elem f m base q ≤ top) :
    firstAbove top (elems f m base n) = some j := by
  rw [firstAbove_eq_some_iff]
  exact ⟨by simpa using hj, by simpa using habove, fun q hq => by simpa using hbefore q hq⟩

/-- An element of a one-byte format is its byte (20_memory.md R79). -/
theorem elem_byte {f : Fmt} (hf : fmtSize f = 1) (m : Memory) (base i : Nat) :
    elem f m base i = (m.read (base + i)).toNat := by
  simp [elem, hf, memRead]

/-! ## Symbols and bits out of range -/

/-- The four commands over symbols share the check of R80 (20_memory.md). -/
theorem commandBody_badSym {i : Instr} {l : Latch} {m : Memory} {j : Nat}
    (hi : i = .mtfFwd ∨ i = .mtfInv ∨ i = .hufEnc ∨ i = .bwtInv)
    (h : firstAbove sent (elems .sym16 m l.args.src0Addr.toNat l.args.src0Len.toNat) = some j) :
    commandBody i l m = .error (.badSym, j) := by
  obtain rfl | rfl | rfl | rfl := hi
  · simp only [commandBody, mtfBody, h]
  · simp only [commandBody, mtfBody, h]
  · simp only [commandBody, hufEncBody, h]
  · simp only [commandBody, bwtInvBody, h]

/-- Settles O23: the check on symbols is the first of each body, and its error is of class W. -/
theorem symbolAboveAlphabetIsReported : Obligations.SymbolAboveAlphabetIsReported := by
  intro i s r j h hi hpre hj habove hbefore
  exact exec_reports_outside h hpre (commandBody_badSym hi (firstAbove_elems hj habove hbefore))

/-- Settles O24: an element of the source is its byte, so the scan stops at the first byte above 1. -/
theorem packReportsTheFirstBadBit : Obligations.PackReportsTheFirstBadBit := by
  intro s r j h hpre hj habove hbefore
  have hfirst : firstAbove 1 (elems .bit8 s.lmem r.latch.args.src0Addr.toNat r.latch.args.src0Len.toNat) = some j :=
    firstAbove_elems hj (by rwa [elem_byte rfl]) fun q hq => by rw [elem_byte rfl]; exact hbefore q hq
  exact exec_reports_outside (e := .badBit) h hpre (by simp only [commandBody, packBody, hfirst])

/-- The scan of `BWT_FWD`: the first entry that is out of range or met before (42_bwt.md R221). -/
theorem badSaIndex_eq_some_iff (n : Nat) (sa : List Nat) (j : Nat) :
    badSaIndex n sa = some j ↔ ∃ h : j < sa.length, (n ≤ sa[j] ∨ ∃ q, ∃ hq : q < j, sa[q] = sa[j]) ∧
      ∀ q (hq : q < j), sa[q] < n ∧ ∀ q' (hq' : q' < q), sa[q'] ≠ sa[q] := by
  rw [badSaIndex, firstBad_zero_eq_some_iff]
  refine exists_congr fun h => and_congr ?_ (forall₂_congr fun q hq => ?_)
  · rw [Bool.or_eq_true, decide_eq_true_eq, contains_take_reverse_iff h.le]
  · rw [Bool.or_eq_false_iff, decide_eq_false_iff_not, Nat.not_le, ← Bool.not_eq_true,
      contains_take_reverse_iff (hq.trans h).le]
    simp

/-- Settles O25: the scan for a bad entry stops at the first that is out of range or met before. -/
theorem bwtFwdReportsTheFirstBadEntry : Obligations.BwtFwdReportsTheFirstBadEntry := by
  intro s r j h
  dsimp only
  intro hpre hj hbad hbefore
  have hfirst : badSaIndex r.latch.args.src1Len.toNat
      (elems .idx32 s.lmem r.latch.args.src1Addr.toNat r.latch.args.src1Len.toNat) = some j := by
    rw [badSaIndex_eq_some_iff]
    simpa [hj] using And.intro hbad hbefore
  exact exec_reports_outside (e := .badSa) h hpre (by simp only [commandBody, bwtFwdBody, hfirst])

/-! ## The walk of the inverse BWT -/

/-- Where the walk goes from a position; at `SENT` it ends (42_bwt.md R223). -/
def bwtStep (t : List Nat) (pos : Nat) : Nat := bwtNext t pos (t.getD pos sent)

theorem bwtWalk_succ_step (t : List Nat) (fuel pos : Nat) :
    bwtWalk t (fuel + 1) pos =
      if t.getD pos sent = sent then [] else t.getD pos sent :: bwtWalk t fuel (bwtStep t pos) := by
  cases h : t[pos]? with
  | none => simp [bwtWalk, List.getD_eq_getElem?_getD, h]
  | some v => simp [bwtWalk_succ fuel h, bwtStep, List.getD_eq_getElem?_getD, h]

/-- Symbols in ascending order, and equal ones in the order they stand in, go to ascending positions. -/
theorem bwtStep_lt {t : List Nat} {p q : Nat} (hp : t.getD p sent ≠ sent)
    (hlt : t.getD p sent < t.getD q sent ∨ t.getD p sent = t.getD q sent ∧ p < q) : bwtStep t p < bwtStep t q := by
  have hget : ∀ {i}, t.getD i sent ≠ sent → t[i]? = some (t.getD i sent) := by
    intro i hi
    rw [List.getD_eq_getElem?_getD] at hi ⊢
    cases hti : t[i]? <;> simp_all
  have hcount : ∀ {i}, t.getD i sent ≠ sent → (t.take (i + 1)).count (t.getD i sent) = (t.take i).count (t.getD i sent) + 1 := by
    intro i hi
    rw [List.take_add_one, hget hi, List.count_append]
    simp
  unfold bwtStep bwtNext
  obtain hlt | ⟨heq, hpq⟩ := hlt
  · have hp_count : (t.take p).count (t.getD p sent) < t.count (t.getD p sent) :=
      calc _ < (t.take (p + 1)).count (t.getD p sent) := by rw [hcount hp]; omega
        _ ≤ _ := (t.take_sublist _).count_le _
    have hsplit : t.countP (fun v => decide (v < t.getD p sent)) + t.count (t.getD p sent) ≤
        t.countP fun v => decide (v < t.getD q sent) := by
      rw [List.count, ← countP_and_add_countP_and _ fun v _ hv => by simp at hv; omega]
      refine List.countP_mono_left fun v _ hv => ?_
      simp only [Bool.or_eq_true, decide_eq_true_eq, beq_iff_eq] at hv ⊢
      omega
    omega
  · have hmono : (t.take (p + 1)).count (t.getD p sent) ≤ (t.take q).count (t.getD p sent) :=
      (List.take_sublist_take_left (by omega)).count_le _
    rw [hcount hp, heq] at hmono
    rw [heq]
    omega

theorem bwtStep_inj {t : List Nat} {p q : Nat} (hp : t.getD p sent ≠ sent) (hq : t.getD q sent ≠ sent)
    (h : bwtStep t p = bwtStep t q) : p = q := by
  by_contra hne
  have hcases : (t.getD p sent < t.getD q sent ∨ t.getD p sent = t.getD q sent ∧ p < q) ∨
      (t.getD q sent < t.getD p sent ∨ t.getD q sent = t.getD p sent ∧ q < p) := by omega
  obtain hlt | hlt := hcases
  · exact (bwtStep_lt hp hlt).ne h
  · exact (bwtStep_lt hq hlt).ne' h

/-- Position 0 is met only at the start. -/
theorem bwtStep_pos (t : List Nat) (pos : Nat) : 0 < bwtStep t pos := by
  unfold bwtStep bwtNext
  omega

/-- Until it meets `SENT` the walk is at different positions. -/
theorem iterate_bwtStep_inj {t : List Nat} {n : Nat} (h : ∀ i < n, t.getD ((bwtStep t)^[i] 0) sent ≠ sent) {i j : Nat}
    (hi : i < n) (hj : j < n) (heq : (bwtStep t)^[i] 0 = (bwtStep t)^[j] 0) : i = j := by
  induction i generalizing j with
  | zero =>
    cases j with
    | zero => rfl
    | succ j =>
      rw [Function.iterate_succ_apply'] at heq
      exact absurd heq (bwtStep_pos t _).ne
  | succ i ih =>
    cases j with
    | zero =>
      rw [Function.iterate_succ_apply'] at heq
      exact absurd heq (bwtStep_pos t _).ne'
    | succ j =>
      rw [Function.iterate_succ_apply', Function.iterate_succ_apply'] at heq
      exact congrArg _ (ih (by omega) (by omega) (bwtStep_inj (h i (by omega)) (h j (by omega)) heq))

/-- With a `SENT` in the string, the walk meets one in as many steps as there are positions. -/
theorem exists_bwtStep_sent {t : List Nat} (hsent : sent ∈ t) :
    ∃ k < t.length, t.getD ((bwtStep t)^[k] 0) sent = sent := by
  by_contra hnone
  have hne : ∀ i < t.length, t.getD ((bwtStep t)^[i] 0) sent ≠ sent := fun i hi heq => hnone ⟨i, hi, heq⟩
  have hidx : t.idxOf sent < t.length := List.idxOf_lt_length_iff.2 hsent
  have hcard : (Finset.range t.length).card ≤ ((Finset.range t.length).erase (t.idxOf sent)).card := by
    refine Finset.card_le_card_of_injOn (fun i => (bwtStep t)^[i] 0) (fun i hi => ?_) fun i hi j hj heq => ?_
    · have hi := hne i (by simpa using hi)
      simp only [Finset.coe_erase, Finset.coe_range, Set.mem_sdiff, Set.mem_Iio, Set.mem_singleton_iff]
      refine ⟨?_, fun heq => hi ?_⟩
      · by_contra hout
        exact hi (List.getD_eq_default _ _ (by omega))
      · rw [heq, List.getD_eq_getElem _ _ hidx, List.getElem_idxOf]
    · exact iterate_bwtStep_inj hne (by simpa using hi) (by simpa using hj) heq
  rw [Finset.card_erase_of_mem (by simpa using hidx), Finset.card_range] at hcard
  omega

/-- Once the fuel reaches the first `SENT`, the walk is what was met before it. -/
theorem bwtWalk_eq_map {t : List Nat} {k fuel pos : Nat} (hsent : t.getD ((bwtStep t)^[k] pos) sent = sent)
    (hbefore : ∀ i < k, t.getD ((bwtStep t)^[i] pos) sent ≠ sent) (hfuel : k < fuel) :
    bwtWalk t fuel pos = (List.range k).map fun i => t.getD ((bwtStep t)^[i] pos) sent := by
  induction k generalizing fuel pos with
  | zero =>
    obtain ⟨fuel, rfl⟩ : ∃ f, fuel = f + 1 := ⟨fuel - 1, by omega⟩
    exact (bwtWalk_succ_step t fuel pos).trans (if_pos hsent)
  | succ k ih =>
    obtain ⟨fuel, rfl⟩ : ∃ f, fuel = f + 1 := ⟨fuel - 1, by omega⟩
    have hhead : t.getD pos sent ≠ sent := hbefore 0 (by omega)
    rw [bwtWalk_succ_step, if_neg hhead,
      ih hsent (fun i hi => hbefore (i + 1) (by omega)) (by omega), List.range_succ_eq_map, List.map_cons, List.map_map]
    rfl

/-- As many steps as there are positions suffice for the walk (42_bwt.md R223). -/
theorem bwtWalk_fuel {t : List Nat} (hsent : sent ∈ t) {fuel : Nat} (hfuel : t.length ≤ fuel) :
    bwtWalk t fuel 0 = bwtWalk t t.length 0 := by
  have hex := exists_bwtStep_sent hsent
  obtain ⟨hk, hfind⟩ := Nat.find_spec hex
  have hbefore : ∀ i < Nat.find hex, t.getD ((bwtStep t)^[i] 0) sent ≠ sent := fun i hi heq =>
    Nat.find_min hex hi ⟨by omega, heq⟩
  rw [bwtWalk_eq_map hfind hbefore (by omega), bwtWalk_eq_map hfind hbefore hk]

/-- Settles O26: the body checks the count of `SENT` before it walks; the walk repeats no position, so the fuel
suffices by counting. -/
theorem bwtInvReportsMalformedStrings : Obligations.BwtInvReportsMalformedStrings := by
  refine ⟨fun x fuel pos v hv => bwtWalk_succ fuel hv, fun s r h => ?_⟩
  dsimp only
  intro hpre hsyms
  have hnone := (firstAbove_eq_none_iff sent _).2 hsyms
  refine ⟨fun hcount => exec_reports_failed (e := .badSent) h hpre ?_, fun hcount fuel hfuel => ?_,
    fun hcount hlen => exec_reports_failed (e := .badBwt) h hpre ?_⟩
  · simp only [commandBody, bwtInvBody, hnone]
    exact if_pos hcount
  · have hmem : sent ∈ elems .sym16 s.lmem r.latch.args.src0Addr.toNat r.latch.args.src0Len.toNat :=
      List.count_pos_iff.1 (hcount ▸ Nat.one_pos)
    have hwalk := bwtWalk_fuel hmem (fuel := fuel) (by simpa using hfuel)
    rwa [elems_length] at hwalk
  · simp only [commandBody, bwtInvBody, hnone]
    exact (if_neg (not_not.2 hcount)).trans (if_pos hlen)

/-! ## Keys and pads -/

theorem badKeyIndex_eq_some_iff (x : List Int) (k off j : Nat) :
    badKeyIndex x k off = some j ↔ ∃ h : j < x.length, ¬ (-(off : Int) ≤ x[j] ∧ x[j] ≤ k) ∧
      ∀ q (hq : q < j), -(off : Int) ≤ x[q] ∧ x[q] ≤ k := by
  rw [badKeyIndex, firstBad_zero_eq_some_iff]
  refine exists_congr fun h => and_congr ?_ (forall₂_congr fun q hq => ?_)
  · simp only [Bool.or_eq_true, decide_eq_true_eq]
    omega
  · simp only [Bool.or_eq_false_iff, decide_eq_false_iff_not]
    omega

theorem badKeyIndex_eq_none_iff (x : List Int) (k off : Nat) :
    badKeyIndex x k off = none ↔ ∀ v ∈ x, -(off : Int) ≤ v ∧ v ≤ k := by
  rw [badKeyIndex, firstBad_eq_none_iff, List.forall_mem_iff_getElem]
  refine forall₂_congr fun j hj => ?_
  simp only [Bool.or_eq_false_iff, decide_eq_false_iff_not]
  omega

/-- The keys and pads of `SA_BUILD` (41_suffix_array.md R184). -/
def keysOf (l : Latch) (m : Memory) : List Int :=
  (List.range (l.args.src0Len.toNat + 3)).map (elemI32 m l.args.src0Addr.toNat)

theorem keysOf_length (l : Latch) (m : Memory) : (keysOf l m).length = l.args.src0Len.toNat + 3 := by simp [keysOf]

theorem keysOf_getD {l : Latch} {m : Memory} {j : Nat} (hj : j < l.args.src0Len.toNat + 3) :
    (keysOf l m).getD j 0 = elemI32 m l.args.src0Addr.toNat j := by
  simp [keysOf, List.getD_eq_getElem?_getD, hj]

/-- A bad key comes before a bad pad (41_suffix_array.md R184). -/
theorem saBuildBody_badSym {l : Latch} {m : Memory} {j : Nat}
    (h : badKeyIndex (keysOf l m) l.args.arg0.toNat l.args.arg1.toNat = some j) :
    commandBody .saBuild l m = .error (.badSym, j) := by
  unfold keysOf at h
  simp only [commandBody, saBuildBody, h]

theorem saBuildBody_badPad {l : Latch} {m : Memory} {j : Nat}
    (hkeys : badKeyIndex (keysOf l m) l.args.arg0.toNat l.args.arg1.toNat = none)
    (h : badPadIndex (keysOf l m) l.args.src0Len.toNat = some j) :
    commandBody .saBuild l m = .error (.badPad, j) := by
  unfold keysOf at h hkeys
  simp only [commandBody, saBuildBody, hkeys, h]

/-- Settles O27: the body scans keys and pads for the range first, then compares the pads, then the keys with the pad. -/
theorem saBuildReportsBadKeysThenBadPads : Obligations.SaBuildReportsBadKeysThenBadPads := by
  intro s r j h hpre
  dsimp only
  set n := r.latch.args.src0Len.toNat with hn
  have hget : ∀ q < n + 3, (keysOf r.latch s.lmem).getD q 0 = elemI32 s.lmem r.latch.args.src0Addr.toNat q :=
    fun q hq => keysOf_getD hq
  refine ⟨fun hj hbad hbefore => exec_reports_failed (e := .badSym) h hpre (saBuildBody_badSym ?_), fun hinside => ?_⟩
  · rw [badKeyIndex_eq_some_iff]
    simpa [keysOf, ← hn, hj] using And.intro (not_and.1 hbad) hbefore
  have hkeys : badKeyIndex (keysOf r.latch s.lmem) r.latch.args.arg0.toNat r.latch.args.arg1.toNat = none := by
    rw [badKeyIndex_eq_none_iff]
    simpa [keysOf] using hinside
  have report : ∀ {p}, badPadIndex (keysOf r.latch s.lmem) n = some p →
      ∃ t, exec .saBuild s = .next t ∧ Failed s t 0x11 p := fun hpad =>
    exec_reports_failed (e := .badPad) h hpre (saBuildBody_badPad hkeys hpad)
  refine ⟨fun h1 => report ?_, fun h1 h2 => report ?_, fun h1 h2 hj hle hbefore => report ?_⟩
  · simp only [badPadIndex, hget n (by omega), hget (n + 1) (by omega)]
    rw [if_pos h1]
  · simp only [badPadIndex, hget n (by omega), hget (n + 1) (by omega), hget (n + 2) (by omega)]
    rw [if_neg (not_not.2 h1), if_pos h2]
  · simp only [badPadIndex, hget n (by omega), hget (n + 1) (by omega), hget (n + 2) (by omega)]
    rw [if_neg (not_not.2 h1), if_neg (not_not.2 h2), firstBad_zero_eq_some_iff]
    simpa [keysOf, ← hn, hj] using And.intro hle hbefore

/-! ## Huffman -/

/-- Settles O28: the capacity check stands before anything is written, and its error is of class P. -/
theorem hufEncReportsTheCapacityNeeded : Obligations.HufEncReportsTheCapacityNeeded := by
  intro s r h
  dsimp only
  intro hpre hsyms hcap
  have hnone := (firstAbove_eq_none_iff sent _).2 hsyms
  have hbody : commandBody .hufEnc r.latch s.lmem = .error (.capacity, (hufStream
      (elems .sym16 s.lmem r.latch.args.src0Addr.toNat r.latch.args.src0Len.toNat)).length) := by
    simp only [commandBody, hufEncBody, hnone]
    exact if_pos hcap
  obtain ⟨t, ht, hfailed, hlmem, -⟩ := exec_reports_body h hpre hbody
  exact ⟨t, ht, hfailed, hlmem rfl⟩

theorem commandBody_hufDec_error {l : Latch} {m : Memory} {e : ErrCode} {info : Nat}
    (h : hufDecode (elems .bit8 m l.args.src0Addr.toNat l.args.src0Len.toNat) l.args.dstCap.toNat = .error (e, info)) :
    commandBody .hufDec l m = .error (e, info) := by
  simp only [commandBody, hufDecBody, h]

/-- The decoder's first read is the tag of the root (44_huffman.md R265). -/
theorem hufDecode_of_first_bit_error {src : List Nat} {cap : Nat} {e : ErrCode × Nat} (h : bitAt src 0 = .error e) :
    hufDecode src cap = .error e := by
  simp only [hufDecode, parseTree, h]

/-- Settles O29: the first bit is the tag of the root, and the error of the decoder is the error of the body. -/
theorem hufDecReportsTheFirstBit : Obligations.HufDecReportsTheFirstBit := by
  intro s r h hpre
  refine ⟨fun hempty => exec_reports_failed (e := .trunc) h hpre (commandBody_hufDec_error ?_),
    fun hlen hbad => exec_reports_failed (e := .badBit) h hpre (commandBody_hufDec_error ?_),
    fun e info hdec => exec_reports_outside h hpre (commandBody_hufDec_error hdec)⟩
  · apply hufDecode_of_first_bit_error
    rw [hempty]
    exact bitAt_eq_trunc rfl
  · apply hufDecode_of_first_bit_error
    have hpos : 0 < r.latch.args.src0Len.toNat := by bv_omega
    have hfirst : (elems .bit8 s.lmem r.latch.args.src0Addr.toNat r.latch.args.src0Len.toNat)[0]? =
        some (s.lmem.read r.latch.args.src0Addr.toNat).toNat := by
      simp [elems, hpos, elem_byte (show fmtSize .bit8 = 1 from rfl)]
    obtain ⟨v, hv⟩ : ∃ v, (s.lmem.read r.latch.args.src0Addr.toNat).toNat = v + 2 := ⟨_, (Nat.sub_add_cancel hbad).symm⟩
    exact bitAt_eq_badBit (hv ▸ hfirst)

/-! ## The latched seed -/

/-- With the word legal, limits, regions and capacity in order, only the seed is left to check (40_command.md R147). -/
theorem preCheck_eq_checkSeed {p : Params} {i : Instr} {l : Latch} (hop : l.cmd = encode i)
    (hlimits : ∀ c ∈ checkLimits p i l.args ++ checkLength i l.args, c.fails = false)
    (hsrc0 : ∀ g, src0Region i l.args = some g → RegionFits p g)
    (hsrc1 : ∀ g, src1Region i l.args = some g → RegionFits p g)
    (hdst : ∀ d, dstRegion i l.args = some d → RegionFits p d)
    (hapart0 : ∀ d g, dstRegion i l.args = some d → src0Region i l.args = some g → RegionsApart d g)
    (hapart1 : ∀ d g, dstRegion i l.args = some d → src1Region i l.args = some g → RegionsApart d g)
    (hcap : ∀ req, requiredCap i l.args = some req → req ≤ l.args.dstCap.toNat) :
    preCheck p i l = firstFailing (checkSeed i l) := by
  rw [preCheck_eq_or, checkOp_passes hop, firstFailing_passes hlimits, checkRegion_passes hsrc0, checkRegion_passes hsrc1,
    checkRegion_passes hdst, checkOverlap_passes hapart0, checkOverlap_passes hapart1, checkCapacity_passes hcap]
  rfl

/-- The same for the commands with one source, under the conditions that `RegionsOk` names. -/
theorem preCheck_eq_checkSeed_of_regionsOk {p : Params} {i : Instr} {l : Latch} {src : Region} {f : Fmt} (hop : l.cmd = encode i)
    (hsrc : src0Region i l.args = some src) (hsrc1 : src1Region i l.args = none) (hf : dstFmt i = some f)
    (hregions : RegionsOk p src (dstIn f l.args))
    (hlimits : ∀ c ∈ checkLimits p i l.args ++ checkLength i l.args, c.fails = false)
    (hcap : ∀ req, requiredCap i l.args = some req → req ≤ l.args.dstCap.toNat) :
    preCheck p i l = firstFailing (checkSeed i l) := by
  obtain ⟨hfits, hdst, hapart⟩ := hregions
  have hdstRegion : dstRegion i l.args = some (dstIn f l.args) := by rw [dstRegion, hf]; rfl
  refine preCheck_eq_checkSeed hop hlimits ?_ ?_ ?_ ?_ ?_ hcap
  · rw [hsrc]
    rintro _ ⟨⟩
    exact hfits
  · simp [hsrc1]
  · rw [hdstRegion]
    rintro _ ⟨⟩
    exact hdst
  · rw [hsrc, hdstRegion]
    rintro _ _ ⟨⟩ ⟨⟩
    exact hapart
  · simp [hsrc1]

/-- The seed check finds the first index whose byte was met before (43_mtf.md R241). -/
theorem seedRepeat_eq_some_iff (seed : List Byte) (j : Nat) :
    seedRepeat seed = some j ↔ ∃ h : j < seed.length, (∃ q, ∃ hq : q < j, seed[q] = seed[j]) ∧
      ∀ k (hk : k < j) q (hq : q < k), seed[q] ≠ seed[k] := by
  rw [seedRepeat, firstBad_zero_eq_some_iff]
  refine exists_congr fun h => and_congr (contains_take_reverse_iff h.le _) (forall₂_congr fun k hk => ?_)
  rw [← Bool.not_eq_true, contains_take_reverse_iff (hk.trans h).le]
  simp

/-- Settles O30: every step of `PreCheck` before the seed passes, and the seed check finds the first repeat. -/
theorem repeatedSeedByteIsReported : Obligations.RepeatedSeedByteIsReported := by
  intro i s r j h hi
  dsimp only
  intro hregions hcap hj hrepeat hbefore
  have hget : ∀ {q} (hq : q < r.latch.seed.length), r.latch.seed.getD q 0 = r.latch.seed[q] := fun hq =>
    List.getD_eq_getElem _ _ hq
  have hseed : seedRepeat r.latch.seed = some j := by
    rw [seedRepeat_eq_some_iff]
    obtain ⟨q, hq, heq⟩ := hrepeat
    rw [hget hj, hget (hq.trans hj)] at heq
    refine ⟨hj, ⟨q, hq, heq⟩, fun k hk q hq => ?_⟩
    have hne := hbefore k hk q hq
    rwa [hget (hk.trans hj), hget (hq.trans (hk.trans hj))] at hne
  have hpre : preCheck s.params i r.latch = some (.badSeed, j) := by
    obtain rfl | rfl := hi <;>
    · rw [preCheck_eq_checkSeed_of_regionsOk h.2.1 rfl rfl rfl hregions (by simp [checkLimits, checkLength])
        (by rintro _ ⟨⟩; exact hcap)]
      simp [checkSeed, firstFailing_cons, hseed]
  exact exec_reports_preCheck (e := .badSeed) h hpre

end Sys2Proof.Machine
end

section
/-! The completion of each command whose conditions hold (40_command.md R145): `PreCheck` passes, the rule gives an output,
and the output is written. -/

namespace Sys2Proof.Machine

/-! ## `PreCheck` passes -/

/-- The commands without a seed check, with one source (40_command.md R147). -/
theorem preCheck_passes {p : Params} {i : Instr} {l : Latch} {src : Region} {f : Fmt} (hop : l.cmd = encode i)
    (hsrc : src0Region i l.args = some src) (hsrc1 : src1Region i l.args = none) (hf : dstFmt i = some f)
    (hregions : RegionsOk p src (dstIn f l.args))
    (hlimits : ∀ c ∈ checkLimits p i l.args ++ checkLength i l.args, c.fails = false)
    (hcap : ∀ req, requiredCap i l.args = some req → req ≤ l.args.dstCap.toNat) (hseed : checkSeed i l = []) :
    preCheck p i l = none := by
  rw [preCheck_eq_checkSeed_of_regionsOk hop hsrc hsrc1 hf hregions hlimits hcap, hseed]
  rfl

/-- A seed that lists no byte twice passes the seed check (43_mtf.md R241). -/
theorem seedRepeat_eq_none {seed : List Byte} (h : seed.Nodup) : seedRepeat seed = none := by
  rw [Option.eq_none_iff_forall_ne_some]
  intro j hj
  obtain ⟨hlt, ⟨q, hq, heq⟩, -⟩ := (seedRepeat_eq_some_iff seed j).1 hj
  exact hq.ne (h.getElem_inj_iff.1 heq)

theorem nodup_of_isRecencyList {seed : List Byte} (h : IsRecencyList (seed.map fun b => b.toNat)) : seed.Nodup :=
  (h.nodup_iff.2 List.nodup_range).of_map _

/-- Both MTF commands, which check the seed last (40_command.md R147 step 7). -/
theorem preCheck_mtf_passes {p : Params} {i : Instr} {l : Latch} (hi : i = .mtfFwd ∨ i = .mtfInv) (hop : l.cmd = encode i)
    (hregions : RegionsOk p ⟨.sym16, l.args.src0Addr.toNat, 2 * l.args.src0Len.toNat⟩ (dstIn .sym16 l.args))
    (hcap : l.args.src0Len.toNat ≤ l.args.dstCap.toNat) (hseed : IsRecencyList (l.seed.map fun b => b.toNat)) :
    preCheck p i l = none := by
  have hnone := seedRepeat_eq_none (nodup_of_isRecencyList hseed)
  obtain rfl | rfl := hi <;>
  · rw [preCheck_eq_checkSeed_of_regionsOk hop rfl rfl rfl hregions (by simp [checkLimits, checkLength])
      (by rintro _ ⟨⟩; exact hcap)]
    simp [checkSeed, firstFailing_cons, firstFailing_nil, hnone]

/-! ## `NOP` -/

/-- Settles O8: no check applies to `NOP`, and its body writes nothing. -/
theorem nopCompletes : Obligations.NopCompletes := by
  intro s r h
  have hpre : preCheck s.params .nop r.latch = none := by
    rw [preCheck_eq_checkSeed h.2.1] <;> simp [checkLimits, checkLength, checkSeed, src0Region, src1Region, dstRegion, dstFmt,
      requiredCap, firstFailing_nil]
  refine ⟨completeOk 0 0 s, ?_, rfl, rfl⟩
  rw [exec_undisturbed h, execResult_pass hpre]
  rfl

/-! ## Suffix arrays -/

/-- Keys and pads that meet R174 (41_suffix_array.md) pass the checks of `SA_BUILD`. -/
theorem badPadIndex_eq_none {x : List Int} {n k off : Nat} (h : Dc3Pre x n k off) : badPadIndex x n = none := by
  obtain ⟨hlen, -, hpad1, hpad2, hlow⟩ := h
  unfold badPadIndex
  rw [if_neg (not_not.2 hpad1), if_neg (not_not.2 hpad2), firstBad_eq_none_iff]
  intro j hj
  have hjn : j < n := by simp at hj; omega
  have hlt := hlow j hjn
  rw [List.getD_eq_getElem (n := j) (hn := by omega)] at hlt
  simpa using hlt

/-- Settles O9: R174 is what the key and pad checks of the body test. -/
theorem saBuildCompletes : Obligations.SaBuildCompletes := by
  intro s r h hm
  dsimp only
  intro hn halpha hregions hcap hx
  have hpre : preCheck s.params .saBuild r.latch = none :=
    preCheck_passes h.2.1 rfl rfl rfl hregions (by simp [checkLimits, checkLength]; omega) (by rintro _ ⟨⟩; exact hcap) rfl
  have hkeys := (badKeyIndex_eq_none_iff _ _ _).2 hx.2.1
  have hpads := badPadIndex_eq_none hx
  exact exec_succeeds h hm rfl hpre (by simp only [commandBody, saBuildBody, hkeys, hpads]; rfl)

/-- Settles O10: the framed bytes are the input of `dc3` in the body. -/
theorem saBuildBCompletes : Obligations.SaBuildBCompletes := by
  intro s r h hm
  dsimp only
  intro hn hregions hcap
  have hpre : preCheck s.params .saBuildB r.latch = none :=
    preCheck_passes h.2.1 rfl rfl rfl hregions (by simp [checkLimits, checkLength]; omega) (by rintro _ ⟨⟩; exact hcap) rfl
  have hframe : sentinelFramed (elems .u8 s.lmem r.latch.args.src0Addr.toNat r.latch.args.src0Len.toNat) =
      (List.range r.latch.args.src0Len.toNat).map (fun k => ((s.lmem.read (r.latch.args.src0Addr.toNat + k)).toNat : Int)) ++
        [-1, -2, -2, -2] := by
    simp [sentinelFramed, elems, elem_byte (show fmtSize .u8 = 1 from rfl), Function.comp_def]
  obtain ⟨t, ht, hsucc, hwrote⟩ := exec_succeeds h hm rfl hpre rfl
  refine ⟨t, ht, hsucc, ?_⟩
  rwa [saValues, byteSuffixArray, hframe, elems_length] at hwrote

/-! ## The Burrows-Wheeler transform -/

/-- A permutation of `[0, N)` has no bad entry (42_bwt.md R221). -/
theorem badSaIndex_eq_none {n : Nat} {sa : List Nat} (h : sa.Perm (List.range n)) : badSaIndex n sa = none := by
  rw [Option.eq_none_iff_forall_ne_some]
  intro j hj
  obtain ⟨hlt, hbad | ⟨q, hq, heq⟩, -⟩ := (badSaIndex_eq_some_iff n sa j).1 hj
  · exact absurd (List.mem_range.1 (h.mem_iff.1 (List.getElem_mem hlt))) (by omega)
  · exact hq.ne ((h.nodup_iff.2 List.nodup_range).getElem_inj_iff.1 heq)

/-- Settles O11: a permutation passes the entry check, and the body writes the BWT string. -/
theorem bwtFwdCompletes : Obligations.BwtFwdCompletes := by
  intro s r h hm
  dsimp only
  set a := r.latch.args with ha
  intro hlen hn hregions hcap hperm
  obtain ⟨hfits0, hfits1, hfitsDst, hapart0, hapart1⟩ := hregions
  have hpre : preCheck s.params .bwtFwd r.latch = none := by
    rw [preCheck_eq_checkSeed h.2.1]
    · rfl
    · simp [checkLimits, checkLength, ← ha, hlen]
      omega
    · rintro _ ⟨⟩
      exact hfits0
    · rintro _ ⟨⟩
      rw [← ha, hlen]
      exact hfits1
    · rintro _ ⟨⟩
      exact hfitsDst
    · rintro _ _ ⟨⟩ ⟨⟩
      exact hapart0
    · rintro _ _ ⟨⟩ ⟨⟩
      rw [← ha, hlen]
      exact hapart1
    · rintro _ ⟨⟩
      rw [← ha, hlen]
      exact hcap
  have hbody : commandBody .bwtFwd r.latch s.lmem = .ok
      { values := bwtString (elems .u8 s.lmem a.src0Addr.toNat a.src0Len.toNat)
          (elems .idx32 s.lmem a.src1Addr.toNat (a.src0Len.toNat + 1))
        r0 := a.src0Len.toNat + 1
        r1 := (elems .idx32 s.lmem a.src1Addr.toNat (a.src0Len.toNat + 1)).idxOf 0 } := by
    simp only [commandBody, bwtFwdBody, ← ha, hlen, badSaIndex_eq_none hperm]
  have hvalues : bwtString (elems .u8 s.lmem a.src0Addr.toNat a.src0Len.toNat)
      (elems .idx32 s.lmem a.src1Addr.toNat (a.src0Len.toNat + 1)) =
      (elems .idx32 s.lmem a.src1Addr.toNat (a.src0Len.toNat + 1)).map fun k =>
        if k = 0 then 256 else (s.lmem.read (a.src0Addr.toNat + (k - 1))).toNat := by
    refine List.map_congr_left fun k hk => ?_
    have hk := List.mem_range.1 (hperm.mem_iff.1 hk)
    by_cases h0 : k = 0
    · rw [if_pos h0, if_pos h0]
      rfl
    · have hlt : k - 1 < a.src0Len.toNat := by omega
      rw [if_neg h0, if_neg h0, List.getD_eq_getElem _ _ (by simpa using hlt), elems_getElem, elem_byte rfl]
  rw [← hvalues]
  exact exec_succeeds h hm rfl hpre hbody

/-- Settles O12: the conditions on the string are the checks of the body, which then writes the reversed walk. -/
theorem bwtInvCompletes : Obligations.BwtInvCompletes := by
  intro s r h hm
  dsimp only
  intro hn hregions hcap hsyms hcount hwalk
  have hpre : preCheck s.params .bwtInv r.latch = none :=
    preCheck_passes h.2.1 rfl rfl rfl hregions (by simp [checkLimits, checkLength, hn]) (by rintro _ ⟨⟩; exact hcap) rfl
  have hnone := (firstAbove_eq_none_iff sent _).2 hsyms
  refine exec_succeeds h hm rfl hpre ?_ (out := { values := _, r0 := _, r1 := _ })
  simp only [commandBody, bwtInvBody, hnone]
  exact (if_neg (not_not.2 hcount)).trans (if_neg (not_not.2 hwalk))

/-! ## Move to front -/

/-- What the two MTF commands share: values up to 256 are transformed (43_mtf.md R241, R242). -/
theorem mtfBody_ok {transform : List Nat → List Nat → List Nat} {l : Latch} {m : Memory}
    (h : ∀ v ∈ elems .sym16 m l.args.src0Addr.toNat l.args.src0Len.toNat, v ≤ 256) :
    mtfBody transform l m = .ok
      { values := transform (l.seed.map fun b => b.toNat) (elems .sym16 m l.args.src0Addr.toNat l.args.src0Len.toNat)
        r0 := l.args.src0Len.toNat
        r1 := 0 } := by
  have hnone := (firstAbove_eq_none_iff sent _).2 h
  simp only [mtfBody, hnone]

/-- Settles O13: the seed passes its check and the symbols theirs, and the body writes the ranks. -/
theorem mtfFwdCompletes : Obligations.MtfFwdCompletes := by
  intro s r h hm
  dsimp only
  intro hregions hcap hseed hsyms
  exact exec_succeeds h hm rfl (preCheck_mtf_passes (.inl rfl) h.2.1 hregions hcap hseed) (mtfBody_ok hsyms)

/-- Settles O14: the seed passes its check and the ranks theirs, and the body writes the symbols. -/
theorem mtfInvCompletes : Obligations.MtfInvCompletes := by
  intro s r h hm
  dsimp only
  intro hregions hcap hseed hsyms
  exact exec_succeeds h hm rfl (preCheck_mtf_passes (.inr rfl) h.2.1 hregions hcap hseed) (mtfBody_ok hsyms)

/-! ## Huffman coding -/

/-- Settles O15: the symbols and the room for the stream are what the body checks before it writes the stream. -/
theorem hufEncCompletes : Obligations.HufEncCompletes := by
  intro s r h hm
  dsimp only
  intro hregions hsyms hcap
  have hpre : preCheck s.params .hufEnc r.latch = none :=
    preCheck_passes h.2.1 rfl rfl rfl hregions (by simp [checkLimits, checkLength]) (by rintro _ ⟨⟩) rfl
  have hnone := (firstAbove_eq_none_iff sent _).2 hsyms
  refine exec_succeeds h hm rfl hpre ?_ (out := { values := _, r0 := _, r1 := _ })
  simp only [commandBody, hufEncBody, hnone]
  exact if_neg (Nat.not_lt.2 hcap)

/-- Settles O16: header and payload together are what the decoder of the body runs. -/
theorem hufDecCompletes : Obligations.HufDecCompletes := by
  intro s r root pos pos' st out h hm
  dsimp only
  intro hregions hparse hpayload
  have hpre : preCheck s.params .hufDec r.latch = none :=
    preCheck_passes h.2.1 rfl rfl rfl hregions (by simp [checkLimits, checkLength]) (by rintro _ ⟨⟩) rfl
  have hdec : hufDecode (elems .bit8 s.lmem r.latch.args.src0Addr.toNat r.latch.args.src0Len.toNat) r.latch.args.dstCap.toNat =
      .ok (out, pos') := by
    simp only [hufDecode, hparse, elems_length, hpayload]
  exact exec_succeeds h hm rfl hpre (by simp only [commandBody, hufDecBody, hdec]; rfl)

/-! ## Bitstreams -/

/-- A byte of a one-byte destination holds the value written there (20_memory.md R77). -/
theorem Wrote.byte {m m' : Memory} {f : Fmt} {base : Nat} {values : List Nat} (h : Wrote m m' f base values)
    (hf : fmtSize f = 1) {i v : Nat} (hv : values[i]? = some v) : (m'.read (base + i)).toNat = v % 256 := by
  have hi : i < values.length := (List.getElem?_eq_some_iff.1 hv).1
  have hval := h.1 i hi
  rwa [elem_byte hf, hf, List.getD_eq_getElem?_getD, hv, pow_one] at hval

theorem Wrote.outside {m m' : Memory} {f : Fmt} {base : Nat} {values : List Nat} (h : Wrote m m' f base values)
    (hf : fmtSize f = 1) : SameOutside m m' base values.length := by
  simpa [hf] using h.2

/-- The bit of a byte, as a digit of its value. -/
theorem getLsbD_eq_decide_digit (x : Byte) (i : Nat) : x.getLsbD i = decide (x.toNat / 2 ^ i % 2 = 1) := by
  rw [← BitVec.testBit_toNat, Nat.testBit_eq_decide_div_mod_eq]

/-- The low byte of a value keeps its low digits. -/
theorem mod_256_digit (v : Nat) {i : Nat} (hi : i < 8) : v % 256 / 2 ^ i % 2 = v / 2 ^ i % 2 := by
  rw [show 256 = 2 ^ i * 2 ^ (8 - i) by rw [← pow_add, Nat.add_sub_cancel' hi.le]; rfl, Nat.mod_mul_right_div_self]
  exact Nat.mod_mod_of_dvd _ (dvd_pow_self 2 (by omega))

/-- Settles O17: the written bytes are the packed form, whose digits are the source bits and zeros. -/
theorem packCompletes : Obligations.PackCompletes := by
  intro s r h hm
  dsimp only
  set a := r.latch.args with ha
  set n := a.src0Len.toNat with hn
  intro hregions hcap hbits
  have hpre : preCheck s.params .pack r.latch = none :=
    preCheck_passes h.2.1 rfl rfl rfl hregions (by simp [checkLimits, checkLength]) (by rintro _ ⟨⟩; exact hcap) rfl
  have hle : ∀ b ∈ elems .bit8 s.lmem a.src0Addr.toNat n, b ≤ 1 := by
    simp only [elems, List.forall_mem_map, List.mem_range]
    intro j hj
    rw [elem_byte rfl]
    obtain hz | ho := hbits j hj
    · simp [hz]
    · simp [ho]
  have hnone := (firstAbove_eq_none_iff 1 _).2 hle
  have hbody : commandBody .pack r.latch s.lmem = .ok
      { values := packBits (elems .bit8 s.lmem a.src0Addr.toNat n) ((n + 7) / 8), r0 := (n + 7) / 8, r1 := 8 * ((n + 7) / 8) - n } := by
    simp only [commandBody, packBody, ← ha, ← hn, hnone]
  obtain ⟨t, ht, hsucc, hwrote⟩ := exec_succeeds h hm rfl hpre hbody
  refine ⟨t, ht, hsucc, fun k hk q hq => ?_, by simpa using hwrote.outside rfl⟩
  rw [getLsbD_eq_decide_digit, hwrote.byte rfl (packBits_getElem? _ hk), mod_256_digit _ (by omega), packed_digit hle k hq,
    List.getD_eq_getElem?_getD]
  by_cases hlt : 8 * k + q < n
  · obtain hz | ho := hbits _ hlt
    · simp [elems, hlt, elem_byte (show fmtSize .bit8 = 1 from rfl), hz]
    · simp [elems, hlt, elem_byte (show fmtSize .bit8 = 1 from rfl), ho]
  · simp [elems, hlt]

/-- Settles O18: the written bytes are the digits of the source bytes. -/
theorem unpackCompletes : Obligations.UnpackCompletes := by
  intro s r h hm
  dsimp only
  intro hregions hcap
  have hpre : preCheck s.params .unpack r.latch = none :=
    preCheck_passes h.2.1 rfl rfl rfl hregions (by simp [checkLimits, checkLength]) (by rintro _ ⟨⟩; exact hcap) rfl
  obtain ⟨t, ht, hsucc, hwrote⟩ := exec_succeeds h hm rfl hpre rfl
  refine ⟨t, ht, hsucc, fun k hk q hq => ?_, by simpa using hwrote.outside rfl⟩
  have hsrc : (elems .u8 s.lmem r.latch.args.src0Addr.toNat r.latch.args.src0Len.toNat)[k]? =
      some (s.lmem.read (r.latch.args.src0Addr.toNat + k)).toNat := by
    simp [elems, hk, elem_byte (show fmtSize .u8 = 1 from rfl)]
  apply BitVec.eq_of_toNat_eq
  rw [hwrote.byte rfl (unpackBytes_getElem? hsrc hq), getLsbD_eq_decide_digit]
  simp only [decide_eq_true_eq]
  split <;> simp <;> omega

end Sys2Proof.Machine
end

section
/-! The proofs of the encoding's obligations (30_encoding.md section 1), and of the determinism of the commands
(40_command.md R144, R149, R152). -/

namespace Sys2Proof.Machine

/-! ## The command word -/

/-- The opcode map of 30_encoding.md R101 is the inverse of the opcodes. -/
theorem opcodeMap_opcode (i : Instr) : opcodeMap i.opcode = some i := by cases i <;> rfl

theorem opcode_of_opcodeMap {op : BitVec 8} {i : Instr} (h : opcodeMap op = some i) : op = i.opcode := by
  unfold opcodeMap at h
  split at h
  case h_12 => cases h
  all_goals
    next hop =>
    cases h
    exact BitVec.eq_of_toNat_eq hop

theorem commandFields_encode (i : Instr) : commandFields (encode i) = ⟨i.opcode, 0⟩ := by cases i <;> rfl

/-- A word with `RSVD` zero is its opcode, extended with zeros (30_encoding.md R100). -/
theorem eq_of_rsvd_zero {w : Word} (h : w.extractLsb' 8 24 = 0) : w = 0#24 ++ w.extractLsb' 0 8 := by
  rw [show 0#24 = w.extractLsb' 8 24 from h.symm, BitVec.extractLsb'_append_extractLsb'_eq_extractLsb' (show 8 = 0 + 8 from rfl)]
  exact BitVec.extractLsb'_eq_self.symm

/-- Settles O1: `RSVD` of an encoded word is zero and the opcode map undoes the opcode. -/
theorem decodeReadsEveryCommandBack : Obligations.DecodeReadsEveryCommandBack := by
  intro i
  refine ⟨by cases i <;> rfl, ?_⟩
  simp [decode, commandFields_encode, CommandWord.rsvdOk, opcodeMap_opcode]

/-- The words that the decoder accepts (30_encoding.md R103). -/
theorem decode_eq_ok_iff {w : Word} {i : Instr} :
    decode w = .ok i ↔ w.extractLsb' 8 24 = 0 ∧ opcodeMap (w.extractLsb' 0 8) = some i := by
  unfold decode
  simp only [rsvdOk_commandFields]
  split
  · next hrsvd =>
    have hop : (commandFields w).opcode = w.extractLsb' 0 8 := rfl
    rw [hop]
    cases opcodeMap (w.extractLsb' 0 8) <;> simp [hrsvd]
  · next hrsvd => exact ⟨fun h => (nomatch h), fun h => absurd h.1 hrsvd⟩

theorem opcodeMap_isSome {op : BitVec 8} (h : op.toNat ≤ 0x0A) : ∃ i, opcodeMap op = some i := by
  have hmap : ∀ o : Fin 11, (opcodeMap (BitVec.ofNat 8 o.val)).isSome = true := by decide
  have hi := Option.isSome_iff_exists.1 (hmap ⟨op.toNat, by omega⟩)
  rwa [BitVec.ofNat_toNat, BitVec.setWidth_eq] at hi

/-- Settles O2: an accepted word has `RSVD` zero and the opcode of its command; the map has every opcode up to `0x0A`. -/
theorem onlyOpcodeMapWordsDecode : Obligations.OnlyOpcodeMapWordsDecode := by
  refine ⟨fun w i h => ?_, fun w => ⟨fun ⟨e, he⟩ => ?_, fun h => decode_eq_error_of_illegal (h.symm.imp_left id)⟩⟩
  · obtain ⟨hrsvd, hop⟩ := decode_eq_ok_iff.1 h
    rw [eq_of_rsvd_zero hrsvd, opcode_of_opcodeMap hop, encode]
  · by_contra hlegal
    rw [not_or, not_not, Nat.not_lt] at hlegal
    obtain ⟨i, hi⟩ := opcodeMap_isSome hlegal.2
    rw [decode_eq_ok_iff.2 ⟨hlegal.1, hi⟩] at he
    cases he

/-- Settles O3: the eleven words are the words of the commands. -/
theorem opcodeMapWordsDecodeToTheirCommands : Obligations.OpcodeMapWordsDecodeToTheirCommands := by
  have hdec : ∀ i, decode (encode i) = .ok i := fun i => (decodeReadsEveryCommandBack i).2
  exact ⟨hdec .nop, hdec .saBuild, hdec .saBuildB, hdec .bwtFwd, hdec .bwtInv, hdec .mtfFwd, hdec .mtfInv, hdec .hufEnc,
    hdec .hufDec, hdec .pack, hdec .unpack⟩

/-! ## What a command reads -/

theorem elems_congr {f : Fmt} {m₁ m₂ : Memory} {base n : Nat}
    (h : ∀ o, base ≤ o → o < base + fmtSize f * n → m₁.read o = m₂.read o) : elems f m₁ base n = elems f m₂ base n := by
  refine List.map_congr_left fun i hi => memRead_congr fun o hlo hhi => h o (by omega) ?_
  have hle : fmtSize f * (i + 1) ≤ fmtSize f * n := Nat.mul_le_mul_left _ (List.mem_range.1 hi)
  rw [Nat.mul_add_one] at hle
  omega

theorem map_elemI32 (m : Memory) (base n : Nat) :
    (List.range n).map (elemI32 m base) = (elems .i32 m base n).map s32 := by
  rw [elems, List.map_map]
  rfl

/-- Memories that agree on the sources of a command. -/
def SameSources (i : Instr) (a : Args) (m₁ m₂ : Memory) : Prop :=
  ∀ g, src0Region i a = some g ∨ src1Region i a = some g → ∀ o, g.addr ≤ o → o < g.addr + g.bytes → m₁.read o = m₂.read o

theorem sameSources_of_inLatchedSrc {i : Instr} {l : Latch} {m₁ m₂ : Memory} (hcmd : l.cmd = encode i)
    (h : ∀ o, inLatchedSrc l o = true → m₁.read o = m₂.read o) : SameSources i l.args m₁ m₂ := by
  intro g hg o hlo hhi
  refine h o ?_
  have hcovers : g.covers o = true := by simp [Region.covers, hlo, hhi]
  obtain hg | hg := hg <;> simp [inLatchedSrc, latchedOp_encode hcmd, hg, hcovers]

/-- The elements of a source are the same in both memories. -/
theorem SameSources.elems {i : Instr} {a : Args} {m₁ m₂ : Memory} (h : SameSources i a m₁ m₂) {f : Fmt} {base n size : Nat}
    (hg : src0Region i a = some ⟨f, base, size⟩ ∨ src1Region i a = some ⟨f, base, size⟩) (hsize : size = fmtSize f * n) :
    elems f m₁ base n = Machine.elems f m₂ base n :=
  elems_congr fun o hlo hhi => h _ hg o hlo (hsize ▸ hhi)

/-- A command's rule reads LMEM in its sources only (40_command.md R144). -/
theorem commandBody_congr {i : Instr} {l : Latch} {m₁ m₂ : Memory} (h : SameSources i l.args m₁ m₂) :
    commandBody i l m₁ = commandBody i l m₂ := by
  cases i with
  | nop => rfl
  | saBuild => simp only [commandBody, saBuildBody, map_elemI32, h.elems (.inl rfl) rfl]
  | saBuildB => simp only [commandBody, saBuildBBody, h.elems (.inl rfl) (Nat.one_mul _).symm]
  | bwtFwd => simp only [commandBody, bwtFwdBody, h.elems (.inl rfl) (Nat.one_mul _).symm, h.elems (.inr rfl) rfl]
  | bwtInv => simp only [commandBody, bwtInvBody, h.elems (.inl rfl) rfl]
  | mtfFwd => simp only [commandBody, mtfBody, h.elems (.inl rfl) rfl]
  | mtfInv => simp only [commandBody, mtfBody, h.elems (.inl rfl) rfl]
  | hufEnc => simp only [commandBody, hufEncBody, h.elems (.inl rfl) rfl]
  | hufDec => simp only [commandBody, hufDecBody, h.elems (.inl rfl) (Nat.one_mul _).symm]
  | pack => simp only [commandBody, packBody, h.elems (.inl rfl) (Nat.one_mul _).symm]
  | unpack => simp only [commandBody, unpackBody, h.elems (.inl rfl) (Nat.one_mul _).symm]

theorem execResult_congr {i : Instr} {p : Params} {l : Latch} {m₁ m₂ : Memory} (h : SameSources i l.args m₁ m₂) :
    execResult i (commandBody i) p l m₁ = execResult i (commandBody i) p l m₂ := by
  simp only [execResult, commandBody_congr h]

/-! ## What a command writes -/

theorem read_write_agree {m₁ m₂ : Memory} (hm₁ : m₁.wf = true) (hm₂ : m₂.wf = true) (a : Nat) (v : Byte) {o : Nat}
    (h : o = a ∨ m₁.read o = m₂.read o) : (m₁.write a v).read o = (m₂.write a v).read o := by
  by_cases ho : o = a
  · subst ho
    rw [Memory.read_write_same hm₁, Memory.read_write_same hm₂]
  · rw [Memory.read_write_other _ _ ho, Memory.read_write_other _ _ ho, h.resolve_left ho]

theorem read_memWrite_agree {m₁ m₂ : Memory} (hm₁ : m₁.wf = true) (hm₂ : m₂.wf = true) {a n : Nat} (v : Nat) {o : Nat}
    (h : (a ≤ o ∧ o < a + n) ∨ m₁.read o = m₂.read o) : (memWrite m₁ a n v).read o = (memWrite m₂ a n v).read o := by
  induction n generalizing m₁ m₂ a v with
  | zero => exact h.resolve_left (by omega)
  | succ n ih =>
    refine ih (Memory.wf_write hm₁ _ _) (Memory.wf_write hm₂ _ _) _ ?_
    by_cases hin : a + 1 ≤ o ∧ o < a + 1 + n
    · exact .inl hin
    · exact .inr (read_write_agree hm₁ hm₂ _ _ (h.imp_left fun _ => by omega))

/-- The `PutElem` calls of a success leave the same in the bytes they write, and wherever the memories agreed. -/
theorem read_putElems_agree {m₁ m₂ : Memory} (hm₁ : m₁.wf = true) (hm₂ : m₂.wf = true) (f : Fmt) (base i : Nat)
    (vs : List Nat) {o : Nat}
    (h : (base + fmtSize f * i ≤ o ∧ o < base + fmtSize f * (i + vs.length)) ∨ m₁.read o = m₂.read o) :
    (putElems f base i vs m₁).read o = (putElems f base i vs m₂).read o := by
  induction vs generalizing m₁ m₂ i with
  | nil => exact h.resolve_left (by simp)
  | cons v vs ih =>
    refine ih ((memWrite_writesOnly _ _ _ _).wf hm₁) ((memWrite_writesOnly _ _ _ _).wf hm₂) (i + 1) ?_
    rw [List.length_cons, show i + (vs.length + 1) = i + 1 + vs.length by omega] at h
    by_cases hin : base + fmtSize f * (i + 1) ≤ o
    · exact h.imp (fun hr => ⟨hin, hr.2⟩) fun hr => read_memWrite_agree hm₁ hm₂ v (.inr hr)
    · rw [Nat.mul_add_one] at hin
      exact .inr (read_memWrite_agree hm₁ hm₂ v (h.imp_left fun _ => by omega))

/-- What an error completion records (40_command.md R146). -/
theorem Failed.record {s t : State} {code : Byte} {info : Nat} (h : Failed s t code info) :
    t.errCode = code ∧ t.errInfo = BitVec.ofNat 32 info ∧ t.result0 = 0 ∧ t.result1 = 0 :=
  ⟨congrArg State.errCode h, congrArg State.errInfo h, congrArg State.result0 h, congrArg State.result1 h⟩

/-- Settles O50: the outcome of the rule is the same, and so is what it writes. -/
theorem outcomeDependsOnLatchAndSources : Obligations.OutcomeDependsOnLatchAndSources := by
  intro i s₁ s₂ t₁ t₂ r h₁ h₂ hp hm₁ hm₂ hsrc hexec₁ hexec₂
  rw [exec_undisturbed h₁] at hexec₁
  rw [exec_undisturbed h₂, ← hp, ← execResult_congr (sameSources_of_inLatchedSrc h₁.2.1 hsrc)] at hexec₂
  obtain rfl := Host.Outcome.next.inj hexec₁
  obtain rfl := Host.Outcome.next.inj hexec₂
  cases hres : execResult i (commandBody i) s₁.params r.latch s₁.lmem with
  | error e =>
    obtain ⟨e, info⟩ := e
    obtain ⟨hcode₁, hinfo₁, hr0₁, hr1₁⟩ := (applyResult_error i r.latch e info s₁).1.record
    obtain ⟨hcode₂, hinfo₂, hr0₂, hr1₂⟩ := (applyResult_error i r.latch e info s₂).1.record
    refine ⟨hcode₁.trans hcode₂.symm, hinfo₁.trans hinfo₂.symm, hr0₁.trans hr0₂.symm, hr1₁.trans hr1₂.symm, fun hok => ?_⟩
    exact absurd (hcode₁.symm.trans hok) (errCodeByte_ne_zero e)
  | ok out =>
    obtain ⟨hpre, hbody⟩ := execResult_ok hres
    have hr0 : out.r0 = out.values.length := (commandBody_output hpre hbody).1
    refine ⟨rfl, rfl, rfl, rfl, fun _ o ho => ?_⟩
    simp only [applyResult, completeOk_lmem, completeOk_result0, writeOutput] at ho ⊢
    cases hf : dstFmt i with
    | none => simpa [hf] using ho
    | some f =>
      refine read_putElems_agree hm₁ hm₂ f _ 0 _ (ho.imp_left ?_)
      rintro ⟨f', hf', hlo, hhi⟩
      obtain rfl := Option.some.inj (hf.symm.trans hf')
      have hle : (BitVec.ofNat 32 out.r0).toNat * fmtSize f ≤ fmtSize f * out.values.length := by
        rw [Nat.mul_comm, BitVec.toNat_ofNat, ← hr0]
        exact Nat.mul_le_mul_left _ (Nat.mod_le _ _)
      rw [Nat.mul_zero, Nat.zero_add]
      omega

end Sys2Proof.Machine
end

section
/-! The proofs of the obligations on the host port: CSR accesses, and LMEM accesses at an idle block
(20_memory.md section 1, 10_state.md). -/

namespace Sys2Proof.Machine

/-! ## The CSR window -/

/-- An aligned word access reaches the CSR at its offset (20_memory.md R73). -/
theorem target_csr {p : Params} {a : Word} {c : Csr} (hwindow : a.toNat + 4 ≤ 0x1000) (haligned : a.toNat % 4 = 0)
    (hc : csrAt a.toNat = some c) : target p a .word = .csr c := by
  have hbytes : accessBytes .word = 4 := rfl
  simp only [target, hbytes, if_pos hwindow, haligned, and_self, if_true, hc]

theorem hostRead_csr {a : Word} {n : AccessSize} {s : State} {c : Csr} (h : target s.params a n = .csr c) :
    hostRead a n s = { s with rdata := readCsr s c } := by
  simp only [hostRead, h]

theorem hostWrite_csr {a : Word} {n : AccessSize} {s : State} {c : Csr} (v : Word) (h : target s.params a n = .csr c) :
    hostWrite a n v s = writeCsr c v s := by
  simp only [hostWrite, h]

theorem hostRead_lmem {a : Word} {n : AccessSize} {s : State} {o : Nat} (h : target s.params a n = .lmem o) :
    hostRead a n s = hostReadLmem o (accessBytes n) s := by
  simp only [hostRead, h]

theorem hostWrite_lmem {a : Word} {n : AccessSize} {s : State} {o : Nat} (v : Word) (h : target s.params a n = .lmem o) :
    hostWrite a n v s = hostWriteLmem o (accessBytes n) v s := by
  simp only [hostWrite, h]

/-- The offsets that hold no register (10_state.md R21, R44). -/
theorem csrAt_eq_none {o : Nat} (h : 0x050 ≤ o ∧ o ≤ 0x0FC ∨ 0x200 ≤ o) : csrAt o = none := by
  have hseed : ¬ (0x100 ≤ o ∧ o < 0x200) := by omega
  unfold csrAt
  split
  case h_21 => rw [if_neg hseed]
  all_goals omega

/-- An access in the window that is no aligned word, or is to a reserved offset, reaches nothing (20_memory.md R73). -/
theorem target_of_wrong_csr {p : Params} {a : Word} {n : AccessSize} (hwindow : a.toNat + accessBytes n ≤ 0x1000)
    (h : n ≠ .word ∨ a.toNat % 4 ≠ 0 ∨ (0x050 ≤ a.toNat ∧ a.toNat ≤ 0x0FC) ∨ 0x200 ≤ a.toNat) :
    target p a n = .nothing := by
  simp only [target, if_pos hwindow]
  split
  · next hword =>
    rw [csrAt_eq_none ((h.resolve_left (not_not.2 hword.1)).resolve_left (not_not.2 hword.2))]
  · rfl

/-- Settles O32: such an access reaches nothing, for a read and for a write. -/
theorem wrongOrReservedCsrAccessHasNoEffect : Obligations.WrongOrReservedCsrAccessHasNoEffect := by
  intro s a n v hwindow hwrong
  have ht : target s.params a n = .nothing := target_of_wrong_csr hwindow hwrong
  exact ⟨hostRead_of_target_nothing ht, hostWrite_of_target_nothing v ht⟩

/-! ## LMEM at an idle block -/

theorem Params.lmemBytes_le {p : Params} (h : p.wellFormed = true) : p.lmemBytes ≤ 2 ^ 24 := by
  simp only [Params.wellFormed, Params.lmemBytesOk, Bool.and_eq_true, decide_eq_true_eq] at h
  exact h.1.1.2.2

/-- Offset 0 of LMEM is aligned for every access (20_memory.md R71). -/
theorem aperture_mod (n : AccessSize) (o : Nat) : (0x01000000 + o) % accessBytes n = o % accessBytes n := by
  rw [Nat.add_mod, show 0x01000000 % accessBytes n = 0 by cases n <;> rfl, Nat.zero_add, Nat.mod_mod]

/-- The aperture (20_memory.md R71, R74): an access inside LMEM reaches it if it is naturally aligned. -/
theorem target_aperture {p : Params} {o : Nat} {n : AccessSize} (hp : p.wellFormed = true)
    (h : o + accessBytes n ≤ p.lmemBytes) :
    target p (BitVec.ofNat 32 (0x01000000 + o)) n = if o % accessBytes n = 0 then .lmem o else .nothing := by
  have hle := Params.lmemBytes_le hp
  have haddr : (BitVec.ofNat 32 (0x01000000 + o)).toNat = 0x01000000 + o := by
    rw [BitVec.toNat_ofNat]
    exact Nat.mod_eq_of_lt (by omega)
  unfold target apertureBase
  rw [haddr]
  dsimp only
  rw [if_neg (by omega), if_pos ⟨by omega, by omega⟩, aperture_mod, Nat.add_sub_cancel_left]

/-- A write stores its low bytes, the least significant first (20_memory.md R77). -/
theorem read_memWrite {m : Memory} (hm : m.wf = true) {o n : Nat} (v : Nat) {k : Nat} (hk : k < n) :
    (memWrite m o n v).read (o + k) = BitVec.ofNat 8 (v / 256 ^ k) := by
  induction n generalizing m o v k with
  | zero => omega
  | succ n ih =>
    have hw : (m.write o (BitVec.ofNat 8 v)).wf = true := Memory.wf_write hm _ _
    cases k with
    | zero =>
      rw [pow_zero, Nat.div_one, memWrite, (memWrite_writesOnly _ _ _ _).elsewhere _ (by omega)]
      exact Memory.read_write_same hm _ _
    | succ k =>
      rw [memWrite, show o + (k + 1) = o + 1 + k by omega, ih hw _ (by omega), Nat.div_div_eq_div_mul, ← Nat.pow_succ']

theorem ofNat_digit_eq_extractLsb' (v : Word) (k : Nat) : BitVec.ofNat 8 (v.toNat / 256 ^ k) = v.extractLsb' (8 * k) 8 := by
  apply BitVec.eq_of_toNat_eq
  rw [BitVec.toNat_ofNat, BitVec.extractLsb'_toNat, Nat.shiftRight_eq_div_pow, Nat.pow_mul]

/-- The other bytes stay (20_memory.md R77). -/
theorem sameOutside_memWrite (m : Memory) (o n v : Nat) : SameOutside m (memWrite m o n v) o n :=
  fun a ha => (memWrite_writesOnly m o n v).elsewhere a (by omega)

theorem memRead_lt (m : Memory) (o n : Nat) : memRead m o n < 256 ^ n := by
  induction n generalizing o with
  | zero => simp [memRead]
  | succ n ih =>
    have hlo := (m.read o).isLt
    have hhi := ih (o + 1)
    rw [memRead, Nat.pow_succ']
    omega

/-- What an access reads fits its word (20_memory.md R70). -/
theorem toNat_ofNat_memRead (m : Memory) (o : Nat) (n : AccessSize) :
    (BitVec.ofNat 32 (memRead m o (accessBytes n))).toNat = memRead m o (accessBytes n) := by
  rw [BitVec.toNat_ofNat]
  refine Nat.mod_eq_of_lt ((memRead_lt m o _).trans_le ?_)
  exact (Nat.pow_le_pow_right (by omega) (accessBytes_pos n).2).trans (by norm_num)

theorem hostReadLmem_idle {o n : Nat} {s : State} (h : s.seq = .idle) :
    hostReadLmem o n s = { s with rdata := BitVec.ofNat 32 (memRead s.lmem o n) } := by
  simp only [hostReadLmem, h]

theorem hostWriteLmem_idle {o n : Nat} {v : Word} {s : State} (h : s.seq = .idle) :
    hostWriteLmem o n v s = { s with lmem := memWrite s.lmem o n v.toNat } := by
  rw [hostWriteLmem, h]

/-- At an idle block a read returns what LMEM holds (20_memory.md R74). -/
theorem hostRead_idle_rdata {a : Word} {n : AccessSize} {s : State} {o : Nat} (h : target s.params a n = .lmem o)
    (hidle : s.seq = .idle) : (hostRead a n s).rdata.toNat = memRead s.lmem o (accessBytes n) := by
  rw [hostRead_lmem h, hostReadLmem_idle hidle]
  exact toNat_ofNat_memRead _ _ _

/-- At an idle block no read counts free values (20_memory.md R74). -/
theorem hostRead_idle_draws {a : Word} {n : AccessSize} {s : State} (h : s.seq = .idle) :
    (hostRead a n s).draws = s.draws := by
  cases ht : target s.params a n with
  | csr c => rw [hostRead_csr ht]
  | lmem o => rw [hostRead_lmem ht, hostReadLmem_idle h]
  | nothing => rw [hostRead_of_target_nothing ht]

/-- Settles O33: a naturally aligned access reaches LMEM, a misaligned one nothing; a read writes `rdata` and `draws`
alone. -/
theorem apertureStoreReadsBack : Obligations.ApertureStoreReadsBack := by
  refine ⟨fun s o n v hp hin => ⟨fun haligned hidle hm => ?_, fun hmis => ?_⟩, fun s a n =>
    ⟨hostRead_frame a n s, hostRead_idle_draws⟩⟩
  · have ht := (target_aperture hp hin).trans (if_pos haligned)
    have hwrite := (hostWrite_lmem v ht).trans (hostWriteLmem_idle hidle)
    rw [hwrite]
    refine ⟨rfl, fun k hk => (read_memWrite hm _ hk).trans (ofNat_digit_eq_extractLsb' v k), sameOutside_memWrite _ _ _ _, ?_⟩
    have hread := hostRead_idle_rdata (s := { s with lmem := memWrite s.lmem o (accessBytes n) v.toNat }) ht hidle
    exact hread.trans (memRead_memWrite_same hm _ _ _)
  · have ht := (target_aperture hp hin).trans (if_neg hmis)
    exact ⟨hostRead_of_target_nothing ht, hostWrite_of_target_nothing v ht⟩

/-! ## The argument registers -/

/-- The argument registers in the order of their offsets (10_state.md R35 to R42). -/
def argCsr : Fin 8 → Csr := ![.src0Addr, .src0Len, .src1Addr, .src1Len, .dstAddr, .dstCap, .arg0, .arg1]

theorem target_arg (p : Params) (k : Fin 8) : target p (BitVec.ofNat 32 (0x030 + 4 * k.val)) .word = .csr (argCsr k) := by
  have haddr : (BitVec.ofNat 32 (0x030 + 4 * k.val)).toNat = 0x030 + 4 * k.val := by
    rw [BitVec.toNat_ofNat]
    exact Nat.mod_eq_of_lt (by omega)
  refine target_csr (by omega) (by omega) ?_
  rw [haddr]
  exact (by decide : ∀ k : Fin 8, csrAt (0x030 + 4 * k.val) = some (argCsr k)) k

/-- A write to an argument register changes the record of arguments only (10_state.md R51). -/
theorem writeCsr_arg (k : Fin 8) (v : Word) (s : State) :
    writeCsr (argCsr k) v s = { s with args := (writeCsr (argCsr k) v s).args } := by
  fin_cases k <;> rfl

/-- The eight registers are eight different fields. -/
theorem readCsr_writeCsr_arg (j k : Fin 8) (v : Word) (s : State) :
    readCsr (writeCsr (argCsr k) v s) (argCsr j) = if j = k then v else readCsr s (argCsr j) := by
  fin_cases k <;> fin_cases j <;> rfl

/-- Settles O34: each offset reaches its own field of the argument record. -/
theorem argumentRegistersHoldWhatIsWritten : Obligations.ArgumentRegistersHoldWhatIsWritten := by
  intro s v k hk
  dsimp only
  have hwrite := hostWrite_csr v (target_arg s.params ⟨k, hk⟩)
  have hread : ∀ j (hj : j < 8) (u : State),
      (hostRead (BitVec.ofNat 32 (0x030 + 4 * j)) .word u).rdata = readCsr u (argCsr ⟨j, hj⟩) := fun j hj u => by
    rw [hostRead_csr (target_arg u.params ⟨j, hj⟩)]
  dsimp only at hwrite
  rw [hwrite]
  refine ⟨?_, writeCsr_arg _ v s, fun j hj hne => ?_⟩
  · rw [hread k hk, readCsr_writeCsr_arg, if_pos rfl]
  · rw [hread j hj, hread j hj, readCsr_writeCsr_arg, if_neg (by simpa using hne)]

/-! ## The seed table -/

theorem target_seed (p : Params) (w : Fin 64) :
    target p (BitVec.ofNat 32 (0x100 + 4 * w.val)) .word = .csr (.mtfSeed w) := by
  have haddr : (BitVec.ofNat 32 (0x100 + 4 * w.val)).toNat = 0x100 + 4 * w.val := by
    rw [BitVec.toNat_ofNat]
    exact Nat.mod_eq_of_lt (by omega)
  refine target_csr (by omega) (by omega) ?_
  rw [haddr]
  exact (by decide : ∀ w : Fin 64, csrAt (0x100 + 4 * w.val) = some (.mtfSeed w)) w

/-- Entry `4k + q` of the table is byte `q` of word `k` (10_state.md R43). -/
theorem seedEntries_getElem? {ws : List Word} {k q : Nat} {x : Word} (hk : ws[k]? = some x) (hq : q < 4) :
    (ws.flatMap seedEntries)[4 * k + q]? = some (x.extractLsb' (8 * q) 8) := by
  induction ws generalizing k with
  | nil => simp at hk
  | cons y ws ih =>
    rw [List.flatMap_cons]
    cases k with
    | zero =>
      obtain rfl : y = x := by simpa using hk
      rw [List.getElem?_append_left (by simpa [seedEntries] using hq)]
      interval_cases q <;> rfl
    | succ k =>
      rw [List.getElem?_append_right (by simp [seedEntries]; omega), show (seedEntries y).length = 4 from rfl,
        show 4 * (k + 1) + q - 4 = 4 * k + q by omega]
      exact ih (by simpa using hk)

theorem seedTable_getD (t : Vector Word 64) {i : Nat} (hi : i < 256) :
    (seedTable t).getD i 0 = (t[i / 4]'(by omega)).extractLsb' (8 * (i % 4)) 8 := by
  have hword : t.toList[i / 4]? = some (t[i / 4]'(by omega)) := by
    rw [List.getElem?_eq_getElem (by simp; omega)]
    simp
  have hentry := seedEntries_getElem? hword (Nat.mod_lt i (by omega : 0 < 4))
  rw [Nat.div_add_mod] at hentry
  rw [List.getD_eq_getElem?_getD, seedTable, hentry, Option.getD_some]

/-- Settles O35: the write sets one word of the table, whose four bytes are four entries. -/
theorem seedWriteReplacesFourEntries : Obligations.SeedWriteReplacesFourEntries := by
  intro s v w hw
  have ht := target_seed s.params ⟨w, hw⟩
  have hwrite : hostWrite (BitVec.ofNat 32 (0x100 + 4 * w)) .word v s = writeSeed ⟨w, hw⟩ v s := hostWrite_csr v ht
  dsimp only
  rw [hwrite]
  refine ⟨rfl, ?_, fun i hi => ?_⟩
  · rw [hostRead_csr (s := writeSeed ⟨w, hw⟩ v s) ht]
    exact Vector.getElem_set_self hw
  · rw [seedTable_getD _ hi, seedTable_getD _ hi]
    simp only [writeSeed, Vector.getElem_set]
    by_cases h : i / 4 = w
    · rw [if_pos h.symm, if_pos h]
    · rw [if_neg (Ne.symm h), if_neg h]

/-! ## What the registers read -/

theorem toNat_append_eq {w n : Nat} (x : BitVec w) (y : BitVec n) : (x ++ y).toNat = x.toNat * 2 ^ n + y.toNat := by
  rw [BitVec.toNat_append, ← Nat.shiftLeft_add_eq_or_of_lt y.isLt, Nat.shiftLeft_eq]

/-- A read in the CSR window counts no free values (92_eei_decisions.md D5). -/
theorem hostRead_window {a : Word} {n : AccessSize} (s : State) (h : a.toNat + accessBytes n ≤ 0x1000) :
    hostRead a n s = { s with rdata := (hostRead a n s).rdata } := by
  cases ht : target s.params a n with
  | csr c => rw [hostRead_csr ht]
  | lmem o =>
    have hlmem := (target_eq_lmem ht).1
    simp only [apertureBase] at hlmem
    omega
  | nothing => rw [hostRead_of_target_nothing ht]

theorem status_toNat (s : State) :
    s.status.toNat = s.busy.toNat + 2 * s.done.toNat + 4 * s.err.toNat + 8 * s.drop.toNat + 256 * s.errCode.toNat := by
  simp only [State.status, toNat_append_eq, BitVec.toNat_ofBool, BitVec.toNat_zero]
  omega

/-- Settles O36: each offset reaches its register; `STATUS` is put together by its places. -/
theorem statusWordLayout : Obligations.StatusWordLayout := by
  intro s
  refine ⟨status_toNat s, rfl, rfl, rfl, rfl, rfl, rfl, ?_, ?_, rfl, rfl, rfl, fun a n h => hostRead_window s h, ?_⟩
  · exact (toNat_append_eq 0#31 (BitVec.ofBool s.doneIE)).trans (by simp)
  · exact (toNat_append_eq 0#31 (BitVec.ofBool s.doneIP)).trans (by simp)
  · simp only [List.forall_mem_cons, List.not_mem_nil, false_imp_iff, implies_true, and_true]
    exact ⟨fun _ => rfl, fun _ => rfl, fun _ => rfl, fun _ => rfl, fun _ => rfl, fun _ => rfl, fun _ => rfl, fun _ => rfl⟩

end Sys2Proof.Machine
end

section
/-! The proofs of the obligations on interrupts, reset, abort, and host accesses while a command runs
(60_exceptions.md sections 2 and 3, 70_reset_and_hazards.md). -/

namespace Sys2Proof.Machine

/-! ## `CTRL` -/

theorem hostWrite_ctrl (v : Word) (s : State) : hostWrite 0x010#32 .word v s = writeCtrl v s :=
  hostWrite_csr (c := .ctrl) v rfl

theorem writeCtrl_softReset {v : Word} (h : v.getLsbD 0 = true) (s : State) : writeCtrl v s = softReset s := if_pos h

theorem writeCtrl_abort {v : Word} (h0 : v.getLsbD 0 = false) (h1 : v.getLsbD 1 = true) (s : State) :
    writeCtrl v s = abort s := by
  simp only [writeCtrl, h0, h1, Bool.false_eq_true, if_false, if_true]

theorem writeCtrl_nothing {v : Word} (h0 : v.getLsbD 0 = false) (h1 : v.getLsbD 1 = false) (s : State) :
    writeCtrl v s = s := by
  simp only [writeCtrl, h0, h1, Bool.false_eq_true, if_false]

/-- When a `CTRL` write comes next, the step is that write. -/
theorem step_ctrlWrite {s : State} {v : Word} {rest : List Event}
    (hnext : s.agenda = .access (.write 0x010#32 .word v) :: rest) :
    step s = .next (writeCtrl v { s with agenda := rest }) := by
  rw [step_cons hnext]
  exact congrArg Host.Outcome.next (hostWrite_ctrl v _)

/-! ## Interrupts -/

theorem CompletionFrame.irq {s t : State} (h : CompletionFrame s t) : t.irq = s.doneIE := by
  rw [State.irq, h.doneIP, h.doneIE, Bool.true_and]

/-- Settles O37: every completion and abort sets `DONE_IP` and keeps `DONE_IE`; a reset clears both. -/
theorem interruptFollowsItsTwoBits : Obligations.InterruptFollowsItsTwoBits := by
  refine ⟨fun s v => rfl, fun s v => rfl, fun s v => rfl, fun s v => rfl, fun i s t r hs hexec => ?_,
    fun s t r hs hstep => (engineStep_completes hs hstep).irq, fun s r v hs h0 h1 => ?_, fun s v h0 => ?_,
    fun s t cells hstep => ?_⟩
  · rw [exec_busy hs] at hexec
    obtain rfl := Host.Outcome.next.inj hexec
    exact (completion_frame i r _ s).irq
  · rw [hostWrite_ctrl, writeCtrl_abort h0 h1]
    exact (abort_frame hs).irq
  · rw [hostWrite_ctrl, writeCtrl_softReset h0]
    rfl
  · obtain rfl := Host.Outcome.next.inj hstep
    rfl

/-! ## Reset -/

/-- A register whose one bit is clear reads 0 (10_state.md R30, R31). -/
theorem bit_zero : 0#31 ++ BitVec.ofBool false = 0#32 := by decide

/-- Settles O38: the reset input gives the reset state, whatever the event puts in LMEM. -/
theorem hardResetValues : Obligations.HardResetValues := by
  intro s cells rest hnext
  refine ⟨hardResetTo cells { s with agenda := rest }, step_cons hnext, rfl, rfl, rfl, rfl, rfl, rfl, ?_, fun w => ?_⟩
  · simp only [List.forall_mem_cons, List.not_mem_nil, false_imp_iff, implies_true, and_true]
    exact ⟨rfl, rfl, BitVec.eq_of_toNat_eq (status_toNat _), bit_zero, bit_zero, rfl, rfl, rfl, rfl, rfl, rfl, rfl, rfl, rfl, rfl, rfl⟩
  · exact Vector.getElem_ofFn w.isLt

/-- What a soft reset leaves of LMEM (70_reset_and_hazards.md R363). -/
theorem discardRunning_read {s : State} {o : Nat} (h : ∀ r, s.seq = .busy r → inLatchedDst r.latch o = true →
    (preCheckLatched s.params r.latch).isSome = true) : (discardRunning s).lmem.read o = s.lmem.read o := by
  by_cases hfail : ∃ r, s.seq = .busy r ∧ (preCheckLatched s.params r.latch).isSome = true
  · obtain ⟨r, hs, hpre⟩ := hfail
    rw [discardRunning_precheck_fails hs hpre]
  · refine (discardRunning_writesOnly s).elsewhere o ?_
    rintro ⟨-, r, hs, hdst⟩
    exact hfail ⟨r, hs, h r hs hdst⟩

/-- Settles O39: the step is `softReset`, which only writes the `DST` of a command that it discards. -/
theorem softResetKeepsMemory : Obligations.SoftResetKeepsMemory := by
  intro s v rest h0 hnext
  refine ⟨softReset { s with agenda := rest }, ?_, rfl, fun o ho => discardRunning_read (s := { s with agenda := rest }) ho⟩
  rw [step_ctrlWrite hnext, writeCtrl_softReset h0]

/-! ## Abort -/

/-- An abort of a running command records `ABORTED` and 0 (60_exceptions.md R330). -/
theorem abort_failed {s : State} {r : Running} (h : s.seq = .busy r) : Failed s (abort s) 0x1F 0 := by
  simp only [abort, discardRunning, h]
  split <;> rfl

/-- Settles O40: the step is `abort`, which only writes the `DST` of a command that it discards. -/
theorem abortEndsTheRunningCommand : Obligations.AbortEndsTheRunningCommand := by
  refine ⟨fun s v h0 h1 => by rw [hostWrite_ctrl, writeCtrl_nothing h0 h1], fun s v rest h0 h1 hnext => ?_⟩
  rw [step_ctrlWrite hnext, writeCtrl_abort h0 h1]
  refine ⟨fun hidle => ?_, fun r hs => ⟨_, rfl, abort_failed (r := r) hs, fun hpre => ?_, fun o ho => ?_⟩⟩
  · rw [abort_idle (s := { s with agenda := rest }) hidle]
  · rw [abort_lmem, discardRunning_precheck_fails (s := { s with agenda := rest }) hs hpre]
  · rw [abort_lmem]
    refine discardRunning_read (s := { s with agenda := rest }) fun r' hr' hdst => ?_
    obtain rfl := Seq.busy.inj (hs.symm.trans hr')
    simp [ho] at hdst

/-! ## Host accesses while a command runs -/

theorem hostWriteLmem_busy {o n : Nat} {v : Word} {s : State} {r : Running} (h : s.seq = .busy r) :
    hostWriteLmem o n v s =
      { s with lmem := memWrite s.lmem o n v.toNat, seq := .busy (noteHostWrite (byteOffsets o n) r) } := by
  rw [hostWriteLmem, h]

/-- A byte outside the running command's `DST` reads as LMEM holds it (70_reset_and_hazards.md R368). -/
theorem readWhileBusy_outside {l : Latch} {m : Memory} {d o n : Nat} (h : ∀ k < n, inLatchedDst l (o + k) = false) :
    readWhileBusy l m d o n = memRead m o n := by
  induction n generalizing d o with
  | zero => rfl
  | succ n ih =>
    have hfirst : inLatchedDst l o = false := h 0 (by omega)
    rw [readWhileBusy, memRead, hfirst, ih fun k hk => by rw [Nat.add_assoc, Nat.add_comm 1 k]; exact h (k + 1) (by omega)]
    rfl

/-- A host write to LMEM while a command runs: the written bytes, the others, and the registers (70_reset_and_hazards.md
R366 to R368). -/
theorem hostWrite_busy_lmem {s : State} {r : Running} {a : Word} {n : AccessSize} {o : Nat} (v : Word) (hs : s.seq = .busy r)
    (hm : s.lmem.wf = true) (ht : target s.params a n = .lmem o) :
    memRead (hostWrite a n v s).lmem o (accessBytes n) = v.toNat % 256 ^ accessBytes n ∧
      SameOutside s.lmem (hostWrite a n v s).lmem o (accessBytes n) ∧
      hostWrite a n v s = { s with lmem := (hostWrite a n v s).lmem, seq := (hostWrite a n v s).seq } ∧
      (hostWrite a n v s).seq = .busy (noteHostWrite (byteOffsets o (accessBytes n)) r) := by
  rw [hostWrite_lmem v ht, hostWriteLmem_busy hs]
  exact ⟨memRead_memWrite_same hm _ _ _, sameOutside_memWrite _ _ _ _, rfl, rfl⟩

theorem forall_mem_byteOffsets {P : Nat → Prop} {o n : Nat} (h : ∀ k < n, P (o + k)) : ∀ a ∈ byteOffsets o n, P a := by
  simpa [byteOffsets] using h

/-- Settles O41: none of the written bytes is noted, and none of the bytes read is free. -/
theorem hostWriteElsewhereIsNoHazard : Obligations.HostWriteElsewhereIsNoHazard := by
  intro s r a n v o hs ht
  refine ⟨fun hm hout => ?_, fun hout => ⟨?_, hostRead_frame a n s⟩⟩
  · obtain ⟨hread, hother, -, hseq⟩ := hostWrite_busy_lmem v hs hm ht
    have hnote : noteHostWrite (byteOffsets o (accessBytes n)) r = r :=
      noteHostWrite_elsewhere (forall_mem_byteOffsets fun k hk => (hout k hk).1)
        (forall_mem_byteOffsets fun k hk => (hout k hk).2)
    exact ⟨hseq.trans (congrArg Seq.busy hnote), hread, hother⟩
  · simp only [hostRead_lmem ht, hostReadLmem, hs, readWhileBusy_outside hout]
    exact toNat_ofNat_memRead _ _ _

/-! ## What a running command remembers of host writes -/

/-- The record of written `DST` bytes only grows, and takes in every listed byte. -/
theorem mem_foldl_note {o : Nat} (l t : List Nat) :
    o ∈ l.foldl (fun t o => if o ∈ t then t else o :: t) t ↔ o ∈ t ∨ o ∈ l := by
  induction l generalizing t with
  | nil => simp
  | cons a l ih =>
    rw [List.foldl_cons, ih, List.mem_cons, ← or_assoc]
    refine or_congr_left ?_
    split
    · next ha => exact ⟨.inl, fun h => h.elim id fun h => h ▸ ha⟩
    · rw [List.mem_cons, or_comm]

theorem noteHostWrite_dstTouched {os : List Nat} {r : Running} {o : Nat} (ho : o ∈ os) (hdst : inLatchedDst r.latch o = true) :
    o ∈ (noteHostWrite os r).dstTouched :=
  (mem_foldl_note _ _).2 (.inr (List.mem_filter.2 ⟨ho, hdst⟩))

theorem noteHostWrite_srcTouched {os : List Nat} {r : Running} {o : Nat} (ho : o ∈ os) (hsrc : inLatchedSrc r.latch o = true) :
    (noteHostWrite os r).srcTouched = true := by
  have hany : os.any (inLatchedSrc r.latch) = true := List.any_eq_true.2 ⟨o, ho, hsrc⟩
  rw [noteHostWrite, hany, Bool.or_true]

theorem completion_hazard {i : Instr} {r : Running} (h : r.srcTouched = true) (res : Result) (s : State) :
    completion i r res s = completeHazard r.latch s := if_pos h

theorem completion_unhazarded {i : Instr} {r : Running} (h : r.srcTouched = false) (res : Result) (s : State) :
    completion i r res s = settleTouched r (applyResult i r.latch res s) := by
  simp [completion, h]

/-- The same command, if the host had written no byte of its `DST`. -/
theorem exec_untouched (i : Instr) (s : State) {r : Running} (h : r.srcTouched = false) :
    exec i { s with seq := .busy { r with dstTouched := [] } } =
      .next (applyResult i r.latch (execResult i (commandBody i) s.params r.latch s.lmem) s) := by
  refine (exec_busy rfl).trans (congrArg Host.Outcome.next ?_)
  exact (completion_undisturbed (r := { r with dstTouched := [] }) h rfl _ _).trans (applyResult_seq _ _ _ s _)

/-- Settles O42: the write notes its bytes; a noted source makes the completion a hazard, and noted `DST` bytes are all
that is settled after an ordinary one. -/
theorem sourceWriteLeavesOtherBytesAlone : Obligations.SourceWriteLeavesOtherBytesAlone := by
  refine ⟨fun s r a n v o hs hm ht => ?_, fun i s r hs hcmd hsrc => ?_, fun i s r hs hsrc => ?_⟩
  · obtain ⟨hread, hother, hframe, hseq⟩ := hostWrite_busy_lmem v hs hm ht
    refine ⟨hread, hother, hframe, _, hseq, rfl, fun ⟨k, hk, hin⟩ => ?_, fun k hk hin => ?_⟩
    · exact noteHostWrite_srcTouched (mem_byteOffsets.2 ⟨by omega, by omega⟩) hin
    · exact noteHostWrite_dstTouched (mem_byteOffsets.2 ⟨by omega, by omega⟩) hin
  · have hframe := completeHazard_frame r.latch s
    refine ⟨completeHazard r.latch s, ?_, hframe.seq, hframe.done, hframe.doneIP, fun o ho => ?_⟩
    · rw [exec_busy hs, completion_hazard hsrc]
    · exact (scrambleDst_writesOnly r.latch { s with draws := s.draws + 3 }).elsewhere o fun h => by simp [ho] at h
  · refine ⟨_, _, (exec_busy hs).trans (congrArg _ (completion_unhazarded hsrc _ _)), exec_untouched i s hsrc, rfl,
      fun o ho => ?_⟩
    exact (scrambleAt_writesOnly _ _ _).elsewhere o ho

end Sys2Proof.Machine
end
